-- ==== Sys2Proof/Word.lean ====
section
/-! DEFINITION. The block's words and byte sequences (00_scope.md R9, R10). -/

namespace Sys2Proof

/-- An 8-bit value. -/
abbrev Byte := BitVec 8

/-- A 16-bit value. -/
abbrev Half := BitVec 16

/-- A 32-bit value: every ARG, RES and host register (10_state.md R33, R34, R54). -/
abbrev Word := BitVec 32

/-- A finite list of bytes (R10). -/
abbrev Bytes := List Byte

/-- A byte sequence of length exactly 16 (R10): an address. -/
abbrev Bytes16 := { b : Bytes // b.length = 16 }

/-- `n` bytes of value 0 (R10). -/
def zeros (n : Nat) : Bytes := List.replicate n 0

/-- The all-zero address (10_state.md R58). -/
def zeros16 : Bytes16 := ⟨zeros 16, rfl⟩

end Sys2Proof
end

