-- ==== Sys2Proof/Syntax.lean ====
section
/-! DEFINITION. The instruction syntax: the 41 commands of 30_encoding.md R102 and the 6 next-header
dispatch rows of R120, one constructor per row of the opcode table. No command has an operand
field: operands are the ARG registers (R103). -/

namespace Sys2Proof

/-- One constructor per row of the opcode table, in its order. -/
inductive Instr where
  | nop | clear
  | packW0 | unpackW0 | getVer | getTc | getFlow | setVer | setTc | setFlow
  | packFrag | unpackFrag | getFoff | getMf | setFoff | setMf
  | packRt | unpackRt | getSlbits | setSlbits
  | decHop | decRt | decFrag | decAh | decEsp | decDst
  | encHop | encRt | encFrag | encAh | encEsp | encDst
  | tlvScan | chainWalk
  | fixDec | fixEnc | pktDec | pktEnc
  | csumPseudo | csumCompute | csumFixup
  | nhHop | nhRt | nhFrag | nhEsp | nhAh | nhDst
  deriving DecidableEq, Repr

/-- The six extension-header kinds (00_scope.md R14), in the canonical encode order. -/
inductive Kind where
  | hop | rt | frag | ah | esp | dst
  deriving DecidableEq, Repr

/-- A command word taken apart (30_encoding.md R100). -/
structure CmdWord where
  /-- bits [31:8], reserved, must be 0 -/
  rsv : BitVec 24
  /-- bits [7:0] -/
  opc : Byte
  deriving DecidableEq, Repr

/-- What the block is given to decode: a 32-bit command word (R100), or, inside a walk, the
next-header byte the walker dispatches on (R120, 44_chain_walker.md R271). -/
inductive Fetched where
  | cmd (w : Word)
  | nh (p : Byte)
  deriving DecidableEq, Repr

end Sys2Proof
end

