-- ==== Sys2Proof/WellFormed.lean ====
section
/-! DEFINITION. Which words are well formed, from the spec's lists of what is reserved or illegal
(30_encoding.md R100, R105, R120), written apart from the decoder's tables. An `Instr` itself has
no fields, so every `Instr` is well formed; the checks are about the words. -/

namespace Sys2Proof

/-- The fields of a command word (R100). -/
def CmdWord.ofWord (w : Word) : CmdWord :=
  ⟨w.extractLsb' 8 24, w.extractLsb' 0 8⟩

/-- R100: the reserved field is 0. -/
def CmdWord.rsvOk (c : CmdWord) : Bool := c.rsv == 0

/-- R105: the opcode lies in none of the illegal ranges. -/
def CmdWord.opcOk (c : CmdWord) : Bool :=
  let n := c.opc.toNat
  !(n == 0x00 || (0x03 ≤ n && n ≤ 0x0F) || (0x22 ≤ n && n ≤ 0x2F) || (0x36 ≤ n && n ≤ 0x37) ||
    (0x3E ≤ n && n ≤ 0x3F) || (0x41 ≤ n && n ≤ 0x47) || (0x49 ≤ n && n ≤ 0x4F) ||
    (0x54 ≤ n && n ≤ 0x5F) || (0x63 ≤ n && n ≤ 0xFF))

/-- A legal command word (R101, R105). -/
def CmdWord.wellFormed (c : CmdWord) : Bool := c.rsvOk && c.opcOk

/-- R120, R270: the recognized extension protocol ids, EXT. -/
def extIds : List Byte := [0, 43, 44, 50, 51, 60]

/-- R120: the id is one the walker dispatches on; every other id is terminal. -/
def nhOk (p : Byte) : Bool := extIds.contains p

/-- What may be decoded: a legal command word, or a recognized next-header id. -/
def Fetched.wellFormed : Fetched → Bool
  | .cmd w => (CmdWord.ofWord w).wellFormed
  | .nh p => nhOk p

end Sys2Proof
end

