-- ==== Sys2Proof/Decode.lean ====
section
/-! DEFINITION. The decoder (30_encoding.md R101, R102, R120), total, rejecting by name, and after
it the encoder, written from the same tables. -/

namespace Sys2Proof

/-- Why a word has no instruction. -/
inductive DecodeError where
  /-- CMD[31:8] is not 0 (R101, R105). -/
  | reservedBits (rsv : BitVec 24)
  /-- CMD[7:0] is no opcode of R102. -/
  | unknownOpcode (opc : Byte)
  /-- The next-header id is terminal: no extension header (R120). -/
  | terminalId (p : Byte)
  deriving DecidableEq, Repr

/-- The opcode map of R102. -/
def decodeOpcode (opc : Byte) : Option Instr :=
  match opc.toNat with
  | 0x01 => some .nop
  | 0x02 => some .clear
  | 0x10 => some .packW0
  | 0x11 => some .unpackW0
  | 0x12 => some .getVer
  | 0x13 => some .getTc
  | 0x14 => some .getFlow
  | 0x15 => some .setVer
  | 0x16 => some .setTc
  | 0x17 => some .setFlow
  | 0x18 => some .packFrag
  | 0x19 => some .unpackFrag
  | 0x1A => some .getFoff
  | 0x1B => some .getMf
  | 0x1C => some .setFoff
  | 0x1D => some .setMf
  | 0x1E => some .packRt
  | 0x1F => some .unpackRt
  | 0x20 => some .getSlbits
  | 0x21 => some .setSlbits
  | 0x30 => some .decHop
  | 0x31 => some .decRt
  | 0x32 => some .decFrag
  | 0x33 => some .decAh
  | 0x34 => some .decEsp
  | 0x35 => some .decDst
  | 0x38 => some .encHop
  | 0x39 => some .encRt
  | 0x3A => some .encFrag
  | 0x3B => some .encAh
  | 0x3C => some .encEsp
  | 0x3D => some .encDst
  | 0x40 => some .tlvScan
  | 0x48 => some .chainWalk
  | 0x50 => some .fixDec
  | 0x51 => some .fixEnc
  | 0x52 => some .pktDec
  | 0x53 => some .pktEnc
  | 0x60 => some .csumPseudo
  | 0x61 => some .csumCompute
  | 0x62 => some .csumFixup
  | _ => none

/-- The next-header dispatch of R120: `kindOf(p)`, `none` for a terminal id. -/
def kindOf (p : Byte) : Option Kind :=
  match p.toNat with
  | 0 => some .hop
  | 43 => some .rt
  | 44 => some .frag
  | 50 => some .esp
  | 51 => some .ah
  | 60 => some .dst
  | _ => none

/-- `idOf(k)`, the inverse of `kindOf` (R120). -/
def idOf : Kind → Byte
  | .hop => 0
  | .rt => 43
  | .frag => 44
  | .ah => 51
  | .esp => 50
  | .dst => 60

/-- The opcode table's dispatch row of a kind. -/
def nhInstr : Kind → Instr
  | .hop => .nhHop
  | .rt => .nhRt
  | .frag => .nhFrag
  | .ah => .nhAh
  | .esp => .nhEsp
  | .dst => .nhDst

/-- Command decode (R101): the reserved field first, then the opcode. Reads nothing but the word. -/
def decodeCmd (w : Word) : Except DecodeError Instr :=
  let c := CmdWord.ofWord w
  if c.rsv ≠ 0 then .error (.reservedBits c.rsv)
  else match decodeOpcode c.opc with
    | some i => .ok i
    | none => .error (.unknownOpcode c.opc)

/-- Next-header decode (R120). -/
def decodeNh (p : Byte) : Except DecodeError Instr :=
  match kindOf p with
  | some k => .ok (nhInstr k)
  | none => .error (.terminalId p)

/-- The decoder. -/
def decode : Fetched → Except DecodeError Instr
  | .cmd w => decodeCmd w
  | .nh p => decodeNh p

/-- The encoder: the command word `0x000000<OPC>` (R107) or the next-header byte (R120). -/
def encode : Instr → Fetched
  | .nop => .cmd 0x00000001
  | .clear => .cmd 0x00000002
  | .packW0 => .cmd 0x00000010
  | .unpackW0 => .cmd 0x00000011
  | .getVer => .cmd 0x00000012
  | .getTc => .cmd 0x00000013
  | .getFlow => .cmd 0x00000014
  | .setVer => .cmd 0x00000015
  | .setTc => .cmd 0x00000016
  | .setFlow => .cmd 0x00000017
  | .packFrag => .cmd 0x00000018
  | .unpackFrag => .cmd 0x00000019
  | .getFoff => .cmd 0x0000001A
  | .getMf => .cmd 0x0000001B
  | .setFoff => .cmd 0x0000001C
  | .setMf => .cmd 0x0000001D
  | .packRt => .cmd 0x0000001E
  | .unpackRt => .cmd 0x0000001F
  | .getSlbits => .cmd 0x00000020
  | .setSlbits => .cmd 0x00000021
  | .decHop => .cmd 0x00000030
  | .decRt => .cmd 0x00000031
  | .decFrag => .cmd 0x00000032
  | .decAh => .cmd 0x00000033
  | .decEsp => .cmd 0x00000034
  | .decDst => .cmd 0x00000035
  | .encHop => .cmd 0x00000038
  | .encRt => .cmd 0x00000039
  | .encFrag => .cmd 0x0000003A
  | .encAh => .cmd 0x0000003B
  | .encEsp => .cmd 0x0000003C
  | .encDst => .cmd 0x0000003D
  | .tlvScan => .cmd 0x00000040
  | .chainWalk => .cmd 0x00000048
  | .fixDec => .cmd 0x00000050
  | .fixEnc => .cmd 0x00000051
  | .pktDec => .cmd 0x00000052
  | .pktEnc => .cmd 0x00000053
  | .csumPseudo => .cmd 0x00000060
  | .csumCompute => .cmd 0x00000061
  | .csumFixup => .cmd 0x00000062
  | .nhHop => .nh 0x00
  | .nhRt => .nh 0x2B
  | .nhFrag => .nh 0x2C
  | .nhEsp => .nh 0x32
  | .nhAh => .nh 0x33
  | .nhDst => .nh 0x3C

/-- The word of a table row as the block receives it: a 32-bit row is a command word, an 8-bit row a
next-header byte (opcode table formats CMD32 and NH8). No other width has a format. -/
def tableWord (nbits w : Nat) : Option Fetched :=
  if nbits = 32 then some (.cmd (BitVec.ofNat 32 w))
  else if nbits = 8 then some (.nh (BitVec.ofNat 8 w))
  else none

/-- What the decoder reads from a table row's word. -/
def decodeTableWord (nbits w : Nat) : Option Instr :=
  match tableWord nbits w with
  | none => none
  | some f =>
    match decode f with
    | .ok i => some i
    | .error _ => none

end Sys2Proof
end

