-- ==== Sys2Proof/Config.lean ====
section
/-! DEFINITION. What an implementation fixes and the values the spec leaves open: the OPEN
parameters of 00_scope.md R7 (buffer sizes, the upper-layer codec) and the free values of
70_reset_and_hazards.md R452 (buffer contents after reset). Each is opaque: no proof can see a value. -/

namespace Sys2Proof

/-- A ULC object written down as plain data (log 8): a tag and bytes, whose meaning only the ULC
knows (10_state.md R52, R57). -/
structure Obj where
  tag : Byte
  body : Bytes
  deriving DecidableEq, Repr, Inhabited

/-- The upper-layer codec's members (10_state.md R52), total functions (R53). -/
structure Ulc where
  /-- whether the registry holds a decoder for the id -/
  lookup : Byte → Bool
  /-- the decoder for the id; `none` is the source's DecodeError -/
  decode : Byte → Bytes → Option Obj
  serialize : Obj → Bytes
  hasCsum : Obj → Bool
  getCsum : Obj → Half
  setCsum : Obj → Half → Obj

/-- Which codec the machine is built with (log 7). -/
inductive UlcSel where
  /-- the OPEN parameter: any codec at all, the opaque functions below -/
  | external
  /-- ULC0, the empty registry (95_test_vectors.md section 0.1) -/
  | ulc0
  /-- TULC, the small TCP/UDP registry (95_test_vectors.md section 0.1) -/
  | tulc
  deriving DecidableEq, Repr

/-- Free: the registry's `lookup` (R52, log 7). -/
opaque Config.ulcLookup : Byte → Bool
/-- Free: the registry's decoders (R52, log 7). -/
opaque Config.ulcDecode : Byte → Bytes → Option Obj
/-- Free: the codec's `serialize` (R52, log 7). -/
opaque Config.ulcSerialize : Obj → Bytes
/-- Free: the codec's `hasCsum` (R52, log 7). -/
opaque Config.ulcHasCsum : Obj → Bool
/-- Free: the codec's `getCsum` (R52, log 7). -/
opaque Config.ulcGetCsum : Obj → Half
/-- Free: the codec's `setCsum` (R52, log 7). -/
opaque Config.ulcSetCsum : Obj → Half → Obj

/-- Free: how many bytes IBUF has beyond 40 (R7: at least 40, less than 2^32; log 6). -/
opaque Config.ibufExtra : Fin 4294967256
/-- Free: how many bytes OBUF has beyond 40 (R7; log 6). -/
opaque Config.obufExtra : Fin 4294967256

/-- Free: what the IBUF of the u-th block of a system holds after the n-th reset at an address, in
this order of arguments (R452; log 5; each block its own bytes, log 12). -/
opaque Config.ibufInit : Nat → Nat → Nat → Byte
/-- Free: what the OBUF of the u-th block holds after the n-th reset at an address (as `ibufInit`). -/
opaque Config.obufInit : Nat → Nat → Nat → Byte

end Sys2Proof
end

