-- ==== Sys2Proof/Machine/State.lean ====
section
/-! DEFINITION. The machine's state (10_state.md), as plain data, its reset value (R58), and the
reasons a step can stop. INVENTORY.md lists every field with its rule. -/

namespace Sys2Proof.Machine

/-- An option record (10_state.md R50). -/
structure OptRec where
  typ : Byte
  len : Byte
  value : Bytes
  deriving DecidableEq, Repr

/-- The Options slot, SLOT[0] HOP and SLOT[5] DST (R41). -/
structure OptSlot where
  valid : Bool
  nxt : Byte
  hel : Byte
  optdata : Bytes
  opts : List OptRec
  deriving DecidableEq, Repr

/-- The Routing slot, SLOT[1] (R42). -/
structure RtSlot where
  valid : Bool
  nxt : Byte
  hel : Byte
  rtype : Byte
  segleft : Byte
  rtw : Word
  addrs : List Bytes16
  resid : Bytes
  deriving DecidableEq, Repr

/-- The Fragment slot, SLOT[2] (R43). -/
structure FragSlot where
  valid : Bool
  nxt : Byte
  rsvd : Byte
  fragw : Half
  ident : Word
  deriving DecidableEq, Repr

/-- The Authentication slot, SLOT[3] (R44). -/
structure AhSlot where
  valid : Bool
  nxt : Byte
  plen : Byte
  rsvd : Half
  spi : Word
  seq : Word
  auth : Bytes
  deriving DecidableEq, Repr

/-- The ESP slot, SLOT[4] (R45); it has no `nxt` (90_conflicts.md C1). -/
structure EspSlot where
  valid : Bool
  spi : Word
  seq : Word
  data : Bytes
  deriving DecidableEq, Repr

/-- The six slots (R40). -/
structure Slots where
  hop : OptSlot
  rt : RtSlot
  frag : FragSlot
  ah : AhSlot
  esp : EspSlot
  dst : OptSlot
  deriving DecidableEq, Repr

/-- The fixed-header fields of the packet context (R39). -/
structure FixedHdr where
  w0 : Word
  plen : Half
  nxt : Byte
  hlim : Byte
  src : Bytes16
  dst : Bytes16
  deriving DecidableEq, Repr

/-- PAYLOAD (R48). -/
inductive Payload where
  | raw (b : Bytes)
  | obj (h : Obj)
  deriving DecidableEq, Repr

/-- The walker's loop variables (44_chain_walker.md R271) between two dispatches. The model's own
state (log 3): a command that walks runs the whole loop in its one step and leaves these alone. -/
structure Walker where
  /-- the available region `b` -/
  buf : Bytes
  /-- its IBUF offset `o` -/
  off : Nat
  /-- bytes consumed so far -/
  pos : Nat
  /-- `cur`: the id to dispatch on next; `none` after ESP, and while no walk is under way -/
  cur : Option Byte
  /-- `S` -/
  slots : Slots
  chain : List Byte
  deriving DecidableEq, Repr

/-- A piece of state the host can read (10_state.md R55: any; IBUF too, log 20): a register of the map R54, bytes of a
buffer, or a list, a byte sequence or the payload, read whole. -/
inductive HostLoc where
  | reg (addr : Nat)
  | ibuf (off len : Nat)
  | obuf (off len : Nat)
  | hopOptdata
  | hopOpts
  | dstOptdata
  | dstOpts
  | rtAddrs
  | rtResid
  | ahAuth
  | espData
  | chain
  | scan
  | payload
  deriving DecidableEq, Repr

/-- What a host read gives. -/
inductive HostVal where
  | word (v : Word)
  | bytes (b : Bytes)
  | recs (rs : List OptRec)
  | addrs (as : List Bytes16)
  | ids (ps : List Byte)
  | payload (p : Payload)
  deriving DecidableEq, Repr

/-- One action of the host (10_state.md R55, 70_reset_and_hazards.md R461). -/
inductive HostAct where
  /-- write the 32-bit register at a byte address of R54; address 0 issues a command -/
  | write (addr : Nat) (v : Word)
  /-- read any piece of state (log 11) -/
  | read (l : HostLoc)
  /-- write bytes into IBUF from an offset on -/
  | ibuf (off : Nat) (b : Bytes)
  | hopOptdata (b : Bytes)
  | hopOpts (rs : List OptRec)
  | dstOptdata (b : Bytes)
  | dstOpts (rs : List OptRec)
  | rtAddrs (as : List Bytes16)
  | rtResid (b : Bytes)
  | ahAuth (b : Bytes)
  | espData (b : Bytes)
  | payload (p : Payload)
  /-- the system asserts reset (70_reset_and_hazards.md R450) -/
  | reset
  deriving DecidableEq, Repr

/-- The parameters of 00_scope.md R7 the machine is built with; no step changes them (log 6, 7). -/
structure Params where
  ibufSize : Nat
  obufSize : Nat
  ulc : UlcSel
  /-- the model's own: which block of a system this is. It only keeps the free buffer bytes of
  different blocks apart (log 12); nothing else depends on it. -/
  unit : Nat
  deriving DecidableEq, Repr

/-- A byte memory: the bytes written since reset, by strictly rising address (log 5). -/
abbrev Memory := List Host.Cell

/-- A header whose decode can fail, for STATUS.FKIND (R35). -/
inductive HdrKind where
  | fixed
  | ext (k : Kind)
  | tlv
  deriving DecidableEq, Repr

/-- The faults of 60_exceptions.md R400. A command that meets one COMPLETES with it (R404): a next
state of the machine, not a stop. -/
inductive Trap where
  | malformed (h : HdrKind) (off : Nat)
  | illegalCommand
  | badRegion
  | obufOverflow
  | csumLengthRange
  deriving DecidableEq, Repr

/-- The STATUS flags a successful command sets (R35, R56). -/
structure DoneFlags where
  ulpRaw : Bool := false
  rawWhy : BitVec 2 := 0
  csumWritten : Bool := false
  csumSkipped : Bool := false
  deriving DecidableEq, Repr

/-- The whole machine. -/
structure State where
  /-- CMD: the command pending, if any (R32) -/
  cmd : Option Word
  arg0 : Word
  arg1 : Word
  arg2 : Word
  arg3 : Word
  res0 : Word
  res1 : Word
  res2 : Word
  res3 : Word
  status : Word
  faultOff : Word
  olen : Word
  scan : List OptRec
  /-- W0, PLEN, NXT, HLIM, SRC, DST (R39) -/
  fix : FixedHdr
  slots : Slots
  ulp : Option Byte
  chain : List Byte
  payload : Payload
  ibuf : Memory
  obuf : Memory
  /-- the model's own: a walk between two dispatches (log 3) -/
  walker : Walker
  /-- the model's own: the host's actions still to come (log 1) -/
  host : List HostAct
  params : Params
  /-- the model's own: resets so far (log 9) -/
  resets : Nat
  deriving DecidableEq, Repr

/-- Why the model stops. -/
inductive Fault where
  /-- Raised by `step` when the host's next action writes or reads IBUF bytes past IBUF_SIZE:
  addresses 20_memory.md R70 says do not exist (log 10). Safe: the model stops where the spec gives
  the host no such access. No command ever raises it. -/
  | hostOutsideIbuf (off len : Nat)
  /-- Raised by `step` when the host's next action reads OBUF bytes past OBUF_SIZE (as
  `hostOutsideIbuf`; log 10). Safe. No command ever raises it. -/
  | hostOutsideObuf (off len : Nat)
  deriving DecidableEq, Repr

/-- Why the model gives an instruction no meaning. -/
inductive Refusal where
  /-- Answered only by an arm of `exec` whose instruction has no meaning yet; no arm is left. Safe. -/
  | notModelled (mnemonic : String)
  deriving DecidableEq, Repr

def OptSlot.reset : OptSlot := ⟨false, 0, 0, [], []⟩
def RtSlot.reset : RtSlot := ⟨false, 0, 0, 0, 0, 0, [], []⟩
def FragSlot.reset : FragSlot := ⟨false, 0, 0, 0, 0⟩
def AhSlot.reset : AhSlot := ⟨false, 0, 0, 0, 0, 0, []⟩
def EspSlot.reset : EspSlot := ⟨false, 0, 0, []⟩

/-- Every slot with valid = 0 and reset-valued fields (R58, R271). -/
def Slots.reset : Slots :=
  ⟨OptSlot.reset, RtSlot.reset, FragSlot.reset, AhSlot.reset, EspSlot.reset, OptSlot.reset⟩

/-- The fixed-header fields at reset (R58). -/
def FixedHdr.reset : FixedHdr := ⟨0, 0, 0, 0, zeros16, zeros16⟩

/-- No walk under way (log 3). -/
def Walker.idle : Walker := ⟨[], 0, 0, none, Slots.reset, []⟩

/-- The parameters at reset: the OPEN ones of R7 (log 6, 7), of block 0 (log 12). -/
def Params.reset : Params :=
  ⟨Config.ibufExtra.val + 40, Config.obufExtra.val + 40, .external, 0⟩

/-- The machine right after reset (R58, R451, R452). -/
def State.reset : State where
  cmd := none
  arg0 := 0
  arg1 := 0
  arg2 := 0
  arg3 := 0
  res0 := 0
  res1 := 0
  res2 := 0
  res3 := 0
  status := 0
  faultOff := 0
  olen := 0
  scan := []
  fix := FixedHdr.reset
  slots := Slots.reset
  ulp := none
  chain := []
  payload := .raw []
  ibuf := []
  obuf := []
  walker := Walker.idle
  host := []
  params := Params.reset
  resets := 0

end Sys2Proof.Machine
end

