-- ==== Sys2Proof/Machine/Bytes.lean ====
section
/-! DEFINITION. Byte sequences and byte order (00_scope.md R10, R11): every wire field is big-endian
(20_memory.md R75). -/

namespace Sys2Proof.Machine

/-- `b[i]` (R10); 0 past the end, where no rule reads. -/
def byteAt (b : Bytes) (i : Nat) : Byte := b.getD i 0

/-- `b[i .. j)` (R10). -/
def slice (b : Bytes) (i j : Nat) : Bytes := (b.drop i).take (j - i)

/-- `BE16(v)` (R11). -/
def be16 (v : Half) : Bytes := [v.extractLsb' 8 8, v.extractLsb' 0 8]

/-- `BE32(v)` (R11). -/
def be32 (v : Word) : Bytes :=
  [v.extractLsb' 24 8, v.extractLsb' 16 8, v.extractLsb' 8 8, v.extractLsb' 0 8]

/-- `rd16(b, i)` (R11). -/
def rd16 (b : Bytes) (i : Nat) : Half :=
  BitVec.ofNat 16 (2 ^ 8 * (byteAt b i).toNat + (byteAt b (i + 1)).toNat)

/-- `rd32(b, i)` (R11). -/
def rd32 (b : Bytes) (i : Nat) : Word :=
  BitVec.ofNat 32 (2 ^ 24 * (byteAt b i).toNat + 2 ^ 16 * (byteAt b (i + 1)).toNat +
    2 ^ 8 * (byteAt b (i + 2)).toNat + (byteAt b (i + 3)).toNat)

/-- The 16 bytes a function gives. -/
def bytes16 (f : Nat → Byte) : Bytes16 := ⟨(List.range 16).map f, by simp⟩

/-- `b[i .. i+16)` as an address. -/
def addrAt (b : Bytes) (i : Nat) : Bytes16 := bytes16 (fun j => byteAt b (i + j))

/-- `b` with the two bytes at `i` replaced by BE16(c). -/
def putBe16 (b : Bytes) (i : Nat) (c : Half) : Bytes := b.take i ++ be16 c ++ b.drop (i + 2)

end Sys2Proof.Machine
end

