-- ==== Sys2Proof/Machine/Flags.lean ====
section
/-! DEFINITION. STATUS: its fields (10_state.md R35), the cause codes (60_exceptions.md R400) and the
header codes (R401). -/

namespace Sys2Proof.Machine

/-- The kind index k of 00_scope.md R14. -/
def kindIndex : Kind → Nat
  | .hop => 0
  | .rt => 1
  | .frag => 2
  | .ah => 3
  | .esp => 4
  | .dst => 5

/-- STATUS.FKIND of a header (R35): 1 fixed, k + 2 an extension header, 8 the standalone scan. -/
def fkindCode : HdrKind → BitVec 4
  | .fixed => 1
  | .ext k => BitVec.ofNat 4 (kindIndex k + 2)
  | .tlv => 8

/-- STATUS.CAUSE of a fault (R400). -/
def causeCode : Trap → BitVec 4
  | .malformed _ _ => 1
  | .illegalCommand => 2
  | .badRegion => 3
  | .obufOverflow => 4
  | .csumLengthRange => 5

/-- STATUS.FKIND a fault records: 0 unless CAUSE = 1 (R404). -/
def trapFkind : Trap → BitVec 4
  | .malformed h _ => fkindCode h
  | .illegalCommand => 0
  | .badRegion => 0
  | .obufOverflow => 0
  | .csumLengthRange => 0

/-- FAULT_OFF a fault records: 0 unless CAUSE = 1 (R36, R404). -/
def trapOff : Trap → Nat
  | .malformed _ off => off
  | .illegalCommand => 0
  | .badRegion => 0
  | .obufOverflow => 0
  | .csumLengthRange => 0

/-- The STATUS word of R35, each field times the weight of its lowest bit; bits [30:13] are 0. -/
def packStatus (cause fkind : BitVec 4) (fl : DoneFlags) (sticky : Bool) : Word :=
  BitVec.ofNat 32 (2 ^ 31 * sticky.toNat + 2 ^ 12 * fl.csumSkipped.toNat +
    2 ^ 11 * fl.csumWritten.toNat + 2 ^ 9 * fl.rawWhy.toNat + 2 ^ 8 * fl.ulpRaw.toNat +
    2 ^ 4 * fkind.toNat + cause.toNat)

def statusCause (w : Word) : BitVec 4 := w.extractLsb' 0 4
def statusFkind (w : Word) : BitVec 4 := w.extractLsb' 4 4
def statusUlpRaw (w : Word) : Bool := w.getLsbD 8
def statusRawWhy (w : Word) : BitVec 2 := w.extractLsb' 9 2
def statusCsumWritten (w : Word) : Bool := w.getLsbD 11
def statusCsumSkipped (w : Word) : Bool := w.getLsbD 12
def statusReserved (w : Word) : BitVec 18 := w.extractLsb' 13 18
def statusSticky (w : Word) : Bool := w.getLsbD 31

end Sys2Proof.Machine
end

