-- ==== Sys2Proof/Machine/Ops.lean ====
section
/-! DEFINITION. The named operations over memory and registers: the two byte memories (20_memory.md
R70), output (R76), completing a command and completing it with a fault (60_exceptions.md R404),
which is the only exception mechanism of the block (R412, R413), and what the block fetches next. -/

namespace Sys2Proof.Machine

/-! ### The byte memories -/

/-- The canonical form: addresses strictly rising. An unlisted address holds no written byte, so no
entry can equal what an unlisted address holds (log 5). -/
def Memory.wf : Memory → Bool
  | [] => true
  | [_] => true
  | (a, _) :: (b, w) :: r => decide (a < b) && Memory.wf ((b, w) :: r)

/-- Every listed address is below a size (R70). -/
def Memory.below (n : Nat) (m : Memory) : Bool := m.all (fun c => decide (c.1 < n))

/-- The byte written at an address since reset, if any. -/
def Memory.read? (m : Memory) (a : Nat) : Option Byte := List.lookup a m

/-- Write one byte, keeping the canonical form. -/
def Memory.write (m : Memory) (a : Nat) (v : Byte) : Memory :=
  match m with
  | [] => [(a, v)]
  | (x, w) :: r =>
    if a < x then (a, v) :: (x, w) :: r
    else if a = x then (a, v) :: r
    else (x, w) :: Memory.write r a v

/-- Write a byte sequence from an address on. -/
def Memory.writeBytes (m : Memory) (a : Nat) : Bytes → Memory
  | [] => m
  | b :: bs => Memory.writeBytes (Memory.write m a b) (a + 1) bs

/-- The IBUF byte at an address: what the host wrote there, or, where nothing was written since
reset, an unspecified byte (70_reset_and_hazards.md R452; free value, log 5). Two blocks of a system
have free values of their own (`params.unit`; 20_memory.md R83, log 12). -/
def State.ibufByte (s : State) (a : Nat) : Byte :=
  (Memory.read? s.ibuf a).getD (Config.ibufInit s.params.unit s.resets a)

/-- The OBUF byte at an address (as `ibufByte`; log 5, 12). An address from OBUF_SIZE on does not exist
(R70): no command writes one, and what this gives there is a free value too (log 19). -/
def State.obufByte (s : State) (a : Nat) : Byte :=
  (Memory.read? s.obuf a).getD (Config.obufInit s.params.unit s.resets a)

/-- `IBUF[o .. o+n)`. -/
def State.ibufBytes (s : State) (o n : Nat) : Bytes :=
  (List.range n).map (fun i => s.ibufByte (o + i))

/-- `OBUF[o .. o+n)`. -/
def State.obufBytes (s : State) (o n : Nat) : Bytes :=
  (List.range n).map (fun i => s.obufByte (o + i))

/-! ### Output (20_memory.md R76) -/

/-- `Commit(E)`: append E at OLEN, or ObufOverflow with nothing written. -/
def commitOut (e : Bytes) (s : State) : Except Trap State :=
  if s.olen.toNat + e.length > s.params.obufSize then .error .obufOverflow
  else .ok { s with
    obuf := Memory.writeBytes s.obuf s.olen.toNat e
    olen := BitVec.ofNat 32 (s.olen.toNat + e.length) }

/-! ### Completion (10_state.md R35, R36, R56) -/

/-- A command completes with CAUSE = 0 and the flags its rule gives; STICKY_FAULT keeps its value. -/
def State.done (fl : DoneFlags) (s : State) : State :=
  { s with status := packStatus 0 0 fl (statusSticky s.status), faultOff := 0 }

/-- A command completes with a fault (60_exceptions.md R404): STATUS and FAULT_OFF are written,
STICKY_FAULT is set, and nothing else changes. This is the block's whole exception entry: there is
no saved pc, no mode and no handler (R412), and no return (R413). -/
def State.raise (t : Trap) (s : State) : State :=
  { s with
    status := packStatus (causeCode t) (trapFkind t) {} true
    faultOff := BitVec.ofNat 32 (trapOff t) }

/-- What a command answers: the body's new state completed, or, if it raised, the OLD state with the
fault recorded (20_memory.md R78, 60_exceptions.md R404). -/
def complete (s : State) (r : Except Trap (State × DoneFlags)) :
    Host.Outcome State Fault Refusal :=
  match r with
  | .error t => .next (s.raise t)
  | .ok (t, fl) => .next (t.done fl)

/-! ### Fetch -/

/-- What the block runs next: the pending command (10_state.md R32), else, inside a walk, the
recognized next-header id the walker has reached (44_chain_walker.md R271, log 3). -/
def fetch (s : State) : Option Fetched :=
  match s.cmd with
  | some w => some (.cmd w)
  | none =>
    match s.walker.cur with
    | some p => if nhOk p then some (.nh p) else none
    | none => none

/-- The state the fetched instruction runs in: a command leaves CMD with nothing pending (R32). -/
def afterFetch (s : State) : State := { s with cmd := none }

/-- A command word that decodes to nothing: IllegalCommand (60_exceptions.md R405). -/
def illegalCommand (s : State) : Host.Outcome State Fault Refusal := complete s (.error .illegalCommand)

/-- Put an instruction where `fetch` finds it next (log 15): a command word in CMD; a next-header
byte in the walker's `cur`, with no command pending. -/
def placeFetched (s : State) (f : Fetched) : State :=
  match f with
  | .cmd w => { s with cmd := some w }
  | .nh p => { s with cmd := none, walker := { s.walker with cur := some p } }

end Sys2Proof.Machine
end

