-- ==== Sys2Proof/Machine/Operands.lean ====
section
/-! DEFINITION. Operand and result forms (30_encoding.md R103, R104): region operands, the low byte of
an ARG, masked field operands, zero-extended results. -/

namespace Sys2Proof.Machine

/-- A region operand pair (20_memory.md R73): the bytes it names, or BadRegion when `o + n` exceeds
IBUF_SIZE, the sum taken without wrap-around. -/
def region (s : State) (o n : Word) : Except Trap Bytes :=
  if o.toNat + n.toNat > s.params.ibufSize then .error .badRegion
  else .ok (s.ibufBytes o.toNat n.toNat)

/-- `ARG[7:0]`; the other bits are ignored (R103). -/
def lowByte (w : Word) : Byte := w.extractLsb' 0 8

/-- `ARG[15:0]`; the other bits are ignored (R103). -/
def lowHalf (w : Word) : Half := w.extractLsb' 0 16

/-- A natural number as a result register holds it (R104, `mask_32`; log 17). -/
def natRes (n : Nat) : Word := BitVec.ofNat 32 n

/-- A result that names a protocol id: zero-extended, or 0xFFFFFFFF for "no protocol id" (R104). -/
def idRes : Option Byte → Word
  | some p => p.setWidth 32
  | none => 0xFFFFFFFF

/-- The checksum written, as a result: zero-extended, or 0 when none was written (46_checksum.md
R340, 45_packet_codec.md R303). -/
def csumRes : Option Half → Word
  | some c => c.setWidth 32
  | none => 0

end Sys2Proof.Machine
end

