-- ==== Sys2Proof/Machine/Bitfield.lean ====
section
/-! DEFINITION. The field-bitpacking commands (41_bitfield.md), with the arithmetic of its rules: a
packed word is the sum of its fields, each times the weight of its lowest bit; an operand is masked
to its field's width, never rejected (00_scope.md R9). -/

namespace Sys2Proof.Machine

/-! ### Pack and unpack functions (R150 to R155) -/

/-- `mask_w(v)` (R9). -/
def mask (w : Nat) (v : Word) : Nat := v.toNat % 2 ^ w

/-- `packW0` (R150). -/
def packW0 (v c f : Word) : Word :=
  BitVec.ofNat 32 (2 ^ 28 * mask 4 v + 2 ^ 20 * mask 8 c + mask 20 f)

/-- `unpackW0` (R151): w[31:28], w[27:20], w[19:0]. -/
def w0Ver (w : Word) : BitVec 4 := w.extractLsb' 28 4
def w0Tc (w : Word) : BitVec 8 := w.extractLsb' 20 8
def w0Flow (w : Word) : BitVec 20 := w.extractLsb' 0 20

/-- `packFrag` (R152). -/
def packFrag (o r m : Word) : Half :=
  BitVec.ofNat 16 (2 ^ 3 * mask 13 o + 2 * mask 2 r + mask 1 m)

/-- `unpackFrag` (R153): w[15:3], w[2:1], w[0]. -/
def fragOff (w : Half) : BitVec 13 := w.extractLsb' 3 13
def fragRsvd2 (w : Half) : BitVec 2 := w.extractLsb' 1 2
def fragMf (w : Half) : BitVec 1 := w.extractLsb' 0 1

/-- `packRt` (R154). -/
def packRt (r b : Word) : Word := BitVec.ofNat 32 (2 ^ 24 * mask 8 r + mask 24 b)

/-- `unpackRt` (R155): w[31:24], w[23:0]. -/
def rtRsvd (w : Word) : BitVec 8 := w.extractLsb' 24 8
def rtBits (w : Word) : BitVec 24 := w.extractLsb' 0 24

/-! ### Setters: one field replaced, the others kept (R157) -/

/-- R165: mask_4(ARG0)*2^28 + W0[27:0]. -/
def setVer (w v : Word) : Word :=
  BitVec.ofNat 32 (2 ^ 28 * mask 4 v + (w.extractLsb' 0 28).toNat)

/-- R166: W0[31:28]*2^28 + mask_8(ARG0)*2^20 + W0[19:0]. -/
def setTc (w c : Word) : Word :=
  BitVec.ofNat 32 (2 ^ 28 * (w0Ver w).toNat + 2 ^ 20 * mask 8 c + (w0Flow w).toNat)

/-- R167: W0[31:20]*2^20 + mask_20(ARG0). -/
def setFlow (w f : Word) : Word :=
  BitVec.ofNat 32 (2 ^ 20 * (w.extractLsb' 20 12).toNat + mask 20 f)

/-- R172: mask_13(ARG0)*2^3 + fragw[2:0]. -/
def setFoff (w : Half) (o : Word) : Half :=
  BitVec.ofNat 16 (2 ^ 3 * mask 13 o + (w.extractLsb' 0 3).toNat)

/-- R173: fragw[15:1]*2 + mask_1(ARG0). -/
def setMf (w : Half) (m : Word) : Half :=
  BitVec.ofNat 16 (2 * (w.extractLsb' 1 15).toNat + mask 1 m)

/-- R177: rtw[31:24]*2^24 + mask_24(ARG0). -/
def setBits (w b : Word) : Word :=
  BitVec.ofNat 32 (2 ^ 24 * (rtRsvd w).toNat + mask 24 b)

/-! ### Commands (R158: none can fault; every flag is 0) -/

/-- A command of this file: its new state, completed with no flag (R158). -/
def bitfieldDone (s t : State) : Host.Outcome State Fault Refusal := complete s (.ok (t, {}))

/-- W0 written (R165 to R167). -/
def withW0 (s : State) (w : Word) : State := { s with fix := { s.fix with w0 := w } }

/-- SLOT[2].fragw written, whatever the slot's valid bit (R158). -/
def withFragw (s : State) (w : Half) : State :=
  { s with slots := { s.slots with frag := { s.slots.frag with fragw := w } } }

/-- SLOT[1].rtw written, whatever the slot's valid bit (R158). -/
def withRtw (s : State) (w : Word) : State :=
  { s with slots := { s.slots with rt := { s.slots.rt with rtw := w } } }

/-- PACK_W0 (R160). -/
def execPackW0 (s : State) : Host.Outcome State Fault Refusal :=
  bitfieldDone s { s with res0 := packW0 s.arg0 s.arg1 s.arg2 }

/-- UNPACK_W0 (R161). -/
def execUnpackW0 (s : State) : Host.Outcome State Fault Refusal :=
  bitfieldDone s { s with
    res0 := (w0Ver s.arg0).setWidth 32
    res1 := (w0Tc s.arg0).setWidth 32
    res2 := (w0Flow s.arg0).setWidth 32 }

/-- GET_VER (R162). -/
def execGetVer (s : State) : Host.Outcome State Fault Refusal :=
  bitfieldDone s { s with res0 := (w0Ver s.fix.w0).setWidth 32 }

/-- GET_TC (R163). -/
def execGetTc (s : State) : Host.Outcome State Fault Refusal :=
  bitfieldDone s { s with res0 := (w0Tc s.fix.w0).setWidth 32 }

/-- GET_FLOW (R164). -/
def execGetFlow (s : State) : Host.Outcome State Fault Refusal :=
  bitfieldDone s { s with res0 := (w0Flow s.fix.w0).setWidth 32 }

/-- SET_VER (R165). -/
def execSetVer (s : State) : Host.Outcome State Fault Refusal :=
  bitfieldDone s (withW0 s (setVer s.fix.w0 s.arg0))

/-- SET_TC (R166). -/
def execSetTc (s : State) : Host.Outcome State Fault Refusal :=
  bitfieldDone s (withW0 s (setTc s.fix.w0 s.arg0))

/-- SET_FLOW (R167). -/
def execSetFlow (s : State) : Host.Outcome State Fault Refusal :=
  bitfieldDone s (withW0 s (setFlow s.fix.w0 s.arg0))

/-- PACK_FRAG (R168). -/
def execPackFrag (s : State) : Host.Outcome State Fault Refusal :=
  bitfieldDone s { s with res0 := (packFrag s.arg0 s.arg1 s.arg2).setWidth 32 }

/-- UNPACK_FRAG (R169): only ARG0[15:0] is used. -/
def execUnpackFrag (s : State) : Host.Outcome State Fault Refusal :=
  bitfieldDone s { s with
    res0 := (fragOff (lowHalf s.arg0)).setWidth 32
    res1 := (fragRsvd2 (lowHalf s.arg0)).setWidth 32
    res2 := (fragMf (lowHalf s.arg0)).setWidth 32 }

/-- GET_FOFF (R170). -/
def execGetFoff (s : State) : Host.Outcome State Fault Refusal :=
  bitfieldDone s { s with res0 := (fragOff s.slots.frag.fragw).setWidth 32 }

/-- GET_MF (R171). -/
def execGetMf (s : State) : Host.Outcome State Fault Refusal :=
  bitfieldDone s { s with res0 := (fragMf s.slots.frag.fragw).setWidth 32 }

/-- SET_FOFF (R172). -/
def execSetFoff (s : State) : Host.Outcome State Fault Refusal :=
  bitfieldDone s (withFragw s (setFoff s.slots.frag.fragw s.arg0))

/-- SET_MF (R173). -/
def execSetMf (s : State) : Host.Outcome State Fault Refusal :=
  bitfieldDone s (withFragw s (setMf s.slots.frag.fragw s.arg0))

/-- PACK_RT (R174). -/
def execPackRt (s : State) : Host.Outcome State Fault Refusal :=
  bitfieldDone s { s with res0 := packRt s.arg0 s.arg1 }

/-- UNPACK_RT (R175). -/
def execUnpackRt (s : State) : Host.Outcome State Fault Refusal :=
  bitfieldDone s { s with
    res0 := (rtRsvd s.arg0).setWidth 32
    res1 := (rtBits s.arg0).setWidth 32 }

/-- GET_SLBITS (R176). -/
def execGetSlbits (s : State) : Host.Outcome State Fault Refusal :=
  bitfieldDone s { s with res0 := (rtBits s.slots.rt.rtw).setWidth 32 }

/-- SET_SLBITS (R177): all 24 bitmap bits. -/
def execSetSlbits (s : State) : Host.Outcome State Fault Refusal :=
  bitfieldDone s (withRtw s (setBits s.slots.rt.rtw s.arg0))

end Sys2Proof.Machine
end

