-- ==== Sys2Proof/Machine/Tlv.lean ====
section
/-! DEFINITION. The TLV option scanner (43_tlv_scanner.md). -/

namespace Sys2Proof.Machine

/-- The loop of R250 from position `pos` with the records found so far. The first argument bounds the
iterations (log 13): each advances `pos`, so `|r| + 1` of them reach the end (R251). -/
def tlvLoop (r : Bytes) : Nat → Nat → List OptRec → Except Nat (List OptRec)
  | 0, _, out => .ok out
  | fuel + 1, pos, out =>
    if pos ≥ r.length then .ok out
    else
      let t := byteAt r pos
      if t = 0 then tlvLoop r fuel (pos + 1) out
      else if pos + 1 ≥ r.length then .error pos
      else
        let l := byteAt r (pos + 1)
        if pos + 2 + l.toNat > r.length then .error pos
        else
          tlvLoop r fuel (pos + 2 + l.toNat)
            (if t = 1 then out else out ++ [⟨t, l, slice r (pos + 2) (pos + 2 + l.toNat)⟩])

/-- `TLVScan(r)` (R250): the records, or the position of the partial option (R253). -/
def tlvScan (r : Bytes) : Except Nat (List OptRec) := tlvLoop r (r.length + 1) 0 []

/-- The scan of a standalone region at IBUF offset `o` (R256). -/
def tlvScanAt (r : Bytes) (o : Nat) : Except Trap (List OptRec) :=
  match tlvScan r with
  | .ok out => .ok out
  | .error pos => .error (.malformed .tlv (o + pos))

/-- TLV_SCAN (R256). -/
def execTlvScan (s : State) : Host.Outcome State Fault Refusal :=
  complete s do
    let r ← region s s.arg0 s.arg1
    let out ← tlvScanAt r s.arg0.toNat
    return ({ s with scan := out, res0 := natRes out.length, res1 := s.arg1 }, {})

end Sys2Proof.Machine
end

