-- ==== Sys2Proof/Machine/ExtHeaders.lean ====
section
/-! DEFINITION. The extension-header decoders and encoders and their twelve commands
(42_ext_headers.md; wire layouts 30_encoding.md R112 to R119). -/

namespace Sys2Proof.Machine

/-- The MalformedHeader a decoder of kind `k` raises for the header at IBUF offset `o` (R200). -/
def badHeader (k : Kind) (o : Nat) : Trap := .malformed (.ext k) o

/-- `need(n)` (R200). -/
def need (k : Kind) (o : Nat) (b : Bytes) (n : Nat) : Except Trap Unit :=
  if n > b.length then .error (badHeader k o) else .ok ()

/-! ### Decoders -/

/-- A TLV fault inside an Options header is that header's MalformedHeader (R201). -/
def scanOptions (k : Kind) (o : Nat) (r : Bytes) : Except Trap (List OptRec) :=
  match tlvScan r with
  | .ok out => .ok out
  | .error _ => .error (badHeader k o)

/-- The Options decoder (R201), for HOP and DST. -/
def decOpts (k : Kind) (b : Bytes) (o : Nat) : Except Trap (OptSlot × Nat) := do
  need k o b 2
  let hel := byteAt b 1
  let l := (hel.toNat + 1) * 8
  need k o b l
  let opts ← scanOptions k o (slice b 2 l)
  return (⟨true, byteAt b 0, hel, slice b 2 l, opts⟩, l)

/-- The `m` addresses of a Routing header, from byte 8 on (R202). -/
def addrsOf (b : Bytes) (m : Nat) : List Bytes16 :=
  (List.range m).map (fun i => addrAt b (8 + 16 * i))

/-- The Routing decoder (R202). -/
def decRt (b : Bytes) (o : Nat) : Except Trap (RtSlot × Nat) := do
  need .rt o b 8
  let hel := byteAt b 1
  let l := hel.toNat * 8 + 8
  need .rt o b l
  let m := hel.toNat / 2
  return (⟨true, byteAt b 0, hel, byteAt b 2, byteAt b 3, rd32 b 4, addrsOf b m,
    slice b (8 + 16 * m) l⟩, l)

/-- The Fragment decoder (R203). -/
def decFrag (b : Bytes) (o : Nat) : Except Trap (FragSlot × Nat) := do
  need .frag o b 8
  return (⟨true, byteAt b 0, byteAt b 1, rd16 b 2, rd32 b 4⟩, 8)

/-- R204's refusal of payload_len = 0 (90_conflicts.md C5). -/
def needPlen (o : Nat) (plen : Byte) : Except Trap Unit :=
  if plen = 0 then .error (badHeader .ah o) else .ok ()

/-- The Authentication decoder (R204). -/
def decAh (b : Bytes) (o : Nat) : Except Trap (AhSlot × Nat) := do
  need .ah o b 2
  let plen := byteAt b 1
  needPlen o plen
  let l := (plen.toNat + 2) * 4
  need .ah o b l
  return (⟨true, byteAt b 0, plen, rd16 b 2, rd32 b 4, rd32 b 8, slice b 12 l⟩, l)

/-- The ESP decoder (R205): it takes the whole available region. -/
def decEsp (b : Bytes) (o : Nat) : Except Trap (EspSlot × Nat) := do
  need .esp o b 8
  return (⟨true, rd32 b 0, rd32 b 4, slice b 8 b.length⟩, b.length)

/-! ### Encoders (R206 to R211: every field as the slot holds it) -/

/-- `encOpts` (R206). -/
def encOpts (h : OptSlot) : Bytes := [h.nxt, h.hel] ++ h.optdata

/-- `encRt` (R207). -/
def encRt (h : RtSlot) : Bytes :=
  [h.nxt, h.hel, h.rtype, h.segleft] ++ be32 h.rtw ++ (h.addrs.map Subtype.val).flatten ++ h.resid

/-- `encFrag` (R208). -/
def encFrag (h : FragSlot) : Bytes := [h.nxt, h.rsvd] ++ be16 h.fragw ++ be32 h.ident

/-- `encAh` (R209). -/
def encAh (h : AhSlot) : Bytes :=
  [h.nxt, h.plen] ++ be16 h.rsvd ++ be32 h.spi ++ be32 h.seq ++ h.auth

/-- `encEsp` (R210). -/
def encEsp (h : EspSlot) : Bytes := be32 h.spi ++ be32 h.seq ++ h.data

/-! ### byte_length from the fields (R213) -/

def blenOpts (h : OptSlot) : Nat := (h.hel.toNat + 1) * 8
def blenRt (h : RtSlot) : Nat := h.hel.toNat * 8 + 8
def blenFrag (_ : FragSlot) : Nat := 8
def blenAh (h : AhSlot) : Nat := (h.plen.toNat + 2) * 4
def blenEsp (h : EspSlot) : Nat := 8 + h.data.length

/-! ### By kind -/

/-- Slot k's bytes when it is valid, nothing when it is not (R226 to R231, 45_packet_codec.md R300). -/
def encSlot (k : Kind) (ss : Slots) : Bytes :=
  match k with
  | .hop => if ss.hop.valid then encOpts ss.hop else []
  | .rt => if ss.rt.valid then encRt ss.rt else []
  | .frag => if ss.frag.valid then encFrag ss.frag else []
  | .ah => if ss.ah.valid then encAh ss.ah else []
  | .esp => if ss.esp.valid then encEsp ss.esp else []
  | .dst => if ss.dst.valid then encOpts ss.dst else []

/-- `blen_k(SLOT[k])` (R213), whatever the slot's valid bit. -/
def blenSlot (k : Kind) (ss : Slots) : Nat :=
  match k with
  | .hop => blenOpts ss.hop
  | .rt => blenRt ss.rt
  | .frag => blenFrag ss.frag
  | .ah => blenAh ss.ah
  | .esp => blenEsp ss.esp
  | .dst => blenOpts ss.dst

/-- Decode a header of kind k from the available region `b` at IBUF offset `o` into slot k: the new
slots, the next header (R215: none for ESP) and the bytes consumed. -/
def decInto (k : Kind) (ss : Slots) (b : Bytes) (o : Nat) :
    Except Trap (Slots × Option Byte × Nat) :=
  match k with
  | .hop => do
    let (h, l) ← decOpts .hop b o
    return ({ ss with hop := h }, some h.nxt, l)
  | .rt => do
    let (h, l) ← decRt b o
    return ({ ss with rt := h }, some h.nxt, l)
  | .frag => do
    let (h, l) ← decFrag b o
    return ({ ss with frag := h }, some h.nxt, l)
  | .ah => do
    let (h, l) ← decAh b o
    return ({ ss with ah := h }, some h.nxt, l)
  | .esp => do
    let (h, l) ← decEsp b o
    return ({ ss with esp := h }, none, l)
  | .dst => do
    let (h, l) ← decOpts .dst b o
    return ({ ss with dst := h }, some h.nxt, l)

/-! ### Commands -/

/-- The template of the six decode commands (R220 to R225). -/
def decCommand (k : Kind) (s : State) : Host.Outcome State Fault Refusal :=
  complete s do
    let b ← region s s.arg0 s.arg1
    let (ss, nx, l) ← decInto k s.slots b s.arg0.toNat
    return ({ s with slots := ss, res0 := natRes l, res1 := idRes nx }, {})

/-- The template of the six encode commands (R226 to R231). -/
def encCommand (k : Kind) (s : State) : Host.Outcome State Fault Refusal :=
  complete s do
    let e := encSlot k s.slots
    let t ← commitOut e s
    return ({ t with res0 := natRes e.length, res1 := natRes (blenSlot k s.slots) }, {})

/-- DEC_HOP (R220). -/
def execDecHop (s : State) : Host.Outcome State Fault Refusal := decCommand .hop s
/-- DEC_RT (R221). -/
def execDecRt (s : State) : Host.Outcome State Fault Refusal := decCommand .rt s
/-- DEC_FRAG (R222). -/
def execDecFrag (s : State) : Host.Outcome State Fault Refusal := decCommand .frag s
/-- DEC_AH (R223). -/
def execDecAh (s : State) : Host.Outcome State Fault Refusal := decCommand .ah s
/-- DEC_ESP (R224). -/
def execDecEsp (s : State) : Host.Outcome State Fault Refusal := decCommand .esp s
/-- DEC_DST (R225). -/
def execDecDst (s : State) : Host.Outcome State Fault Refusal := decCommand .dst s

/-- ENC_HOP (R226). -/
def execEncHop (s : State) : Host.Outcome State Fault Refusal := encCommand .hop s
/-- ENC_RT (R227). -/
def execEncRt (s : State) : Host.Outcome State Fault Refusal := encCommand .rt s
/-- ENC_FRAG (R228). -/
def execEncFrag (s : State) : Host.Outcome State Fault Refusal := encCommand .frag s
/-- ENC_AH (R229). -/
def execEncAh (s : State) : Host.Outcome State Fault Refusal := encCommand .ah s
/-- ENC_ESP (R230). -/
def execEncEsp (s : State) : Host.Outcome State Fault Refusal := encCommand .esp s
/-- ENC_DST (R231). -/
def execEncDst (s : State) : Host.Outcome State Fault Refusal := encCommand .dst s

end Sys2Proof.Machine
end

