-- ==== Sys2Proof/Machine/Chain.lean ====
section
/-! DEFINITION. The extension-header chain walker (44_chain_walker.md): one dispatch of the loop of
R271, which is the meaning of the opcode table's six NH8 rows (30_encoding.md R120), the whole walk,
and CHAIN_WALK. -/

namespace Sys2Proof.Machine

/-- A walk about to start: six empty slots, an empty chain, `cur = some(first)`, nothing consumed
(R271, R272). -/
def Walker.start (first : Byte) (b : Bytes) (o : Nat) : Walker :=
  ⟨b, o, 0, some first, Slots.reset, []⟩

/-- The kind the walker dispatches on next: `cur = some(p)` with p in EXT, else none (R271, R274). -/
def Walker.next? (w : Walker) : Option Kind := w.cur.bind kindOf

/-- One iteration of R271's loop for a header of kind k: decode it at `pos`, record it (the latest
instance wins, R273), append its id, advance, and take its next header (R215). -/
def Walker.dispatch (k : Kind) (w : Walker) : Except Trap Walker := do
  let (ss, nx, l) ← decInto k w.slots (w.buf.drop w.pos) (w.off + w.pos)
  return { w with slots := ss, chain := w.chain ++ [idOf k], pos := w.pos + l, cur := nx }

/-- R271's loop. The first argument bounds the iterations (log 13): each consumes at least 8 bytes
or ends the loop (R276). -/
def walkLoop : Nat → Walker → Except Trap Walker
  | 0, w => .ok w
  | fuel + 1, w =>
    match w.next? with
    | none => .ok w
    | some k =>
      match w.dispatch k with
      | .ok w' => walkLoop fuel w'
      | .error t => .error t

/-- `walk(first, b, o)` (R271): the walker where the loop ends. -/
def walk (first : Byte) (b : Bytes) (o : Nat) : Except Trap Walker :=
  walkLoop (b.length + 1) (Walker.start first b o)

/-- The terminal id of a finished walk: `none` when it ended at ESP (R274). -/
def Walker.terminal (w : Walker) : Option Byte := w.cur

/-- CHAIN_WALK (R278). -/
def execChainWalk (s : State) : Host.Outcome State Fault Refusal :=
  complete s do
    let b ← region s s.arg0 s.arg1
    let w ← walk (lowByte s.arg2) b s.arg0.toNat
    return ({ s with
      slots := w.slots
      chain := w.chain
      res0 := idRes w.terminal
      res1 := natRes (s.arg0.toNat + w.pos)
      res2 := natRes (s.arg1.toNat - w.pos)
      res3 := natRes w.chain.length }, {})

/-- A next-header dispatch (log 3): one iteration of the walk the walker holds. A header that does
not decode ends the walk with its MalformedHeader (R275, log 4); one that does writes no STATUS
(log 18). -/
def nhDispatch (k : Kind) (s : State) : Host.Outcome State Fault Refusal :=
  match s.walker.dispatch k with
  | .ok w => .next { s with walker := w }
  | .error t => .next (State.raise t { s with walker := Walker.idle })

/-- NH_HOP (R120, R201). -/
def execNhHop (s : State) : Host.Outcome State Fault Refusal := nhDispatch .hop s
/-- NH_RT (R120, R202). -/
def execNhRt (s : State) : Host.Outcome State Fault Refusal := nhDispatch .rt s
/-- NH_FRAG (R120, R203). -/
def execNhFrag (s : State) : Host.Outcome State Fault Refusal := nhDispatch .frag s
/-- NH_ESP (R120, R205). -/
def execNhEsp (s : State) : Host.Outcome State Fault Refusal := nhDispatch .esp s
/-- NH_AH (R120, R204). -/
def execNhAh (s : State) : Host.Outcome State Fault Refusal := nhDispatch .ah s
/-- NH_DST (R120, R201). -/
def execNhDst (s : State) : Host.Outcome State Fault Refusal := nhDispatch .dst s

end Sys2Proof.Machine
end

