-- ==== Sys2Proof/Machine/Codec.lean ====
section
/-! DEFINITION. The upper-layer codec the machine is built with (10_state.md R52, R53): the OPEN
parameter, or one of the two test codecs of 95_test_vectors.md section 0.1 (log 7). -/

namespace Sys2Proof.Machine

/-- The OPEN parameter: any codec at all. -/
def ulcExternal : Ulc :=
  ⟨Config.ulcLookup, Config.ulcDecode, Config.ulcSerialize, Config.ulcHasCsum, Config.ulcGetCsum,
    Config.ulcSetCsum⟩

/-- ULC0, the empty registry: `lookup(p) = false` for every p. 95 section 0.1 says that the other
members are never called; on an object the host has stored, `hasCsum` is false, the model's choice,
and the rest are free (log 7). -/
def ulcEmpty : Ulc where
  lookup _ := false
  decode := Config.ulcDecode
  serialize := Config.ulcSerialize
  hasCsum _ := false
  getCsum := Config.ulcGetCsum
  setCsum := Config.ulcSetCsum

/-- Where TULC's objects keep their checksum: byte 16 of TCP (tag 6), byte 6 of UDP (tag 17). -/
def tulcCsumOff (h : Obj) : Nat := if h.tag = 6 then 16 else 6

/-- The objects TULC states a checksum field's value for: TCP or UDP, and long enough to hold it. -/
def tulcHolds (h : Obj) : Bool :=
  (h.tag == 6 || h.tag == 17) && decide (tulcCsumOff h + 2 ≤ h.body.length)

/-- TULC: TCP(b) is the object of tag 6 and body b, UDP(b) of tag 17. 95 section 0.1 states no
checksum field of a body too short to hold one (only the host can store one: `decode` checks the
length), and TULC has no object of another tag: there each member is the free value of `external`
(log 7). -/
def ulcTest : Ulc where
  lookup p := p == 6 || p == 17
  decode p b :=
    if p = 6 then (if b.length ≥ 20 then some ⟨6, b⟩ else none)
    else if p = 17 then (if b.length ≥ 8 then some ⟨17, b⟩ else none)
    else none
  serialize h := if h.tag = 6 ∨ h.tag = 17 then h.body else Config.ulcSerialize h
  hasCsum h := if h.tag = 6 ∨ h.tag = 17 then true else Config.ulcHasCsum h
  getCsum h := if tulcHolds h then rd16 h.body (tulcCsumOff h) else Config.ulcGetCsum h
  setCsum h c :=
    if tulcHolds h then ⟨h.tag, putBe16 h.body (tulcCsumOff h) c⟩ else Config.ulcSetCsum h c

/-- The codec a selection names. -/
def ulcOf : UlcSel → Ulc
  | .external => ulcExternal
  | .ulc0 => ulcEmpty
  | .tulc => ulcTest

/-- The codec the machine is built with; no step changes it (R53). -/
def State.codec (s : State) : Ulc := ulcOf s.params.ulc

end Sys2Proof.Machine
end

