-- ==== Sys2Proof/Machine/Checksum.lean ====
section
/-! DEFINITION. The pseudo-header checksum combiner (46_checksum.md). -/

namespace Sys2Proof.Machine

/-- The sum of the big-endian 16-bit words, an odd last byte padded with one zero byte (R330). -/
def sumWords : Bytes → Nat
  | [] => 0
  | [a] => 2 ^ 8 * a.toNat
  | a :: b :: r => 2 ^ 8 * a.toNat + b.toNat + sumWords r

/-- `while s > 0xFFFF: s <- (s & 0xFFFF) + (s >> 16)` (R330), at most `fuel` times (log 13). -/
def foldLoop : Nat → Nat → Nat
  | 0, s => s
  | fuel + 1, s => if s > 0xFFFF then foldLoop fuel (s % 2 ^ 16 + s / 2 ^ 16) else s

/-- The folded sum (R338): each round makes a sum above 0xFFFF smaller, so `s` rounds are enough. -/
def fold (s : Nat) : Nat := foldLoop s s

/-- `ocsum(x)` (R330). -/
def ocsum (x : Bytes) : Nat := fold (sumWords x)

/-- `cksum(x)` (R331): the complement of the folded sum. -/
def cksum (x : Bytes) : Half := ~~~(BitVec.ofNat 16 (ocsum x))

/-- `pseudo(SRC, DST, p, n)` (R332), 36 bytes. -/
def pseudo (src dst : Bytes16) (p : Byte) (n : Nat) : Bytes :=
  src.val ++ dst.val ++ [0x00, p] ++ be16 (BitVec.ofNat 16 n)

/-- R335: a length the pseudo-header's 16 bits cannot hold. -/
def needLen (n : Nat) : Except Trap Unit :=
  if n > 0xFFFF then .error .csumLengthRange else .ok ()

/-- The ids whose checksum the encode fixes up: TCP, UDP, ICMPv6 (R333, 30_encoding.md R124). -/
def csumId (p : Byte) : Bool := p == 6 || p == 17 || p == 58

/-- What the fix-up gives back (R334): the payload, the checksum written, CSUM_WRITTEN and
CSUM_SKIPPED. -/
structure FixupResult where
  payload : Payload
  csum : Option Half
  written : Bool
  skipped : Bool
  deriving DecidableEq, Repr

/-- The fix-up's last step (R334, from `q <- ULC.serialize(h)` on). -/
def fixupWrite (u : Ulc) (p : Byte) (h : Obj) (src dst : Bytes16) : Except Trap FixupResult := do
  let q := u.serialize h
  needLen q.length
  let c := cksum (pseudo src dst p q.length ++ q)
  return ⟨.obj (u.setCsum h c), some c, true, false⟩

/-- `fixup(ULP, PAYLOAD, SRC, DST)` (R334): conditions 1 to 3 of R333 in order. -/
def fixup (u : Ulc) (ulp : Option Byte) (pl : Payload) (src dst : Bytes16) :
    Except Trap FixupResult :=
  match ulp with
  | none => .ok ⟨pl, none, false, false⟩
  | some p =>
    if csumId p then
      match pl with
      | .raw _ => .ok ⟨pl, none, false, true⟩
      | .obj h =>
        if u.hasCsum h then
          if u.getCsum h ≠ 0 then .ok ⟨pl, none, false, false⟩
          else fixupWrite u p h src dst
        else .ok ⟨pl, none, false, true⟩
    else .ok ⟨pl, none, false, false⟩

/-- The fix-up on the packet context (R340, 45_packet_codec.md R300). -/
def stateFixup (s : State) : Except Trap FixupResult :=
  fixup s.codec s.ulp s.payload s.fix.src s.fix.dst

/-- The STATUS flags of a fix-up (R334). -/
def fixupFlags (r : FixupResult) : DoneFlags :=
  { csumWritten := r.written, csumSkipped := r.skipped }

/-- CSUM_FIXUP (R340). -/
def execCsumFixup (s : State) : Host.Outcome State Fault Refusal :=
  complete s do
    let r ← stateFixup s
    return ({ s with payload := r.payload, res0 := csumRes r.csum }, fixupFlags r)

/-- CSUM_COMPUTE (R341): the region is checked before the length (60_exceptions.md R409). -/
def execCsumCompute (s : State) : Host.Outcome State Fault Refusal :=
  complete s do
    let q ← region s s.arg1 s.arg2
    needLen s.arg2.toNat
    let c := cksum (pseudo s.fix.src s.fix.dst (lowByte s.arg0) s.arg2.toNat ++ q)
    return ({ s with res0 := c.setWidth 32 }, {})

/-- CSUM_PSEUDO (R342): the folded sum, not complemented. -/
def execCsumPseudo (s : State) : Host.Outcome State Fault Refusal :=
  complete s do
    needLen s.arg1.toNat
    return ({ s with
      res0 := natRes (ocsum (pseudo s.fix.src s.fix.dst (lowByte s.arg0) s.arg1.toNat)) }, {})

end Sys2Proof.Machine
end

