-- ==== Sys2Proof/Machine/Packet.lean ====
section
/-! DEFINITION. The IPv6 packet codec (45_packet_codec.md). -/

namespace Sys2Proof.Machine

/-! ### Fixed header -/

/-- `if cond then raise MalformedHeader(FKIND = 1, FAULT_OFF = o)` (R290). -/
def needFixed (o : Nat) (bad : Prop) [Decidable bad] : Except Trap Unit :=
  if bad then .error (.malformed .fixed o) else .ok ()

/-- The fields of the 40-byte fixed header (30_encoding.md R110). -/
def readFixed (b : Bytes) : FixedHdr :=
  ⟨rd32 b 0, rd16 b 4, byteAt b 6, byteAt b 7, addrAt b 8, addrAt b 24⟩

/-- The fixed-header decoder (R290). -/
def decFixed (b : Bytes) (o : Nat) : Except Trap FixedHdr := do
  needFixed o (b.length < 40)
  let f := readFixed b
  needFixed o (f.plen ≠ 0 ∧ 40 + f.plen.toNat > b.length)
  return f

/-- The working payload region (R292); PLEN = 0 means all remaining bytes. -/
def workRegion (b : Bytes) (f : FixedHdr) : Bytes :=
  if f.plen ≠ 0 then slice b 40 (40 + f.plen.toNat) else b.drop 40

/-- FIX_DEC (R293). -/
def execFixDec (s : State) : Host.Outcome State Fault Refusal :=
  complete s do
    let b ← region s s.arg0 s.arg1
    let f ← decFixed b s.arg0.toNat
    return ({ s with
      fix := f
      res0 := natRes (s.arg0.toNat + 40)
      res1 := natRes (workRegion b f).length }, {})

/-- The fixed-header encoder (R294): every field as the state holds it. -/
def encFixed (f : FixedHdr) : Bytes :=
  be32 f.w0 ++ be16 f.plen ++ [f.nxt, f.hlim] ++ f.src.val ++ f.dst.val

/-- FIX_ENC (R295). -/
def execFixEnc (s : State) : Host.Outcome State Fault Refusal :=
  complete s do
    let t ← commitOut (encFixed s.fix) s
    return ({ t with res0 := 40 }, {})

/-! ### Packet decode -/

/-- `upper(term, rem)` (R297): the payload and the reason it is raw (0 when it is not). -/
def upper (u : Ulc) (term : Option Byte) (rem : Bytes) : Payload × BitVec 2 :=
  match term with
  | none => (.raw rem, 3)
  | some p =>
    if u.lookup p then
      match u.decode p rem with
      | some h => (.obj h, 0)
      | none => (.raw rem, 2)
    else (.raw rem, 1)

/-- What the packet decoder gives back (R296). -/
structure PktResult where
  fix : FixedHdr
  slots : Slots
  chain : List Byte
  term : Option Byte
  payload : Payload
  why : BitVec 2
  remOff : Nat
  remLen : Nat
  deriving DecidableEq, Repr

/-- `pktDecode(b, o)` (R296). -/
def pktDecode (u : Ulc) (b : Bytes) (o : Nat) : Except Trap PktResult := do
  let f ← decFixed b o
  let w := workRegion b f
  let k ← walk f.nxt w (o + 40)
  let rem := w.drop k.pos
  let (pl, why) := upper u k.terminal rem
  return ⟨f, k.slots, k.chain, k.terminal, pl, why, o + 40 + k.pos, rem.length⟩

/-- PKT_DEC (R299). -/
def execPktDec (s : State) : Host.Outcome State Fault Refusal :=
  complete s do
    let b ← region s s.arg0 s.arg1
    let r ← pktDecode s.codec b s.arg0.toNat
    return ({ s with
      fix := r.fix
      slots := r.slots
      chain := r.chain
      ulp := r.term
      payload := r.payload
      res0 := idRes r.term
      res1 := natRes r.remOff
      res2 := natRes r.remLen
      res3 := natRes r.chain.length },
      { ulpRaw := r.why != 0, rawWhy := r.why })

/-! ### Packet encode -/

/-- `bytesOf` (R302). -/
def payloadBytes (u : Ulc) : Payload → Bytes
  | .raw b => b
  | .obj h => u.serialize h

/-- The valid slots' bytes in canonical order, k = 0 to 5 (R300, R301). -/
def encSlots (ss : Slots) : Bytes :=
  encSlot .hop ss ++ encSlot .rt ss ++ encSlot .frag ss ++ encSlot .ah ss ++ encSlot .esp ss ++
    encSlot .dst ss

/-- The output of the packet encoder for the payload the fix-up left (R300, steps 2 to 4). -/
def pktBytes (s : State) (pl : Payload) : Bytes :=
  encFixed s.fix ++ encSlots s.slots ++ payloadBytes s.codec pl

/-- PKT_ENC (R300, R303): the fix-up first, the output size checked last (60_exceptions.md R409). -/
def execPktEnc (s : State) : Host.Outcome State Fault Refusal :=
  complete s do
    let r ← stateFixup s
    let e := pktBytes s r.payload
    let t ← commitOut e s
    return ({ t with payload := r.payload, res0 := natRes e.length, res1 := csumRes r.csum },
      fixupFlags r)

end Sys2Proof.Machine
end

