-- ==== Sys2Proof/Machine/System.lean ====
section
/-! DEFINITION. The system commands (47_system.md). -/

namespace Sys2Proof.Machine

/-- The packet context and SCAN at their reset values (R361, 10_state.md R58); ARG, RES, OLEN, IBUF,
OBUF and STICKY_FAULT untouched. -/
def clearContext (s : State) : State :=
  { s with
    fix := FixedHdr.reset
    slots := Slots.reset
    ulp := none
    chain := []
    payload := .raw []
    scan := [] }

/-- NOP (R360): only the completion write. -/
def execNop (s : State) : Host.Outcome State Fault Refusal := complete s (.ok (s, {}))

/-- CLEAR (R361). -/
def execClear (s : State) : Host.Outcome State Fault Refusal :=
  complete s (.ok (clearContext s, {}))

end Sys2Proof.Machine
end

