-- ==== Sys2Proof/Machine/Dispatch.lean ====
section
/-! DEFINITION. The dispatch: one arm per row of the opcode table. -/

namespace Sys2Proof.Machine

def exec (i : Instr) (s : State) : Host.Outcome State Fault Refusal :=
  match i with
  | .nop => Sys2Proof.Machine.execNop s
  | .clear => Sys2Proof.Machine.execClear s
  | .packW0 => Sys2Proof.Machine.execPackW0 s
  | .unpackW0 => Sys2Proof.Machine.execUnpackW0 s
  | .getVer => Sys2Proof.Machine.execGetVer s
  | .getTc => Sys2Proof.Machine.execGetTc s
  | .getFlow => Sys2Proof.Machine.execGetFlow s
  | .setVer => Sys2Proof.Machine.execSetVer s
  | .setTc => Sys2Proof.Machine.execSetTc s
  | .setFlow => Sys2Proof.Machine.execSetFlow s
  | .packFrag => Sys2Proof.Machine.execPackFrag s
  | .unpackFrag => Sys2Proof.Machine.execUnpackFrag s
  | .getFoff => Sys2Proof.Machine.execGetFoff s
  | .getMf => Sys2Proof.Machine.execGetMf s
  | .setFoff => Sys2Proof.Machine.execSetFoff s
  | .setMf => Sys2Proof.Machine.execSetMf s
  | .packRt => Sys2Proof.Machine.execPackRt s
  | .unpackRt => Sys2Proof.Machine.execUnpackRt s
  | .getSlbits => Sys2Proof.Machine.execGetSlbits s
  | .setSlbits => Sys2Proof.Machine.execSetSlbits s
  | .decHop => Sys2Proof.Machine.execDecHop s
  | .decRt => Sys2Proof.Machine.execDecRt s
  | .decFrag => Sys2Proof.Machine.execDecFrag s
  | .decAh => Sys2Proof.Machine.execDecAh s
  | .decEsp => Sys2Proof.Machine.execDecEsp s
  | .decDst => Sys2Proof.Machine.execDecDst s
  | .encHop => Sys2Proof.Machine.execEncHop s
  | .encRt => Sys2Proof.Machine.execEncRt s
  | .encFrag => Sys2Proof.Machine.execEncFrag s
  | .encAh => Sys2Proof.Machine.execEncAh s
  | .encEsp => Sys2Proof.Machine.execEncEsp s
  | .encDst => Sys2Proof.Machine.execEncDst s
  | .tlvScan => Sys2Proof.Machine.execTlvScan s
  | .chainWalk => Sys2Proof.Machine.execChainWalk s
  | .fixDec => Sys2Proof.Machine.execFixDec s
  | .fixEnc => Sys2Proof.Machine.execFixEnc s
  | .pktDec => Sys2Proof.Machine.execPktDec s
  | .pktEnc => Sys2Proof.Machine.execPktEnc s
  | .csumPseudo => Sys2Proof.Machine.execCsumPseudo s
  | .csumCompute => Sys2Proof.Machine.execCsumCompute s
  | .csumFixup => Sys2Proof.Machine.execCsumFixup s
  | .nhHop => Sys2Proof.Machine.execNhHop s
  | .nhRt => Sys2Proof.Machine.execNhRt s
  | .nhFrag => Sys2Proof.Machine.execNhFrag s
  | .nhEsp => Sys2Proof.Machine.execNhEsp s
  | .nhAh => Sys2Proof.Machine.execNhAh s
  | .nhDst => Sys2Proof.Machine.execNhDst s

end Sys2Proof.Machine
end

