-- ==== Sys2Proof/Machine/Host.lean ====
section
/-! DEFINITION. The host interface: the register map (10_state.md R54), the access rules (R55), reset
as an event (70_reset_and_hazards.md R450), what a run's end shows (R461), and the pseudo-instructions
of the host script (30_encoding.md R107, R108). -/

namespace Sys2Proof.Machine

/-! ### Registers -/

/-- ULP as a register: bit 8 says `some`, bits 7 to 0 the id (R54). -/
def ulpWord : Option Byte → Word
  | some p => BitVec.ofNat 32 (2 ^ 8 + p.toNat)
  | none => 0

/-- ULP from the word written (R54). -/
def ulpOfWord (v : Word) : Option Byte := if v.getLsbD 8 then some (lowByte v) else none

/-- A valid bit as a register (R54). -/
def bitWord (b : Bool) : Word := if b then 1 else 0

/-- Word i of an address, big-endian (R54, 20_memory.md R75). -/
def addrWord (a : Bytes16) (i : Nat) : Word := rd32 a.val (4 * i)

/-- An address with word i replaced. -/
def setAddrWord (a : Bytes16) (i : Nat) (v : Word) : Bytes16 :=
  bytes16 (fun j => if 4 * i ≤ j ∧ j < 4 * i + 4 then byteAt (be32 v) (j - 4 * i) else byteAt a.val j)

/-- A host read of the 32-bit register at a byte address (R54): CMD reads 0 (R32), bits outside a
field read 0 (R55), and so does an address the map does not list. -/
def hostRead (s : State) (addr : Nat) : Word :=
  match addr with
  | 0x004 => s.status
  | 0x008 => s.faultOff
  | 0x00C => s.olen
  | 0x010 => s.arg0
  | 0x014 => s.arg1
  | 0x018 => s.arg2
  | 0x01C => s.arg3
  | 0x020 => s.res0
  | 0x024 => s.res1
  | 0x028 => s.res2
  | 0x02C => s.res3
  | 0x040 => s.fix.w0
  | 0x044 => s.fix.plen.setWidth 32
  | 0x048 => s.fix.nxt.setWidth 32
  | 0x04C => s.fix.hlim.setWidth 32
  | 0x050 => ulpWord s.ulp
  | 0x060 => addrWord s.fix.src 0
  | 0x064 => addrWord s.fix.src 1
  | 0x068 => addrWord s.fix.src 2
  | 0x06C => addrWord s.fix.src 3
  | 0x070 => addrWord s.fix.dst 0
  | 0x074 => addrWord s.fix.dst 1
  | 0x078 => addrWord s.fix.dst 2
  | 0x07C => addrWord s.fix.dst 3
  | 0x100 => bitWord s.slots.hop.valid
  | 0x104 => s.slots.hop.nxt.setWidth 32
  | 0x108 => s.slots.hop.hel.setWidth 32
  | 0x140 => bitWord s.slots.rt.valid
  | 0x144 => s.slots.rt.nxt.setWidth 32
  | 0x148 => s.slots.rt.hel.setWidth 32
  | 0x14C => s.slots.rt.rtype.setWidth 32
  | 0x150 => s.slots.rt.segleft.setWidth 32
  | 0x154 => s.slots.rt.rtw
  | 0x180 => bitWord s.slots.frag.valid
  | 0x184 => s.slots.frag.nxt.setWidth 32
  | 0x188 => s.slots.frag.rsvd.setWidth 32
  | 0x18C => s.slots.frag.fragw.setWidth 32
  | 0x190 => s.slots.frag.ident
  | 0x1C0 => bitWord s.slots.ah.valid
  | 0x1C4 => s.slots.ah.nxt.setWidth 32
  | 0x1C8 => s.slots.ah.plen.setWidth 32
  | 0x1CC => s.slots.ah.rsvd.setWidth 32
  | 0x1D0 => s.slots.ah.spi
  | 0x1D4 => s.slots.ah.seq
  | 0x200 => bitWord s.slots.esp.valid
  | 0x210 => s.slots.esp.spi
  | 0x214 => s.slots.esp.seq
  | 0x240 => bitWord s.slots.dst.valid
  | 0x244 => s.slots.dst.nxt.setWidth 32
  | 0x248 => s.slots.dst.hel.setWidth 32
  | _ => 0

/-- A slot written by the host. -/
def withHop (s : State) (h : OptSlot) : State := { s with slots := { s.slots with hop := h } }
def withRt (s : State) (h : RtSlot) : State := { s with slots := { s.slots with rt := h } }
def withFrag (s : State) (h : FragSlot) : State := { s with slots := { s.slots with frag := h } }
def withAh (s : State) (h : AhSlot) : State := { s with slots := { s.slots with ah := h } }
def withEsp (s : State) (h : EspSlot) : State := { s with slots := { s.slots with esp := h } }
def withDst (s : State) (h : OptSlot) : State := { s with slots := { s.slots with dst := h } }
def withFix (s : State) (f : FixedHdr) : State := { s with fix := f }

/-- A host write of the 32-bit register at a byte address (R54, R55): the value is masked to the
field; a write of CMD leaves a command pending (R32, log 2); read-only registers and addresses the
map does not list ignore it. -/
def hostWrite (s : State) (addr : Nat) (v : Word) : State :=
  match addr with
  | 0x000 => { s with cmd := some v }
  | 0x00C => { s with olen := v }
  | 0x010 => { s with arg0 := v }
  | 0x014 => { s with arg1 := v }
  | 0x018 => { s with arg2 := v }
  | 0x01C => { s with arg3 := v }
  | 0x040 => withFix s { s.fix with w0 := v }
  | 0x044 => withFix s { s.fix with plen := lowHalf v }
  | 0x048 => withFix s { s.fix with nxt := lowByte v }
  | 0x04C => withFix s { s.fix with hlim := lowByte v }
  | 0x050 => { s with ulp := ulpOfWord v }
  | 0x060 => withFix s { s.fix with src := setAddrWord s.fix.src 0 v }
  | 0x064 => withFix s { s.fix with src := setAddrWord s.fix.src 1 v }
  | 0x068 => withFix s { s.fix with src := setAddrWord s.fix.src 2 v }
  | 0x06C => withFix s { s.fix with src := setAddrWord s.fix.src 3 v }
  | 0x070 => withFix s { s.fix with dst := setAddrWord s.fix.dst 0 v }
  | 0x074 => withFix s { s.fix with dst := setAddrWord s.fix.dst 1 v }
  | 0x078 => withFix s { s.fix with dst := setAddrWord s.fix.dst 2 v }
  | 0x07C => withFix s { s.fix with dst := setAddrWord s.fix.dst 3 v }
  | 0x100 => withHop s { s.slots.hop with valid := v.getLsbD 0 }
  | 0x104 => withHop s { s.slots.hop with nxt := lowByte v }
  | 0x108 => withHop s { s.slots.hop with hel := lowByte v }
  | 0x140 => withRt s { s.slots.rt with valid := v.getLsbD 0 }
  | 0x144 => withRt s { s.slots.rt with nxt := lowByte v }
  | 0x148 => withRt s { s.slots.rt with hel := lowByte v }
  | 0x14C => withRt s { s.slots.rt with rtype := lowByte v }
  | 0x150 => withRt s { s.slots.rt with segleft := lowByte v }
  | 0x154 => withRt s { s.slots.rt with rtw := v }
  | 0x180 => withFrag s { s.slots.frag with valid := v.getLsbD 0 }
  | 0x184 => withFrag s { s.slots.frag with nxt := lowByte v }
  | 0x188 => withFrag s { s.slots.frag with rsvd := lowByte v }
  | 0x18C => withFrag s { s.slots.frag with fragw := lowHalf v }
  | 0x190 => withFrag s { s.slots.frag with ident := v }
  | 0x1C0 => withAh s { s.slots.ah with valid := v.getLsbD 0 }
  | 0x1C4 => withAh s { s.slots.ah with nxt := lowByte v }
  | 0x1C8 => withAh s { s.slots.ah with plen := lowByte v }
  | 0x1CC => withAh s { s.slots.ah with rsvd := lowHalf v }
  | 0x1D0 => withAh s { s.slots.ah with spi := v }
  | 0x1D4 => withAh s { s.slots.ah with seq := v }
  | 0x200 => withEsp s { s.slots.esp with valid := v.getLsbD 0 }
  | 0x210 => withEsp s { s.slots.esp with spi := v }
  | 0x214 => withEsp s { s.slots.esp with seq := v }
  | 0x240 => withDst s { s.slots.dst with valid := v.getLsbD 0 }
  | 0x244 => withDst s { s.slots.dst with nxt := lowByte v }
  | 0x248 => withDst s { s.slots.dst with hel := lowByte v }
  | _ => s

/-! ### Whole values, IBUF and reset -/

/-- The machine after a reset event (70_reset_and_hazards.md R450 to R452): every register, field,
slot and list at its reset value, IBUF and OBUF unspecified anew (the counter `resets` advances,
log 9), the parameters and the host's remaining actions as they were. -/
def resetEvent (s : State) : State :=
  { State.reset with host := s.host, params := s.params, resets := s.resets + 1 }

/-- A host write of IBUF bytes (20_memory.md R71); bytes past IBUF_SIZE do not exist (R70, log 10). -/
def hostIbuf (s : State) (off : Nat) (b : Bytes) : Host.Outcome State Fault Refusal :=
  if off + b.length > s.params.ibufSize then .fault (.hostOutsideIbuf off b.length)
  else .next { s with ibuf := Memory.writeBytes s.ibuf off b }

/-- What a host read of a piece of state gives (R54, R55). That the host may read IBUF bytes, although
20_memory.md R71 has IBUF "read only by the block", is the model's choice between the two (log 20). -/
def hostView (s : State) (l : HostLoc) : HostVal :=
  match l with
  | .reg addr => .word (hostRead s addr)
  | .ibuf off len => .bytes (s.ibufBytes off len)
  | .obuf off len => .bytes (s.obufBytes off len)
  | .hopOptdata => .bytes s.slots.hop.optdata
  | .hopOpts => .recs s.slots.hop.opts
  | .dstOptdata => .bytes s.slots.dst.optdata
  | .dstOpts => .recs s.slots.dst.opts
  | .rtAddrs => .addrs s.slots.rt.addrs
  | .rtResid => .bytes s.slots.rt.resid
  | .ahAuth => .bytes s.slots.ah.auth
  | .espData => .bytes s.slots.esp.data
  | .chain => .ids s.chain
  | .scan => .recs s.scan
  | .payload => .payload s.payload

/-- Why a host read cannot be made: buffer bytes that do not exist (20_memory.md R70, log 10). -/
def hostReadFault (s : State) (l : HostLoc) : Option Fault :=
  match l with
  | .ibuf off len => if off + len > s.params.ibufSize then some (.hostOutsideIbuf off len) else none
  | .obuf off len => if off + len > s.params.obufSize then some (.hostOutsideObuf off len) else none
  | .reg _ | .hopOptdata | .hopOpts | .dstOptdata | .dstOpts | .rtAddrs | .rtResid | .ahAuth | .espData
  | .chain | .scan | .payload => none

/-- A host read: the host sees `hostView s l`, and the block stays as it is (log 11). -/
def hostLook (s : State) (l : HostLoc) : Host.Outcome State Fault Refusal :=
  match hostReadFault s l with
  | some e => .fault e
  | none => .next s

/-- One action of the host (R55). List-valued state is replaced whole, at any length. -/
def hostAct (s : State) (a : HostAct) : Host.Outcome State Fault Refusal :=
  match a with
  | .write addr v => .next (hostWrite s addr v)
  | .read l => hostLook s l
  | .ibuf off b => hostIbuf s off b
  | .hopOptdata b => .next (withHop s { s.slots.hop with optdata := b })
  | .hopOpts rs => .next (withHop s { s.slots.hop with opts := rs })
  | .dstOptdata b => .next (withDst s { s.slots.dst with optdata := b })
  | .dstOpts rs => .next (withDst s { s.slots.dst with opts := rs })
  | .rtAddrs as => .next (withRt s { s.slots.rt with addrs := as })
  | .rtResid b => .next (withRt s { s.slots.rt with resid := b })
  | .ahAuth b => .next (withAh s { s.slots.ah with auth := b })
  | .espData b => .next (withEsp s { s.slots.esp with data := b })
  | .payload p => .next { s with payload := p }
  | .reset => .next (resetEvent s)

/-- The host's turn: its next action, or nothing (60_exceptions.md R419: only a host action starts
work; log 16). -/
def hostTurn (s : State) : Host.Outcome State Fault Refusal :=
  match s.host with
  | [] => .next s
  | a :: rest => hostAct { s with host := rest } a

/-! ### The end of a run (70_reset_and_hazards.md R461) -/

/-- The host's sequence has ended, with no command pending and no walk under way. -/
def atRest (s : State) : Bool := s.host.isEmpty && (fetch s).isNone

/-- OBUF[0 .. OLEN), the output part of the observation (R461). Where the host has set OLEN above
OBUF_SIZE the spec is silent: the model shows OLEN bytes, free values at the addresses that do not
exist (the model's choice, log 19). -/
def observedOut (s : State) : Bytes := s.obufBytes 0 s.olen.toNat

/-! ### Host-script lines (30_encoding.md R107, R108) -/

/-- `<MNEMONIC>`: the host writes CMD with the instruction's word; a next-header row is no command
and has no line. -/
def scriptCmd (i : Instr) : List HostAct :=
  match encode i with
  | .cmd w => [.write 0x000 w]
  | .nh _ => []

/-- `<MNEMONIC> x0, x1, x2, x3`, one to four operands: the ARG writes in order, then the command.
Only as many operands as given, at most four. -/
def scriptOp (i : Instr) (xs : List Word) : List HostAct :=
  (List.zip [0x010, 0x014, 0x018, 0x01C] xs).map (fun p => .write p.1 p.2) ++ scriptCmd i

/-- `SET_W0 v, c, f`. -/
def scriptSetW0 (v c f : Word) : List HostAct :=
  scriptOp .setVer [v] ++ scriptOp .setTc [c] ++ scriptOp .setFlow [f]

/-- `OCLEAR`. -/
def scriptOclear : List HostAct := [.write 0x00C 0]

/-- `ENCODE`. -/
def scriptEncode : List HostAct := scriptOclear ++ scriptCmd .pktEnc

end Sys2Proof.Machine
end

