-- ==== Sys2Proof/Machine/Step.lean ====
section
/-! DEFINITION. One step of the machine: the command pending, else the walk's next dispatch, else the
host's next action (20_memory.md R78, R82; 70_reset_and_hazards.md R457). -/

namespace Sys2Proof.Machine

/-- One step. What `fetch` finds is decoded and executed; a word with no instruction is
IllegalCommand (30_encoding.md R101); with nothing to fetch it is the host's turn. -/
def step (s : State) : Host.Outcome State Fault Refusal :=
  match fetch s with
  | none => hostTurn s
  | some f =>
    match decode f with
    | .ok i => exec i (afterFetch s)
    | .error _ => illegalCommand (afterFetch s)

/-- The state with a table row's word placed where the step fetches next (log 15). -/
def State.withFetchWord (s : State) (nbits w : Nat) : State :=
  match tableWord nbits w with
  | some f => placeFetched s f
  | none => s

end Sys2Proof.Machine
end

