-- ==== Sys2Proof/Machine/Instances.lean ====
section
/-! DEFINITION. Several instances (10_state.md R31, 60_exceptions.md R417, log 12): a system is a list
of NUM_INSTANCES states; each step is one step of one of them. Instances share only the codec, which
no step writes; the unspecified bytes of their buffers are free values apart (`params.unit`). -/

namespace Sys2Proof.Machine

/-- A system of block instances. -/
abbrev System := List State

/-- One step of instance `j`; `none` when there is no such instance or it stops. -/
def systemStep (sys : System) (j : Nat) : Option System :=
  match sys[j]? with
  | none => none
  | some s =>
    match step s with
    | .next t => some (sys.set j t)
    | .fault _ => none
    | .refused _ => none

/-- The instances share one codec and so name the same one (R31, R53). -/
def sharedCodec (sys : System) : Prop :=
  ∀ s ∈ sys, ∀ t ∈ sys, s.params.ulc = t.params.ulc

/-- The blocks' free buffer bytes are apart from each other: no two have the same `unit`. -/
def unitsApart (sys : System) : Prop := (sys.map (fun s => s.params.unit)).Nodup

end Sys2Proof.Machine
end

