-- ==== Sys2Proof/Safety.lean ====
section
/-! DEFINITION. What counts as a safe state and a safe run, and the words claims use for STATUS. -/

namespace Sys2Proof.Machine

/-- The invariant of the machine: what holds at reset and no step breaks. -/
structure Inv (s : State) : Prop where
  /-- both memories keep their canonical form -/
  ibufWf : Memory.wf s.ibuf = true
  obufWf : Memory.wf s.obuf = true
  /-- and hold only addresses that exist (20_memory.md R70) -/
  ibufBelow : Memory.below s.params.ibufSize s.ibuf = true
  obufBelow : Memory.below s.params.obufSize s.obuf = true
  /-- the buffer sizes are legal (00_scope.md R7, 20_memory.md R70) -/
  ibufSize : 40 ≤ s.params.ibufSize ∧ s.params.ibufSize < 2 ^ 32
  obufSize : 40 ≤ s.params.obufSize ∧ s.params.obufSize < 2 ^ 32
  /-- STATUS[30:13] reads 0 (10_state.md R35) -/
  reserved : statusReserved s.status = 0
  /-- CAUSE and FKIND codes that are never written do not occur (R35) -/
  cause : (statusCause s.status).toNat ≤ 5
  fkind : (statusFkind s.status).toNat ≤ 8
  /-- FKIND is non-zero exactly when CAUSE = 1 (R35) -/
  fkindCause : statusFkind s.status ≠ 0 ↔ statusCause s.status = 1
  /-- a faulting command sets no other flag (R56) and the sticky one (R35) -/
  faultFlags : statusCause s.status ≠ 0 →
    statusUlpRaw s.status = false ∧ statusRawWhy s.status = 0 ∧
      statusCsumWritten s.status = false ∧ statusCsumSkipped s.status = false ∧
      statusSticky s.status = true
  /-- RAW_WHY is 0 exactly when ULP_RAW is (R35) -/
  rawWhy : statusUlpRaw s.status = true ↔ statusRawWhy s.status ≠ 0
  /-- FAULT_OFF is 0 unless CAUSE = 1 (R36) -/
  faultOff : statusCause s.status ≠ 1 → s.faultOff = 0
  /-- the scanner's records carry their own length and are no pads (R50, 43_tlv_scanner.md R254) -/
  scan : ∀ r ∈ s.scan, r.value.length = r.len.toNat ∧ 2 ≤ r.typ.toNat
  /-- CHAIN holds recognized ids only (10_state.md R47) -/
  chain : ∀ p ∈ s.chain, p ∈ extIds

/-- No command has faulted since reset (60_exceptions.md R421). -/
def noFault (s : State) : Prop := statusSticky s.status = false

/-- STATUS of a command that completed with CAUSE = 0 and the given flag bits, STICKY_FAULT kept
(10_state.md R35). -/
def okStatus (s : State) (flags : Nat) : Word :=
  BitVec.ofNat 32 ((if statusSticky s.status then 2 ^ 31 else 0) + flags)

/-- STATUS of a command that faulted (60_exceptions.md R404): STICKY_FAULT, FKIND, CAUSE. -/
def faultStatus (fkind cause : Nat) : Word := BitVec.ofNat 32 (2 ^ 31 + 2 ^ 4 * fkind + cause)

/-- The state a command leaves when it completes with CAUSE = 0 and the given flag bits: `t` is the
old state with the command's own writes. -/
def completed (s t : State) (flags : Nat) : State :=
  { t with status := okStatus s flags, faultOff := 0 }

/-- The state a command leaves when it faults (60_exceptions.md R404): the old state with STATUS and
FAULT_OFF written and nothing else. -/
def faulted (s : State) (fkind cause off : Nat) : State :=
  { s with status := faultStatus fkind cause, faultOff := BitVec.ofNat 32 off }

/-- The rows of the opcode table that are commands (30_encoding.md R102); the others are next-header
dispatch rows (R120). -/
def isCommand (i : Instr) : Bool :=
  match encode i with
  | .cmd _ => true
  | .nh _ => false

/-- The region an instruction names, offset and length (R102): the decode commands and CSUM_COMPUTE
name one (20_memory.md R71); no other instruction does. -/
def regionOf (i : Instr) (s : State) : Option (Word × Word) :=
  match i with
  | .decHop | .decRt | .decFrag | .decAh | .decEsp | .decDst | .tlvScan | .chainWalk | .fixDec
  | .pktDec => some (s.arg0, s.arg1)
  | .csumCompute => some (s.arg1, s.arg2)
  | .nop | .clear | .packW0 | .unpackW0 | .getVer | .getTc | .getFlow | .setVer | .setTc | .setFlow
  | .packFrag | .unpackFrag | .getFoff | .getMf | .setFoff | .setMf | .packRt | .unpackRt
  | .getSlbits | .setSlbits | .encHop | .encRt | .encFrag | .encAh | .encEsp | .encDst | .fixEnc
  | .pktEnc | .csumPseudo | .csumFixup | .nhHop | .nhRt | .nhFrag | .nhEsp | .nhAh | .nhDst => none

/-- The commands that write OBUF (20_memory.md R72). -/
def writesObuf (i : Instr) : Bool :=
  [Instr.encHop, .encRt, .encFrag, .encAh, .encEsp, .encDst, .fixEnc, .pktEnc].contains i

/-- The state after `e` is appended at OLEN (20_memory.md R76), where it fits. -/
def appended (s : State) (e : Bytes) : State :=
  { s with
    obuf := Memory.writeBytes s.obuf s.olen.toNat e
    olen := BitVec.ofNat 32 (s.olen.toNat + e.length) }

/-- The big-endian 16-bit word of IBUF at an address (00_scope.md R11), as a number. -/
def ibufWord16 (s : State) (a : Nat) : Half :=
  BitVec.ofNat 16 (2 ^ 8 * (s.ibufByte a).toNat + (s.ibufByte (a + 1)).toNat)

/-- The big-endian 32-bit word of IBUF at an address (R11), as a number. -/
def ibufWord32 (s : State) (a : Nat) : Word :=
  BitVec.ofNat 32 (2 ^ 24 * (s.ibufByte a).toNat + 2 ^ 16 * (s.ibufByte (a + 1)).toNat +
    2 ^ 8 * (s.ibufByte (a + 2)).toNat + (s.ibufByte (a + 3)).toNat)

/-- BE16 and BE32 (00_scope.md R11), as numbers: the bytes of a field, most significant first. -/
def beHalf (w : Half) : Bytes := [BitVec.ofNat 8 (w.toNat / 2 ^ 8), BitVec.ofNat 8 w.toNat]
def beWord (w : Word) : Bytes :=
  [BitVec.ofNat 8 (w.toNat / 2 ^ 24), BitVec.ofNat 8 (w.toNat / 2 ^ 16),
    BitVec.ofNat 8 (w.toNat / 2 ^ 8), BitVec.ofNat 8 w.toNat]

/-- Word i of a 16-byte value, big-endian, as a number. -/
def wordOf16 (a : Bytes16) (i : Nat) : Word :=
  BitVec.ofNat 32 (2 ^ 24 * (a.val.getD (4 * i) 0).toNat + 2 ^ 16 * (a.val.getD (4 * i + 1) 0).toNat +
    2 ^ 8 * (a.val.getD (4 * i + 2) 0).toNat + (a.val.getD (4 * i + 3) 0).toNat)

/-- The 16 bytes of IBUF from an address on. -/
def ibufAddr (s : State) (a : Nat) : Bytes16 := bytes16 (fun j => s.ibufByte (a + j))

/-- The fixed header that stands in IBUF from `o` on (30_encoding.md R110). -/
def ibufFixed (s : State) (o : Nat) : FixedHdr :=
  ⟨ibufWord32 s o, ibufWord16 s (o + 4), s.ibufByte (o + 6), s.ibufByte (o + 7), ibufAddr s (o + 8),
    ibufAddr s (o + 24)⟩

/-- How many bytes the working payload region has in a packet of `n` bytes (45_packet_codec.md R292). -/
def workLen (f : FixedHdr) (n : Nat) : Nat := if f.plen = 0 then n - 40 else f.plen.toNat

/-- The bytes of a valid slot, nothing for an invalid one. -/
def ifValid (v : Bool) (e : Bytes) : Bytes := if v then e else []

/-- A next-header byte as a result (30_encoding.md R104). -/
def byteRes (b : Byte) : Word := BitVec.ofNat 32 b.toNat

/-- The encode command of a kind (R226 to R231). -/
def encInstr (k : Kind) : Instr :=
  match k with
  | .hop => .encHop
  | .rt => .encRt
  | .frag => .encFrag
  | .ah => .encAh
  | .esp => .encEsp
  | .dst => .encDst

/-! ### Consistent slots (42_ext_headers.md R214) -/

def consistentOpts (h : OptSlot) : Prop :=
  (encOpts h).length = blenOpts h ∧ h.optdata.length = (h.hel.toNat + 1) * 8 - 2 ∧
    tlvScan h.optdata = .ok h.opts

def consistentRt (h : RtSlot) : Prop :=
  (encRt h).length = blenRt h ∧ h.addrs.length = h.hel.toNat / 2 ∧
    h.resid.length = 8 * (h.hel.toNat % 2)

def consistentAh (h : AhSlot) : Prop :=
  (encAh h).length = blenAh h ∧ 1 ≤ h.plen.toNat ∧ h.auth.length = (h.plen.toNat - 1) * 4

end Sys2Proof.Machine
end

