-- ==== Sys2Proof/Certificates/Slice0/Obligations.lean ====
section
/-! DEFINITION. The statements for the provers. Each docstring cites the rules of spec/ it formalises. -/

open Sys2Proof Sys2Proof.Machine

/-! ### Encoding -/

/-- Decode and encode agree, over every word and every instruction: a word decodes to an instruction
exactly when it is that instruction's encoding (30_encoding.md Part A and R120). -/
def Obligations.DecodeIsInverseOfEncode : Prop :=
  ∀ (f : Fetched) (i : Instr), decode f = .ok i ↔ f = encode i

/-- R101, R105, R405: a CMD word with a bit of [31:8] set, or with an opcode in the listed illegal
ranges, completes with IllegalCommand and changes nothing else; every other word is a command, and
the step performs it. -/
def Obligations.IllegalCommandWords : Prop :=
  ∀ (s : State) (w : Word), s.cmd = some w →
    let n := w.toNat % 256
    let illegal := w.toNat / 256 ≠ 0 ∨ n = 0x00 ∨ (0x03 ≤ n ∧ n ≤ 0x0F) ∨ (0x22 ≤ n ∧ n ≤ 0x2F) ∨
      (0x36 ≤ n ∧ n ≤ 0x37) ∨ (0x3E ≤ n ∧ n ≤ 0x3F) ∨ (0x41 ≤ n ∧ n ≤ 0x47) ∨
      (0x49 ≤ n ∧ n ≤ 0x4F) ∨ (0x54 ≤ n ∧ n ≤ 0x5F) ∨ (0x63 ≤ n ∧ n ≤ 0xFF)
    (illegal → step s = .next (faulted { s with cmd := none } 0 2 0)) ∧
    (¬ illegal → ∃ i, decode (.cmd w) = .ok i ∧ step s = exec i { s with cmd := none })

/-- Words written out from R102's map, one or more per family, decode to the instruction they stand
for; the zero word and a word with a reserved bit decode to none. -/
def Obligations.SampleWordsDecode : Prop :=
  decode (.cmd 0x00000001) = .ok .nop ∧ decode (.cmd 0x00000010) = .ok .packW0 ∧
  decode (.cmd 0x0000001D) = .ok .setMf ∧ decode (.cmd 0x00000033) = .ok .decAh ∧
  decode (.cmd 0x0000003C) = .ok .encEsp ∧ decode (.cmd 0x00000040) = .ok .tlvScan ∧
  decode (.cmd 0x00000048) = .ok .chainWalk ∧ decode (.cmd 0x00000053) = .ok .pktEnc ∧
  decode (.cmd 0x00000061) = .ok .csumCompute ∧ decode (.nh 0x3C) = .ok .nhDst ∧
  decode (.cmd 0x00000000) = .error (.unknownOpcode 0) ∧
  decode (.cmd 0x00000152) = .error (.reservedBits 1)

/-- R120: the six recognized ids and their kinds, `idOf` the inverse of `kindOf`, and every other id
terminal. -/
def Obligations.NextHeaderDispatch : Prop :=
  kindOf 0 = some .hop ∧ kindOf 43 = some .rt ∧ kindOf 44 = some .frag ∧ kindOf 50 = some .esp ∧
  kindOf 51 = some .ah ∧ kindOf 60 = some .dst ∧
  idOf .hop = 0 ∧ idOf .rt = 43 ∧ idOf .frag = 44 ∧ idOf .ah = 51 ∧ idOf .esp = 50 ∧ idOf .dst = 60 ∧
  ∀ p : Byte, (p.toNat ≠ 0 ∧ p.toNat ≠ 43 ∧ p.toNat ≠ 44 ∧ p.toNat ≠ 50 ∧ p.toNat ≠ 51 ∧ p.toNat ≠ 60) →
    kindOf p = none ∧ decode (.nh p) = .error (.terminalId p)

/-! ### The step -/

/-- A step runs the decoded instruction: a pending command, with CMD left empty; else the next-header
id the walker has reached. -/
def Obligations.StepRunsFetchedInstruction : Prop :=
  (∀ (s : State) (w : Word) (i : Instr), s.cmd = some w → decode (.cmd w) = .ok i →
    step s = exec i { s with cmd := none }) ∧
  (∀ (s : State) (p : Byte) (i : Instr), s.cmd = none → s.walker.cur = some p →
    decode (.nh p) = .ok i → step s = exec i s)

/-- With no command pending and no walk to continue, the step is the host's next action, or nothing;
a host write of address 0 leaves the command pending, and the next step decodes that word (log entries
1, 2 and 16). R55: a write of a list, a byte sequence or the payload replaces it whole, at any length,
and nothing else; R71: a write of IBUF bytes reads back, every other byte as before; the host may read
every piece of state, IBUF too (log entry 20), and a read changes nothing (log entry 11). Buffer bytes that do not exist stop
the model (log entry 10). -/
def Obligations.HostTurnAndCommandIssue : Prop :=
  (∀ s : State, s.cmd = none → (∀ p, s.walker.cur = some p → kindOf p = none) →
    (s.host = [] → step s = .next s) ∧
    (∀ a rest, s.host = a :: rest → step s = hostAct { s with host := rest } a) ∧
    (∀ w rest, s.host = .write 0x000 w :: rest →
      step s = .next { s with host := rest, cmd := some w })) ∧
  (∀ s : State,
    let ss := s.slots
    (∀ a v, hostAct s (.write a v) = .next (hostWrite s a v)) ∧
    (∀ b, hostAct s (.hopOptdata b) =
      .next { s with slots := { ss with hop := { ss.hop with optdata := b } } }) ∧
    (∀ rs, hostAct s (.hopOpts rs) =
      .next { s with slots := { ss with hop := { ss.hop with opts := rs } } }) ∧
    (∀ b, hostAct s (.dstOptdata b) =
      .next { s with slots := { ss with dst := { ss.dst with optdata := b } } }) ∧
    (∀ rs, hostAct s (.dstOpts rs) =
      .next { s with slots := { ss with dst := { ss.dst with opts := rs } } }) ∧
    (∀ as, hostAct s (.rtAddrs as) =
      .next { s with slots := { ss with rt := { ss.rt with addrs := as } } }) ∧
    (∀ b, hostAct s (.rtResid b) =
      .next { s with slots := { ss with rt := { ss.rt with resid := b } } }) ∧
    (∀ b, hostAct s (.ahAuth b) =
      .next { s with slots := { ss with ah := { ss.ah with auth := b } } }) ∧
    (∀ b, hostAct s (.espData b) =
      .next { s with slots := { ss with esp := { ss.esp with data := b } } }) ∧
    (∀ p, hostAct s (.payload p) = .next { s with payload := p }) ∧
    (∀ off b, off + b.length ≤ s.params.ibufSize →
      ∃ t, hostAct s (.ibuf off b) = .next t ∧ t = { s with ibuf := t.ibuf } ∧
        t.ibufBytes off b.length = b ∧
        ∀ a, (a < off ∨ off + b.length ≤ a) → t.ibufByte a = s.ibufByte a) ∧
    (∀ off b, s.params.ibufSize < off + b.length →
      hostAct s (.ibuf off b) = .fault (.hostOutsideIbuf off b.length))) ∧
  (∀ s : State,
    (∀ l, (∀ off n, l = .ibuf off n → off + n ≤ s.params.ibufSize) →
      (∀ off n, l = .obuf off n → off + n ≤ s.params.obufSize) → hostAct s (.read l) = .next s) ∧
    (∀ off n, s.params.ibufSize < off + n →
      hostAct s (.read (.ibuf off n)) = .fault (.hostOutsideIbuf off n)) ∧
    (∀ off n, s.params.obufSize < off + n →
      hostAct s (.read (.obuf off n)) = .fault (.hostOutsideObuf off n)) ∧
    (∀ a, hostView s (.reg a) = .word (hostRead s a)) ∧
    (∀ off n, hostView s (.ibuf off n) = .bytes (s.ibufBytes off n) ∧
      hostView s (.obuf off n) = .bytes (s.obufBytes off n)) ∧
    hostView s .hopOptdata = .bytes s.slots.hop.optdata ∧ hostView s .hopOpts = .recs s.slots.hop.opts ∧
    hostView s .dstOptdata = .bytes s.slots.dst.optdata ∧ hostView s .dstOpts = .recs s.slots.dst.opts ∧
    hostView s .rtAddrs = .addrs s.slots.rt.addrs ∧ hostView s .rtResid = .bytes s.slots.rt.resid ∧
    hostView s .ahAuth = .bytes s.slots.ah.auth ∧ hostView s .espData = .bytes s.slots.esp.data ∧
    hostView s .chain = .ids s.chain ∧ hostView s .scan = .recs s.scan ∧
    hostView s .payload = .payload s.payload)

/-- R420: every instruction completes in the step that runs it; a pending command leaves no command
in flight. That the next-header rows, which are no commands, answer a next state too is the model's
choice (log entries 3 and 4). -/
def Obligations.EveryCommandCompletesAtOnce : Prop :=
  (∀ (i : Instr) (s : State), ∃ t, exec i s = .next t ∧ t.cmd = s.cmd) ∧
  (∀ (s : State) (w : Word), s.cmd = some w → ∃ t, step s = .next t ∧ t.cmd = none)

/-! ### Reset -/

/-- R58: the value of every piece of state after reset. That a buffer byte (the rule's "unspecified: any
value") is the free value of its address in block 0 after no reset event is the model's choice (log
entries 5, 9 and 12); nothing constrains that value. -/
def Obligations.ResetValues : Prop :=
  let s := State.reset
  s.cmd = none ∧ s.arg0 = 0 ∧ s.arg1 = 0 ∧ s.arg2 = 0 ∧ s.arg3 = 0 ∧
  s.res0 = 0 ∧ s.res1 = 0 ∧ s.res2 = 0 ∧ s.res3 = 0 ∧ s.status = 0 ∧ s.faultOff = 0 ∧ s.olen = 0 ∧
  s.scan = [] ∧ s.fix.w0 = 0 ∧ s.fix.plen = 0 ∧ s.fix.nxt = 0 ∧ s.fix.hlim = 0 ∧
  s.fix.src.val = List.replicate 16 0 ∧ s.fix.dst.val = List.replicate 16 0 ∧
  s.slots.hop = ⟨false, 0, 0, [], []⟩ ∧ s.slots.rt = ⟨false, 0, 0, 0, 0, 0, [], []⟩ ∧
  s.slots.frag = ⟨false, 0, 0, 0, 0⟩ ∧ s.slots.ah = ⟨false, 0, 0, 0, 0, 0, []⟩ ∧
  s.slots.esp = ⟨false, 0, 0, []⟩ ∧ s.slots.dst = ⟨false, 0, 0, [], []⟩ ∧
  s.ulp = none ∧ s.chain = [] ∧ s.payload = .raw [] ∧
  ∀ a, s.ibufByte a = Config.ibufInit 0 0 a ∧ s.obufByte a = Config.obufInit 0 0 a

/-- The reset event, from every state with a reset as the host's next action: the reset values, the
sticky fault cleared, every buffer byte the free value of the new reset (log entries 5 and 9), the
parameters and the host's later actions kept. -/
def Obligations.ResetEventRestoresReset : Prop :=
  ∀ (s : State) (rest : List HostAct), s.cmd = none →
    (∀ p, s.walker.cur = some p → kindOf p = none) → s.host = .reset :: rest →
    ∃ t, step s = .next t ∧
      t = { State.reset with host := rest, params := s.params, resets := s.resets + 1 } ∧
      statusSticky t.status = false ∧
      ∀ a, t.ibufByte a = Config.ibufInit s.params.unit (s.resets + 1) a ∧
        t.obufByte a = Config.obufInit s.params.unit (s.resets + 1) a

/-- R421: STICKY_FAULT is set by every faulting command and cleared only by the reset event, so a run
whose end has it 0 had it 0 all along. -/
def Obligations.StickyFaultRecordsEveryFault : Prop :=
  (∀ (s t : State) (w : Word), s.cmd = some w → step s = .next t →
    statusCause t.status ≠ 0 → statusSticky t.status = true) ∧
  (∀ s t : State, step s = .next t → statusSticky s.status = true →
    (∀ rest, fetch s = none → s.host ≠ .reset :: rest) → statusSticky t.status = true) ∧
  (∀ (n : Nat) (s t : State), HostAct.reset ∉ s.host → core.run n s = .next t →
    statusSticky t.status = false →
    ∀ k, k ≤ n → ∃ u : State, core.run k s = .next u ∧ statusSticky u.status = false)

/-! ### Invariants and frames over all instructions -/

/-- The invariant holds at reset. -/
def Obligations.InvAtReset : Prop := Inv State.reset

/-- Every step keeps the invariant: canonical memories inside their sizes, STATUS with only written
codes and its reserved bits 0, FAULT_OFF 0 unless a header was malformed, SCAN and CHAIN legal. -/
def Obligations.InvKeptByEveryStep : Prop :=
  ∀ s t : State, Inv s → step s = .next t → Inv t

/-- R458, R53: no step changes the codec (or the other parameters). -/
def Obligations.ParametersNeverChange : Prop :=
  ∀ s t : State, step s = .next t → t.params = s.params ∧ t.codec = s.codec

/-- R33: no command writes ARG0 to ARG3; nor does any instruction write IBUF (R71), the parameters
(R52, R458; they stand in State by log entry 6), the host's actions (log entry 1), CMD (log entry 2)
or the reset counter (log entry 9), nor a next-header row any of these (log entry 3). -/
def Obligations.OperandsAndInputsKept : Prop :=
  ∀ (i : Instr) (s t : State), exec i s = .next t →
    t.arg0 = s.arg0 ∧ t.arg1 = s.arg1 ∧ t.arg2 = s.arg2 ∧ t.arg3 = s.arg3 ∧ t.ibuf = s.ibuf ∧
    t.host = s.host ∧ t.cmd = s.cmd ∧ t.resets = s.resets ∧ t.params = s.params

/-- R71: what an instruction does depends on IBUF only through the bytes of the region its operands
name, and on no IBUF byte at all when it names none; and no instruction writes IBUF. -/
def Obligations.IbufReadOnlyInsideRegion : Prop :=
  ∀ (i : Instr) (s : State) (m : Memory),
    (∀ o n, regionOf i s = some (o, n) → ∀ a, o.toNat ≤ a → a < o.toNat + n.toNat →
      State.ibufByte { s with ibuf := m } a = s.ibufByte a) →
    ∀ t, exec i s = .next t → t.ibuf = s.ibuf ∧ exec i { s with ibuf := m } = .next { t with ibuf := m }

/-- R404, R412: a command that completes with CAUSE not 0 has written only STATUS and FAULT_OFF: a
legal code, FKIND and FAULT_OFF 0 unless CAUSE = 1, every other bit of [30:4] 0, STICKY_FAULT 1. -/
def Obligations.FaultWritesOnlyStatus : Prop :=
  (∀ (i : Instr) (s t : State), isCommand i = true → exec i s = .next t →
    statusCause t.status ≠ 0 →
    ∃ fkind cause off : Nat, 1 ≤ cause ∧ cause ≤ 5 ∧ fkind ≤ 8 ∧ (cause = 1 ↔ fkind ≠ 0) ∧
      (cause ≠ 1 → off = 0) ∧ t = faulted s fkind cause off) ∧
  (∀ (s t : State) (w : Word), s.cmd = some w → step s = .next t → statusCause t.status ≠ 0 →
    ∃ fkind cause off : Nat, 1 ≤ cause ∧ cause ≤ 5 ∧ fkind ≤ 8 ∧ (cause = 1 ↔ fkind ≠ 0) ∧
      (cause ≠ 1 → off = 0) ∧ t = faulted { s with cmd := none } fkind cause off)

/-- R56: ULP_RAW and RAW_WHY only after PKT_DEC, CSUM_WRITTEN and CSUM_SKIPPED only after PKT_ENC or
CSUM_FIXUP, a faulting command sets no flag but FKIND, and no behaviour depends on STATUS but the
sticky bit that is carried along. -/
def Obligations.StatusFlagsAreWriteOnly : Prop :=
  (∀ (s t : State) (w : Word), s.cmd = some w → step s = .next t →
    (statusUlpRaw t.status = true ∨ statusRawWhy t.status ≠ 0 → w = 0x52) ∧
    (statusCsumWritten t.status = true ∨ statusCsumSkipped t.status = true →
      w = 0x53 ∨ w = 0x62) ∧
    (statusCause t.status ≠ 0 → statusSticky t.status = true ∧ statusUlpRaw t.status = false ∧
      statusRawWhy t.status = 0 ∧ statusCsumWritten t.status = false ∧
      statusCsumSkipped t.status = false ∧ (statusFkind t.status ≠ 0 → statusCause t.status = 1))) ∧
  (∀ (i : Instr) (s t : State) (w : Word), exec i s = .next t →
    ∃ u, exec i { s with status := w } = .next u ∧ { u with status := t.status } = t ∧
      (isCommand i = true → ∀ k, k < 31 → u.status.getLsbD k = t.status.getLsbD k))

/-- R72, R77: only the encode commands write OBUF and OLEN, and of OBUF a command changes no byte
before the old OLEN and none at or after the new one (OBUF_SIZE is less than 2^32, R70). -/
def Obligations.OutputBytesFrame : Prop :=
  ∀ (i : Instr) (s t : State), s.params.obufSize < 2 ^ 32 → exec i s = .next t →
    (writesObuf i = false → t.obuf = s.obuf ∧ t.olen = s.olen) ∧
    (∀ a, a < s.olen.toNat ∨ t.olen.toNat ≤ a → t.obufByte a = s.obufByte a)

/-- R76: the output of a successful encode command is the emitted bytes, at the old OLEN on, and OLEN
advances by their number; every other OBUF byte reads as before (OBUF_SIZE is less than 2^32). -/
def Obligations.AppendedOutputReadsBack : Prop :=
  ∀ (s : State) (e : Bytes), s.params.obufSize < 2 ^ 32 →
    (s.olen.toNat + e.length ≤ s.params.obufSize →
      ∃ t, commitOut e s = .ok t ∧ t = { s with obuf := t.obuf, olen := t.olen } ∧
        t.olen.toNat = s.olen.toNat + e.length ∧ t.obufBytes s.olen.toNat e.length = e ∧
        ∀ a, (a < s.olen.toNat ∨ s.olen.toNat + e.length ≤ a) → t.obufByte a = s.obufByte a) ∧
    (s.params.obufSize < s.olen.toNat + e.length → commitOut e s = .error .obufOverflow)

/-- R406: a region operand past IBUF_SIZE, the sum without wrap-around, is BadRegion, before anything
else is looked at. -/
def Obligations.BadRegionFaults : Prop :=
  ∀ (i : Instr) (s : State) (o n : Word), regionOf i s = some (o, n) →
    s.params.ibufSize < o.toNat + n.toNat → exec i s = .next (faulted s 0 3 0)

/-- R407: the output of an encode command that does not fit is ObufOverflow; PKT_ENC's fix-up is not
kept. -/
def Obligations.ObufOverflowFaults : Prop :=
  ∀ s : State,
    (∀ k : Kind,
      let i := (match k with
        | .hop => Instr.encHop
        | .rt => .encRt
        | .frag => .encFrag
        | .ah => .encAh
        | .esp => .encEsp
        | .dst => .encDst)
      s.params.obufSize < s.olen.toNat + (encSlot k s.slots).length →
      exec i s = .next (faulted s 0 4 0)) ∧
    (s.params.obufSize < s.olen.toNat + 40 → exec .fixEnc s = .next (faulted s 0 4 0)) ∧
    (∀ r, fixup s.codec s.ulp s.payload s.fix.src s.fix.dst = .ok r →
      s.params.obufSize < s.olen.toNat + (pktBytes s r.payload).length →
      exec .pktEnc s = .next (faulted s 0 4 0))

/-! ### System commands -/

/-- R360, R361: NOP only completes; CLEAR puts the packet context and SCAN at their reset values and
touches nothing else. -/
def Obligations.NopAndClearResult : Prop :=
  encode .nop = .cmd 0x00000001 ∧ encode .clear = .cmd 0x00000002 ∧
  ∀ s : State,
    exec .nop s = .next (completed s s 0) ∧
    exec .clear s = .next (completed s
      { s with
        fix := ⟨0, 0, 0, 0, zeros16, zeros16⟩
        slots := ⟨⟨false, 0, 0, [], []⟩, ⟨false, 0, 0, 0, 0, 0, [], []⟩, ⟨false, 0, 0, 0, 0⟩,
          ⟨false, 0, 0, 0, 0, 0, []⟩, ⟨false, 0, 0, []⟩, ⟨false, 0, 0, [], []⟩⟩
        ulp := none
        chain := []
        payload := .raw []
        scan := [] } 0)

/-! ### Field-bitpacking commands -/

/-- R160, R168, R174: the pack commands, with R150, R152 and R154's arithmetic. -/
def Obligations.PackCommandsResult : Prop :=
  encode .packW0 = .cmd 0x00000010 ∧ encode .packFrag = .cmd 0x00000018 ∧
  encode .packRt = .cmd 0x0000001E ∧
  ∀ s : State,
    exec .packW0 s = .next (completed s { s with
      res0 := BitVec.ofNat 32 (2 ^ 28 * (s.arg0.toNat % 2 ^ 4) + 2 ^ 20 * (s.arg1.toNat % 2 ^ 8) +
        s.arg2.toNat % 2 ^ 20) } 0) ∧
    exec .packFrag s = .next (completed s { s with
      res0 := BitVec.ofNat 32 (2 ^ 3 * (s.arg0.toNat % 2 ^ 13) + 2 * (s.arg1.toNat % 2 ^ 2) +
        s.arg2.toNat % 2) } 0) ∧
    exec .packRt s = .next (completed s { s with
      res0 := BitVec.ofNat 32 (2 ^ 24 * (s.arg0.toNat % 2 ^ 8) + s.arg1.toNat % 2 ^ 24) } 0)

/-- R161, R169, R175: the unpack commands. -/
def Obligations.UnpackCommandsResult : Prop :=
  encode .unpackW0 = .cmd 0x00000011 ∧ encode .unpackFrag = .cmd 0x00000019 ∧
  encode .unpackRt = .cmd 0x0000001F ∧
  ∀ s : State,
    exec .unpackW0 s = .next (completed s { s with
      res0 := BitVec.ofNat 32 (s.arg0.toNat / 2 ^ 28)
      res1 := BitVec.ofNat 32 (s.arg0.toNat / 2 ^ 20 % 2 ^ 8)
      res2 := BitVec.ofNat 32 (s.arg0.toNat % 2 ^ 20) } 0) ∧
    exec .unpackFrag s = .next (completed s { s with
      res0 := BitVec.ofNat 32 (s.arg0.toNat % 2 ^ 16 / 2 ^ 3)
      res1 := BitVec.ofNat 32 (s.arg0.toNat / 2 % 2 ^ 2)
      res2 := BitVec.ofNat 32 (s.arg0.toNat % 2) } 0) ∧
    exec .unpackRt s = .next (completed s { s with
      res0 := BitVec.ofNat 32 (s.arg0.toNat / 2 ^ 24)
      res1 := BitVec.ofNat 32 (s.arg0.toNat % 2 ^ 24) } 0)

/-- R162, R163, R164, R170, R171, R176: the get commands, whatever the slot's valid bit. -/
def Obligations.GetCommandsResult : Prop :=
  encode .getVer = .cmd 0x00000012 ∧ encode .getTc = .cmd 0x00000013 ∧
  encode .getFlow = .cmd 0x00000014 ∧ encode .getFoff = .cmd 0x0000001A ∧
  encode .getMf = .cmd 0x0000001B ∧ encode .getSlbits = .cmd 0x00000020 ∧
  ∀ s : State,
    let w := s.fix.w0.toNat
    let g := s.slots.frag.fragw.toNat
    let r := s.slots.rt.rtw.toNat
    exec .getVer s = .next (completed s { s with res0 := BitVec.ofNat 32 (w / 2 ^ 28) } 0) ∧
    exec .getTc s = .next (completed s { s with res0 := BitVec.ofNat 32 (w / 2 ^ 20 % 2 ^ 8) } 0) ∧
    exec .getFlow s = .next (completed s { s with res0 := BitVec.ofNat 32 (w % 2 ^ 20) } 0) ∧
    exec .getFoff s = .next (completed s { s with res0 := BitVec.ofNat 32 (g / 2 ^ 3) } 0) ∧
    exec .getMf s = .next (completed s { s with res0 := BitVec.ofNat 32 (g % 2) } 0) ∧
    exec .getSlbits s = .next (completed s { s with res0 := BitVec.ofNat 32 (r % 2 ^ 24) } 0)

/-- R165, R166, R167, R172, R173, R177: the set commands write the one word, its other fields and the
slot's valid bit kept, and nothing else. -/
def Obligations.SetCommandsResult : Prop :=
  encode .setVer = .cmd 0x00000015 ∧ encode .setTc = .cmd 0x00000016 ∧
  encode .setFlow = .cmd 0x00000017 ∧ encode .setFoff = .cmd 0x0000001C ∧
  encode .setMf = .cmd 0x0000001D ∧ encode .setSlbits = .cmd 0x00000021 ∧
  ∀ s : State,
    let a := s.arg0.toNat
    let w := s.fix.w0.toNat
    let g := s.slots.frag.fragw.toNat
    let r := s.slots.rt.rtw.toNat
    let w0 := fun (n : Nat) => { s with fix := { s.fix with w0 := BitVec.ofNat 32 n } }
    let fragw := fun (n : Nat) =>
      { s with slots := { s.slots with frag := { s.slots.frag with fragw := BitVec.ofNat 16 n } } }
    let rtw := fun (n : Nat) =>
      { s with slots := { s.slots with rt := { s.slots.rt with rtw := BitVec.ofNat 32 n } } }
    exec .setVer s = .next (completed s (w0 (2 ^ 28 * (a % 2 ^ 4) + w % 2 ^ 28)) 0) ∧
    exec .setTc s =
      .next (completed s (w0 (2 ^ 28 * (w / 2 ^ 28) + 2 ^ 20 * (a % 2 ^ 8) + w % 2 ^ 20)) 0) ∧
    exec .setFlow s = .next (completed s (w0 (2 ^ 20 * (w / 2 ^ 20) + a % 2 ^ 20)) 0) ∧
    exec .setFoff s = .next (completed s (fragw (2 ^ 3 * (a % 2 ^ 13) + g % 2 ^ 3)) 0) ∧
    exec .setMf s = .next (completed s (fragw (2 * (g / 2) + a % 2)) 0) ∧
    exec .setSlbits s = .next (completed s (rtw (2 ^ 24 * (r / 2 ^ 24) + a % 2 ^ 24)) 0)

/-- R156: pack and unpack are inverse, and for out-of-range inputs unpack after pack masks. -/
def Obligations.PackUnpackInverse : Prop :=
  (∀ v c f : Word,
    w0Ver (packW0 v c f) = v.setWidth 4 ∧ w0Tc (packW0 v c f) = c.setWidth 8 ∧
      w0Flow (packW0 v c f) = f.setWidth 20) ∧
  (∀ w : Word, packW0 ((w0Ver w).setWidth 32) ((w0Tc w).setWidth 32) ((w0Flow w).setWidth 32) = w) ∧
  (∀ o r m : Word,
    fragOff (packFrag o r m) = o.setWidth 13 ∧ fragRsvd2 (packFrag o r m) = r.setWidth 2 ∧
      fragMf (packFrag o r m) = m.setWidth 1) ∧
  (∀ w : Half,
    packFrag ((fragOff w).setWidth 32) ((fragRsvd2 w).setWidth 32) ((fragMf w).setWidth 32) = w) ∧
  (∀ r b : Word, rtRsvd (packRt r b) = r.setWidth 8 ∧ rtBits (packRt r b) = b.setWidth 24) ∧
  (∀ w : Word, packRt ((rtRsvd w).setWidth 32) ((rtBits w).setWidth 32) = w)

/-- R157: each setter changes only the bits of its own field, and SET_VER, SET_TC and SET_FLOW in any
of the six orders leave the packed word. -/
def Obligations.SettersIsolateFields : Prop :=
  (∀ (w v : Word) (i : Nat), i < 28 → (setVer w v).getLsbD i = w.getLsbD i) ∧
  (∀ (w v : Word), w0Ver (setVer w v) = v.setWidth 4) ∧
  (∀ (w c : Word) (i : Nat), i < 20 ∨ 28 ≤ i → (setTc w c).getLsbD i = w.getLsbD i) ∧
  (∀ (w c : Word), w0Tc (setTc w c) = c.setWidth 8) ∧
  (∀ (w f : Word) (i : Nat), 20 ≤ i → (setFlow w f).getLsbD i = w.getLsbD i) ∧
  (∀ (w f : Word), w0Flow (setFlow w f) = f.setWidth 20) ∧
  (∀ (w : Half) (o : Word) (i : Nat), i < 3 → (setFoff w o).getLsbD i = w.getLsbD i) ∧
  (∀ (w : Half) (o : Word), fragOff (setFoff w o) = o.setWidth 13) ∧
  (∀ (w : Half) (m : Word) (i : Nat), 1 ≤ i → (setMf w m).getLsbD i = w.getLsbD i) ∧
  (∀ (w : Half) (m : Word), fragMf (setMf w m) = m.setWidth 1) ∧
  (∀ (w b : Word) (i : Nat), 24 ≤ i → (setBits w b).getLsbD i = w.getLsbD i) ∧
  (∀ (w b : Word), rtBits (setBits w b) = b.setWidth 24) ∧
  (∀ w v c f : Word,
    setFlow (setTc (setVer w v) c) f = packW0 v c f ∧
    setTc (setFlow (setVer w v) f) c = packW0 v c f ∧
    setFlow (setVer (setTc w c) v) f = packW0 v c f ∧
    setVer (setFlow (setTc w c) f) v = packW0 v c f ∧
    setTc (setVer (setFlow w f) v) c = packW0 v c f ∧
    setVer (setTc (setFlow w f) c) v = packW0 v c f)

/-! ### Extension headers -/

/-- R220, R225: DEC_HOP and DEC_DST, from the bytes of IBUF. -/
def Obligations.DecOptionsResult : Prop :=
  encode .decHop = .cmd 0x00000030 ∧ encode .decDst = .cmd 0x00000035 ∧
  ∀ (s : State) (opts : List OptRec),
    let o := s.arg0.toNat
    let hel := s.ibufByte (o + 1)
    let l := (hel.toNat + 1) * 8
    let h : OptSlot := ⟨true, s.ibufByte o, hel, s.ibufBytes (o + 2) (l - 2), opts⟩
    o + s.arg1.toNat ≤ s.params.ibufSize → 2 ≤ s.arg1.toNat → l ≤ s.arg1.toNat →
    tlvScan (s.ibufBytes (o + 2) (l - 2)) = .ok opts →
    exec .decHop s = .next (completed s { s with
      slots := { s.slots with hop := h }
      res0 := BitVec.ofNat 32 l
      res1 := byteRes (s.ibufByte o) } 0) ∧
    exec .decDst s = .next (completed s { s with
      slots := { s.slots with dst := h }
      res0 := BitVec.ofNat 32 l
      res1 := byteRes (s.ibufByte o) } 0)

/-- R221: DEC_RT, from the bytes of IBUF: floor(hel/2) addresses, 8 residual bytes when hel is odd. -/
def Obligations.DecRoutingResult : Prop :=
  encode .decRt = .cmd 0x00000031 ∧
  ∀ s : State,
    let o := s.arg0.toNat
    let hel := s.ibufByte (o + 1)
    let m := hel.toNat / 2
    o + s.arg1.toNat ≤ s.params.ibufSize → 8 ≤ s.arg1.toNat → hel.toNat * 8 + 8 ≤ s.arg1.toNat →
    exec .decRt s = .next (completed s { s with
      slots := { s.slots with
        rt := ⟨true, s.ibufByte o, hel, s.ibufByte (o + 2), s.ibufByte (o + 3), ibufWord32 s (o + 4),
          (List.range m).map (fun i => ibufAddr s (o + 8 + 16 * i)),
          s.ibufBytes (o + 8 + 16 * m) (8 * (hel.toNat % 2))⟩ }
      res0 := BitVec.ofNat 32 (hel.toNat * 8 + 8)
      res1 := byteRes (s.ibufByte o) } 0)

/-- R222: DEC_FRAG, from the bytes of IBUF. -/
def Obligations.DecFragmentResult : Prop :=
  encode .decFrag = .cmd 0x00000032 ∧
  ∀ s : State,
    let o := s.arg0.toNat
    o + s.arg1.toNat ≤ s.params.ibufSize → 8 ≤ s.arg1.toNat →
    exec .decFrag s = .next (completed s { s with
      slots := { s.slots with
        frag := ⟨true, s.ibufByte o, s.ibufByte (o + 1), ibufWord16 s (o + 2), ibufWord32 s (o + 4)⟩ }
      res0 := 8
      res1 := byteRes (s.ibufByte o) } 0)

/-- R223: DEC_AH, from the bytes of IBUF. -/
def Obligations.DecAuthResult : Prop :=
  encode .decAh = .cmd 0x00000033 ∧
  ∀ s : State,
    let o := s.arg0.toNat
    let plen := s.ibufByte (o + 1)
    o + s.arg1.toNat ≤ s.params.ibufSize → 2 ≤ s.arg1.toNat → plen ≠ 0 →
    (plen.toNat + 2) * 4 ≤ s.arg1.toNat →
    exec .decAh s = .next (completed s { s with
      slots := { s.slots with
        ah := ⟨true, s.ibufByte o, plen, ibufWord16 s (o + 2), ibufWord32 s (o + 4),
          ibufWord32 s (o + 8), s.ibufBytes (o + 12) ((plen.toNat - 1) * 4)⟩ }
      res0 := BitVec.ofNat 32 ((plen.toNat + 2) * 4)
      res1 := byteRes (s.ibufByte o) } 0)

/-- R224: DEC_ESP, from the bytes of IBUF; it takes the whole region and names no next header. -/
def Obligations.DecEspResult : Prop :=
  encode .decEsp = .cmd 0x00000034 ∧
  ∀ s : State,
    let o := s.arg0.toNat
    o + s.arg1.toNat ≤ s.params.ibufSize → 8 ≤ s.arg1.toNat →
    exec .decEsp s = .next (completed s { s with
      slots := { s.slots with
        esp := ⟨true, ibufWord32 s o, ibufWord32 s (o + 4), s.ibufBytes (o + 8) (s.arg1.toNat - 8)⟩ }
      res0 := s.arg1
      res1 := 0xFFFFFFFF } 0)

/-- R401: when each header is malformed, its FKIND and the offset recorded. -/
def Obligations.MalformedHeaderFaults : Prop :=
  ∀ s : State,
    let o := s.arg0.toNat
    let n := s.arg1.toNat
    let b1 := (s.ibufByte (o + 1)).toNat
    let partialOption := ∃ pos, tlvScan (s.ibufBytes (o + 2) ((b1 + 1) * 8 - 2)) = .error pos
    o + n ≤ s.params.ibufSize →
    (n < 40 ∨ ((ibufFixed s o).plen ≠ 0 ∧ n < 40 + (ibufFixed s o).plen.toNat) →
      exec .fixDec s = .next (faulted s 1 1 o) ∧ exec .pktDec s = .next (faulted s 1 1 o)) ∧
    (n < 2 ∨ n < (b1 + 1) * 8 ∨ partialOption →
      exec .decHop s = .next (faulted s 2 1 o) ∧ exec .decDst s = .next (faulted s 7 1 o)) ∧
    (n < 8 ∨ n < b1 * 8 + 8 → exec .decRt s = .next (faulted s 3 1 o)) ∧
    (n < 8 → exec .decFrag s = .next (faulted s 4 1 o)) ∧
    (n < 2 ∨ b1 = 0 ∨ n < (b1 + 2) * 4 → exec .decAh s = .next (faulted s 5 1 o)) ∧
    (n < 8 → exec .decEsp s = .next (faulted s 6 1 o)) ∧
    (∀ pos, tlvScan (s.ibufBytes o n) = .error pos →
      exec .tlvScan s = .next (faulted s 8 1 (o + pos)))

/-- R226 to R231: the encode commands append the slot's bytes as R206 to R210 lay them out, whatever
the slot holds, or nothing for an invalid slot, and give the bytes emitted and the byte_length of the
fields (R213); output that does not fit is ObufOverflow. -/
def Obligations.EncodeCommandsResult : Prop :=
  encode .encHop = .cmd 0x00000038 ∧ encode .encRt = .cmd 0x00000039 ∧
  encode .encFrag = .cmd 0x0000003A ∧ encode .encAh = .cmd 0x0000003B ∧
  encode .encEsp = .cmd 0x0000003C ∧ encode .encDst = .cmd 0x0000003D ∧
  ∀ s : State,
    let hop := s.slots.hop
    let rt := s.slots.rt
    let frag := s.slots.frag
    let ah := s.slots.ah
    let esp := s.slots.esp
    let dst := s.slots.dst
    let emits := fun (i : Instr) (valid : Bool) (bytes : Bytes) (blen : Nat) =>
      let e := ifValid valid bytes
      (s.olen.toNat + e.length ≤ s.params.obufSize →
        exec i s = .next (completed s { appended s e with
          res0 := BitVec.ofNat 32 e.length
          res1 := BitVec.ofNat 32 blen } 0)) ∧
      (s.params.obufSize < s.olen.toNat + e.length → exec i s = .next (faulted s 0 4 0))
    emits .encHop hop.valid ([hop.nxt, hop.hel] ++ hop.optdata) ((hop.hel.toNat + 1) * 8) ∧
    emits .encRt rt.valid ([rt.nxt, rt.hel, rt.rtype, rt.segleft] ++ beWord rt.rtw ++
      (rt.addrs.map Subtype.val).flatten ++ rt.resid) (rt.hel.toNat * 8 + 8) ∧
    emits .encFrag frag.valid ([frag.nxt, frag.rsvd] ++ beHalf frag.fragw ++ beWord frag.ident) 8 ∧
    emits .encAh ah.valid ([ah.nxt, ah.plen] ++ beHalf ah.rsvd ++ beWord ah.spi ++ beWord ah.seq ++
      ah.auth) ((ah.plen.toNat + 2) * 4) ∧
    emits .encEsp esp.valid (beWord esp.spi ++ beWord esp.seq ++ esp.data) (8 + esp.data.length) ∧
    emits .encDst dst.valid ([dst.nxt, dst.hel] ++ dst.optdata) ((dst.hel.toNat + 1) * 8)

/-- R212: what a decoder consumes is at least 8 bytes, at most the available region, and exactly what
the encoder gives back. -/
def Obligations.ConsumptionLaw : Prop :=
  ∀ (b : Bytes) (o : Nat),
    (∀ k h l, decOpts k b o = .ok (h, l) →
      8 ≤ l ∧ l ≤ b.length ∧ (encOpts h).length = l ∧ encOpts h = b.take l) ∧
    (∀ h l, decRt b o = .ok (h, l) →
      8 ≤ l ∧ l ≤ b.length ∧ (encRt h).length = l ∧ encRt h = b.take l) ∧
    (∀ h l, decFrag b o = .ok (h, l) →
      8 ≤ l ∧ l ≤ b.length ∧ (encFrag h).length = l ∧ encFrag h = b.take l) ∧
    (∀ h l, decAh b o = .ok (h, l) →
      8 ≤ l ∧ l ≤ b.length ∧ (encAh h).length = l ∧ encAh h = b.take l) ∧
    (∀ h l, decEsp b o = .ok (h, l) →
      8 ≤ l ∧ l ≤ b.length ∧ (encEsp h).length = l ∧ encEsp h = b.take l)

/-- R214: every decoded slot is consistent, and the encoding of a consistent slot decodes back to it
(`valid` is 1 in what a decoder returns). No encode command checks consistency: for every kind and
every slot that is valid and fits, the slot's bytes are emitted as it stands, consistent or not, RES0
their number and RES1 the slot's byte_length, and in some state the two differ. -/
def Obligations.ConsistentSlotsRoundTrip : Prop :=
  (∀ k b o h l, decOpts k b o = .ok (h, l) → consistentOpts h) ∧
  (∀ b o h l, decRt b o = .ok (h, l) → consistentRt h) ∧
  (∀ b o h l, decAh b o = .ok (h, l) → consistentAh h) ∧
  (∀ k h o, consistentOpts h → decOpts k (encOpts h) o = .ok ({ h with valid := true }, blenOpts h)) ∧
  (∀ h o, consistentRt h → decRt (encRt h) o = .ok ({ h with valid := true }, blenRt h)) ∧
  (∀ h o, decFrag (encFrag h) o = .ok ({ h with valid := true }, blenFrag h)) ∧
  (∀ h o, consistentAh h → decAh (encAh h) o = .ok ({ h with valid := true }, blenAh h)) ∧
  (∀ h o, decEsp (encEsp h) o = .ok ({ h with valid := true }, blenEsp h)) ∧
  (∀ (k : Kind) (s : State), s.params.obufSize < 2 ^ 32 →
    s.olen.toNat + (encSlot k s.slots).length ≤ s.params.obufSize →
    ∃ t, exec (encInstr k) s = .next t ∧ statusCause t.status = 0 ∧
      t.obufBytes s.olen.toNat (encSlot k s.slots).length = encSlot k s.slots ∧
      t.res0.toNat = (encSlot k s.slots).length ∧
      t.res1 = BitVec.ofNat 32 (blenSlot k s.slots)) ∧
  ∃ s t : State, s.slots.hop.valid = true ∧ ¬ consistentOpts s.slots.hop ∧
    exec .encHop s = .next t ∧ statusCause t.status = 0 ∧
    t.res0.toNat = (encOpts s.slots.hop).length ∧ t.res1.toNat = blenOpts s.slots.hop ∧
    t.res0 ≠ t.res1

/-! ### The TLV scanner -/

/-- R250: the scan, by what stands at the front of the region: nothing; a Pad1; a type byte with no
length byte; an option that runs past the region; a PadN; any other option. -/
def Obligations.TlvScanByCases : Prop :=
  tlvScan [] = .ok [] ∧
  (∀ r, tlvScan (0 :: r) = (tlvScan r).mapError (· + 1)) ∧
  (∀ t : Byte, t ≠ 0 → tlvScan [t] = .error 0) ∧
  (∀ (t l : Byte) (r : Bytes), t ≠ 0 → r.length < l.toNat → tlvScan (t :: l :: r) = .error 0) ∧
  (∀ (l : Byte) (v r : Bytes), v.length = l.toNat →
    tlvScan (1 :: l :: (v ++ r)) = (tlvScan r).mapError (· + (2 + l.toNat))) ∧
  (∀ (t l : Byte) (v r : Bytes), t ≠ 0 → t ≠ 1 → v.length = l.toNat →
    tlvScan (t :: l :: (v ++ r)) =
      ((tlvScan r).map (⟨t, l, v⟩ :: ·)).mapError (· + (2 + l.toNat)))

/-- R254, R251: the records a scan emits are no pads and carry their own length, and there are at most
floor(n/2) of them. -/
def Obligations.TlvScanRecords : Prop :=
  ∀ (r : Bytes) (out : List OptRec), tlvScan r = .ok out →
    out.length ≤ r.length / 2 ∧
    ∀ x ∈ out, 2 ≤ x.typ.toNat ∧ x.value.length = x.len.toNat

/-- R256: TLV_SCAN. -/
def Obligations.TlvScanCommandResult : Prop :=
  encode .tlvScan = .cmd 0x00000040 ∧
  (∀ s : State, s.params.ibufSize < s.arg0.toNat + s.arg1.toNat →
    exec .tlvScan s = .next (faulted s 0 3 0)) ∧
  ∀ s : State, s.arg0.toNat + s.arg1.toNat ≤ s.params.ibufSize →
    (∀ out, tlvScan (s.ibufBytes s.arg0.toNat s.arg1.toNat) = .ok out →
      exec .tlvScan s = .next (completed s { s with
        scan := out
        res0 := BitVec.ofNat 32 out.length
        res1 := s.arg1 } 0)) ∧
    (∀ pos, tlvScan (s.ibufBytes s.arg0.toNat s.arg1.toNat) = .error pos →
      exec .tlvScan s = .next (faulted s 8 1 (s.arg0.toNat + pos)))

/-! ### The chain walker -/

/-- The meaning of the six next-header rows NH_HOP, NH_RT, NH_FRAG, NH_ESP, NH_AH and NH_DST: one
iteration of R271's loop on the walker's variables, or that header's MalformedHeader. That a row is an
instruction of its own, that one that succeeds writes no STATUS, what one that fails writes and that it
leaves the walker idle is the model's choice (log entries 3, 4 and 18). -/
def Obligations.NextHeaderRowsResult : Prop :=
  ∀ (s : State) (k : Kind),
    let i := (match k with
      | .hop => Instr.nhHop
      | .rt => .nhRt
      | .frag => .nhFrag
      | .ah => .nhAh
      | .esp => .nhEsp
      | .dst => .nhDst)
    let b := s.walker.buf.drop s.walker.pos
    let at' := s.walker.off + s.walker.pos
    (∀ ss nx l, decInto k s.walker.slots b at' = .ok (ss, nx, l) →
      exec i s = .next { s with walker := { s.walker with
        slots := ss
        chain := s.walker.chain ++ [idOf k]
        pos := s.walker.pos + l
        cur := nx } }) ∧
    (∀ t, decInto k s.walker.slots b at' = .error t →
      exec i s = .next (faulted { s with walker := Walker.idle } (kindIndex k + 2) 1 at'))

/-- Decoding a header of kind k touches slot k alone, consumes at least 8 and at most the available
bytes, and names a next header unless k is ESP (R215, R212); a failure is k's MalformedHeader (R200). -/
def Obligations.DispatchTouchesOneSlot : Prop :=
  ∀ (k : Kind) (ss : Slots) (b : Bytes) (o : Nat),
    (∀ ss' nx l, decInto k ss b o = .ok (ss', nx, l) →
      8 ≤ l ∧ l ≤ b.length ∧ (nx = none ↔ k = .esp) ∧ encSlot k ss' = b.take l ∧
      blenSlot k ss' = l ∧
      (k ≠ .hop → ss'.hop = ss.hop) ∧ (k ≠ .rt → ss'.rt = ss.rt) ∧ (k ≠ .frag → ss'.frag = ss.frag) ∧
      (k ≠ .ah → ss'.ah = ss.ah) ∧ (k ≠ .esp → ss'.esp = ss.esp) ∧ (k ≠ .dst → ss'.dst = ss.dst)) ∧
    (∀ t, decInto k ss b o = .error t → t = .malformed (.ext k) o)

/-- R276, R274: a walk over n bytes decodes at most floor(n/8) headers and stays in its region; its
chain holds recognized ids; it ends at a terminal id, or, after ESP, with none and nothing left; a
fault is the failing header's MalformedHeader inside the region (R275). -/
def Obligations.WalkEndsInsideRegion : Prop :=
  ∀ (first : Byte) (b : Bytes) (o : Nat),
    (∀ w, walk first b o = .ok w →
      w.chain.length ≤ b.length / 8 ∧ w.pos ≤ b.length ∧ (∀ p ∈ w.chain, p ∈ extIds) ∧
      (w.cur = none → w.pos = b.length ∧ w.chain.getLast? = some 50) ∧
      (∀ p, w.cur = some p → p ∉ extIds)) ∧
    (∀ t, walk first b o = .error t →
      ∃ k pos, pos ≤ b.length ∧ t = .malformed (.ext k) (o + pos))

/-- R277: a first id outside EXT ends the walk at once, with no header decoded and no byte read. -/
def Obligations.TerminalFirstIdEndsWalk : Prop :=
  ∀ (first : Byte) (b : Bytes) (o : Nat), first ∉ extIds →
    walk first b o = .ok ⟨b, o, 0, some first, Slots.reset, []⟩

/-- R278: CHAIN_WALK writes the slots, CHAIN and its four results; not ULP, PAYLOAD or the fixed
header; a failing header is its MalformedHeader. -/
def Obligations.ChainWalkResult : Prop :=
  encode .chainWalk = .cmd 0x00000048 ∧
  (∀ s : State, s.params.ibufSize < s.arg0.toNat + s.arg1.toNat →
    exec .chainWalk s = .next (faulted s 0 3 0)) ∧
  ∀ s : State, s.arg0.toNat + s.arg1.toNat ≤ s.params.ibufSize →
    let b := s.ibufBytes s.arg0.toNat s.arg1.toNat
    let first := BitVec.ofNat 8 s.arg2.toNat
    (∀ w, walk first b s.arg0.toNat = .ok w →
      exec .chainWalk s = .next (completed s { s with
        slots := w.slots
        chain := w.chain
        res0 := (match w.cur with
          | some p => byteRes p
          | none => 0xFFFFFFFF)
        res1 := BitVec.ofNat 32 (s.arg0.toNat + w.pos)
        res2 := BitVec.ofNat 32 (s.arg1.toNat - w.pos)
        res3 := BitVec.ofNat 32 w.chain.length } 0)) ∧
    (∀ k off, walk first b s.arg0.toNat = .error (.malformed (.ext k) off) →
      exec .chainWalk s = .next (faulted s (kindIndex k + 2) 1 off))

/-- The whole walk of R271 is the repeated next-header dispatch: from a walk just started, as many
steps as the chain has headers lead, without touching anything else, to the walker `walk` returns,
and there the next header is terminal. R275, R409: a walk that fails is the fault of the first dispatch
that does not decode: from the same start, some n dispatches that decode lead to a walker whose next id
is that header's, its decoder fails there, the walk's fault is that header's kind and offset, and the
next step records it. (Log entries 3, 4 and 18.) -/
def Obligations.WalkIsRepeatedDispatch : Prop :=
  (∀ (s : State) (first : Byte) (b : Bytes) (o : Nat) (w : Walker), s.cmd = none →
    walk first b o = .ok w →
    core.run w.chain.length { s with walker := Walker.start first b o } =
      .next { s with walker := w } ∧
    fetch { s with walker := w } = none) ∧
  (∀ (s : State) (first : Byte) (b : Bytes) (o : Nat) (t : Trap), s.cmd = none →
    walk first b o = .error t →
    ∃ (k : Kind) (v : Walker), v.buf = b ∧ v.off = o ∧ v.pos ≤ b.length ∧
      core.run v.chain.length { s with walker := Walker.start first b o } =
        .next { s with walker := v } ∧
      v.cur = some (idOf k) ∧ t = .malformed (.ext k) (o + v.pos) ∧
      decInto k v.slots (b.drop v.pos) (o + v.pos) = .error t ∧
      step { s with walker := v } =
        .next (faulted { s with walker := Walker.idle } (kindIndex k + 2) 1 (o + v.pos)))

/-! ### The packet codec -/

/-- R293, R295: FIX_DEC and FIX_ENC. -/
def Obligations.FixedHeaderCommandsResult : Prop :=
  encode .fixDec = .cmd 0x00000050 ∧ encode .fixEnc = .cmd 0x00000051 ∧
  ∀ s : State,
    let o := s.arg0.toNat
    let n := s.arg1.toNat
    let f := ibufFixed s o
    let e := be32 s.fix.w0 ++ be16 s.fix.plen ++ [s.fix.nxt, s.fix.hlim] ++ s.fix.src.val ++
      s.fix.dst.val
    (s.params.ibufSize < o + n → exec .fixDec s = .next (faulted s 0 3 0)) ∧
    (o + n ≤ s.params.ibufSize → (n < 40 ∨ (f.plen ≠ 0 ∧ n < 40 + f.plen.toNat)) →
      exec .fixDec s = .next (faulted s 1 1 o)) ∧
    (o + n ≤ s.params.ibufSize → 40 ≤ n → (f.plen ≠ 0 → 40 + f.plen.toNat ≤ n) →
      exec .fixDec s = .next (completed s { s with
        fix := f
        res0 := BitVec.ofNat 32 (o + 40)
        res1 := BitVec.ofNat 32 (workLen f n) } 0)) ∧
    (s.olen.toNat + 40 ≤ s.params.obufSize →
      exec .fixEnc s = .next (completed s { appended s e with res0 := 40 } 0)) ∧
    (s.params.obufSize < s.olen.toNat + 40 → exec .fixEnc s = .next (faulted s 0 4 0))

/-- R299, R297: PKT_DEC, with the four outcomes of the upper-layer resolution: no terminal id, registry
miss, decoder failed, decoded. -/
def Obligations.PacketDecodeResult : Prop :=
  encode .pktDec = .cmd 0x00000052 ∧
  ∀ (s : State) (w : Walker) (pl : Payload) (why : Nat),
    let o := s.arg0.toNat
    let n := s.arg1.toNat
    let f := ibufFixed s o
    let rem := s.ibufBytes (o + 40 + w.pos) (workLen f n - w.pos)
    o + n ≤ s.params.ibufSize → 40 ≤ n → (f.plen ≠ 0 → 40 + f.plen.toNat ≤ n) →
    walk f.nxt (s.ibufBytes (o + 40) (workLen f n)) (o + 40) = .ok w →
    ((w.cur = none ∧ pl = .raw rem ∧ why = 3) ∨
      (∃ p, w.cur = some p ∧ s.codec.lookup p = false ∧ pl = .raw rem ∧ why = 1) ∨
      (∃ p, w.cur = some p ∧ s.codec.lookup p = true ∧ s.codec.decode p rem = none ∧ pl = .raw rem ∧
        why = 2) ∨
      (∃ p h, w.cur = some p ∧ s.codec.lookup p = true ∧ s.codec.decode p rem = some h ∧ pl = .obj h ∧
        why = 0)) →
    exec .pktDec s = .next (completed s { s with
      fix := f
      slots := w.slots
      chain := w.chain
      ulp := w.cur
      payload := pl
      res0 := (match w.cur with
        | some p => byteRes p
        | none => 0xFFFFFFFF)
      res1 := BitVec.ofNat 32 (o + 40 + w.pos)
      res2 := BitVec.ofNat 32 (workLen f n - w.pos)
      res3 := BitVec.ofNat 32 w.chain.length } (if why = 0 then 0 else 2 ^ 8 + 2 ^ 9 * why))

/-- A header that fails in the walk of a packet is reported with its own kind and IBUF offset, and
the packet context keeps every value (R298). -/
def Obligations.PacketDecodeFaultKeepsPacket : Prop :=
  ∀ (s : State) (k : Kind) (off : Nat),
    let o := s.arg0.toNat
    let n := s.arg1.toNat
    let f := ibufFixed s o
    o + n ≤ s.params.ibufSize → 40 ≤ n → (f.plen ≠ 0 → 40 + f.plen.toNat ≤ n) →
    walk f.nxt (s.ibufBytes (o + 40) (workLen f n)) (o + 40) = .error (.malformed (.ext k) off) →
    exec .pktDec s = .next (faulted s (kindIndex k + 2) 1 off)

/-- R303, R300, R301: PKT_ENC: the fix-up's payload, the fixed header, the valid slots in canonical
order, the payload bytes; CHAIN is not read. -/
def Obligations.PacketEncodeResult : Prop :=
  encode .pktEnc = .cmd 0x00000053 ∧
  ∀ (s : State) (r : FixupResult),
    let ss := s.slots
    let e := encFixed s.fix ++ ifValid ss.hop.valid (encOpts ss.hop) ++ ifValid ss.rt.valid (encRt ss.rt)
      ++ ifValid ss.frag.valid (encFrag ss.frag) ++ ifValid ss.ah.valid (encAh ss.ah)
      ++ ifValid ss.esp.valid (encEsp ss.esp) ++ ifValid ss.dst.valid (encOpts ss.dst)
      ++ (match r.payload with
        | .raw b => b
        | .obj h => s.codec.serialize h)
    fixup s.codec s.ulp s.payload s.fix.src s.fix.dst = .ok r →
    s.olen.toNat + e.length ≤ s.params.obufSize →
    exec .pktEnc s = .next (completed s { appended s e with
      payload := r.payload
      res0 := BitVec.ofNat 32 e.length
      res1 := (match r.csum with
        | some c => BitVec.ofNat 32 c.toNat
        | none => 0) }
      ((if r.written then 2 ^ 11 else 0) + (if r.skipped then 2 ^ 12 else 0)))

/-- R304: the round-trip law. PKT_ENC on the state PKT_DEC leaves, with OLEN = 0, gives back the
region's bytes, under the rule's five conditions (CHAIN in canonical order with no kind twice is a
strictly rising kind index), where the output fits OBUF. -/
def Obligations.PacketRoundTrip : Prop :=
  ∀ (s t : State) (r : FixupResult), exec .pktDec s = .next t → statusCause t.status = 0 →
    let n := s.arg1.toNat
    let b := s.ibufBytes s.arg0.toNat n
    let rem := s.ibufBytes t.res1.toNat t.res2.toNat
    s.params.ibufSize < 2 ^ 32 →
    (t.fix.plen = 0 ∨ n = 40 + t.fix.plen.toNat) →
    ((t.chain.filterMap kindOf).map kindIndex).Pairwise (· < ·) →
    payloadBytes t.codec t.payload = rem →
    fixup t.codec t.ulp t.payload t.fix.src t.fix.dst = .ok r →
    payloadBytes t.codec r.payload = rem →
    n ≤ t.params.obufSize →
    ∃ u, exec .pktEnc { t with olen := 0 } = .next u ∧ u.obufBytes 0 n = b ∧ u.res0 = s.arg1

/-! ### The checksum combiner -/

/-- R342, R341: CSUM_PSEUDO gives the folded sum of the pseudo-header, CSUM_COMPUTE the complement of
the folded sum of the pseudo-header and the region; both raise CsumLengthRange past 0xFFFF, the
region checked first. -/
def Obligations.ChecksumCommandsResult : Prop :=
  encode .csumPseudo = .cmd 0x00000060 ∧ encode .csumCompute = .cmd 0x00000061 ∧
  ∀ s : State,
    let p := BitVec.ofNat 8 s.arg0.toNat
    let ph := fun (n : Word) => s.fix.src.val ++ s.fix.dst.val ++ [0, p] ++
      [BitVec.ofNat 8 (n.toNat / 2 ^ 8), BitVec.ofNat 8 n.toNat]
    (s.arg1.toNat ≤ 0xFFFF →
      exec .csumPseudo s = .next (completed s { s with
        res0 := BitVec.ofNat 32 (ocsum (ph s.arg1)) } 0)) ∧
    (0xFFFF < s.arg1.toNat → exec .csumPseudo s = .next (faulted s 0 5 0)) ∧
    (s.arg1.toNat + s.arg2.toNat ≤ s.params.ibufSize → s.arg2.toNat ≤ 0xFFFF →
      exec .csumCompute s = .next (completed s { s with
        res0 := BitVec.ofNat 32
          (0xFFFF - ocsum (ph s.arg2 ++ s.ibufBytes s.arg1.toNat s.arg2.toNat)) } 0)) ∧
    (s.arg1.toNat + s.arg2.toNat ≤ s.params.ibufSize → 0xFFFF < s.arg2.toNat →
      exec .csumCompute s = .next (faulted s 0 5 0)) ∧
    (s.params.ibufSize < s.arg1.toNat + s.arg2.toNat →
      exec .csumCompute s = .next (faulted s 0 3 0))

/-- R340, R333, R334: CSUM_FIXUP in each of its cases: another id or none; a payload with no checksum
field; a field that is not zero; a field that is zero, with a serialization that is too long for the
pseudo-header's length, or is not. -/
def Obligations.ChecksumFixupResult : Prop :=
  encode .csumFixup = .cmd 0x00000062 ∧
  ∀ s : State,
    let u := s.codec
    ((∀ p, s.ulp = some p → p ≠ 6 ∧ p ≠ 17 ∧ p ≠ 58) →
      exec .csumFixup s = .next (completed s { s with res0 := 0 } 0)) ∧
    (∀ p, s.ulp = some p → p = 6 ∨ p = 17 ∨ p = 58 →
      ((∃ b, s.payload = .raw b) ∨ (∃ h, s.payload = .obj h ∧ u.hasCsum h = false) →
        exec .csumFixup s = .next (completed s { s with res0 := 0 } (2 ^ 12))) ∧
      (∀ h, s.payload = .obj h → u.hasCsum h = true → u.getCsum h ≠ 0 →
        exec .csumFixup s = .next (completed s { s with res0 := 0 } 0)) ∧
      (∀ h, s.payload = .obj h → u.hasCsum h = true → u.getCsum h = 0 →
        0xFFFF < (u.serialize h).length → exec .csumFixup s = .next (faulted s 0 5 0)) ∧
      (∀ h, s.payload = .obj h → u.hasCsum h = true → u.getCsum h = 0 →
        (u.serialize h).length ≤ 0xFFFF →
        let q := u.serialize h
        let c := cksum (pseudo s.fix.src s.fix.dst p q.length ++ q)
        exec .csumFixup s = .next (completed s { s with
          payload := .obj (u.setCsum h c)
          res0 := BitVec.ofNat 32 c.toNat } (2 ^ 11))))

/-- R408, R335: a payload whose serialization is longer than 0xFFFF bytes makes the fix-up raise
CsumLengthRange, in CSUM_FIXUP and, before the output size is looked at, in PKT_ENC. -/
def Obligations.ChecksumLengthRangeFaults : Prop :=
  ∀ (s : State) (p : Byte) (h : Obj), s.ulp = some p → p = 6 ∨ p = 17 ∨ p = 58 →
    s.payload = .obj h → s.codec.hasCsum h = true → s.codec.getCsum h = 0 →
    0xFFFF < (s.codec.serialize h).length →
    exec .csumFixup s = .next (faulted s 0 5 0) ∧ exec .pktEnc s = .next (faulted s 0 5 0)

/-- R330, R331: the folded sum is a 16-bit value congruent to the sum of the big-endian words modulo
0xFFFF, zero only for a zero sum; the checksum is its complement. -/
def Obligations.FoldedSumIsOnesComplement : Prop :=
  ∀ x : Bytes, ocsum x ≤ 0xFFFF ∧ ocsum x % 0xFFFF = sumWords x % 0xFFFF ∧
    (ocsum x = 0 ↔ sumWords x = 0) ∧ (cksum x).toNat = 0xFFFF - ocsum x

/-- R338: the combining law for a first part of even length. -/
def Obligations.ChecksumCombiningLaw : Prop :=
  (∀ x y : Bytes, x.length % 2 = 0 → ocsum (x ++ y) = fold (ocsum x + ocsum y)) ∧
  (∀ (src dst : Bytes16) (p : Byte) (n : Nat) (q : Bytes),
    (cksum (pseudo src dst p n ++ q)).toNat =
      0xFFFF - fold (ocsum (pseudo src dst p n) + ocsum q))

/-- R337: the 36-byte pseudo-header sums like the 40-byte one of RFC 8200. -/
def Obligations.PseudoHeaderEquivalence : Prop :=
  ∀ (src dst : Bytes16) (p : Byte) (n : Nat) (q : Bytes), n ≤ 0xFFFF →
    ocsum (pseudo src dst p n ++ q) =
      ocsum (src.val ++ dst.val ++ be32 (BitVec.ofNat 32 n) ++ [0, 0, 0, p] ++ q)

/-- R339: the verification law: where setting the checksum replaces a zero word at an even offset of
the serialization, the payload after a fix-up sums with its pseudo-header to 0xFFFF. -/
def Obligations.FixupVerifies : Prop :=
  ∀ (u : Ulc) (p : Byte) (h : Obj) (src dst : Bytes16) (r : FixupResult) (c : Half) (j : Nat),
    p = 6 ∨ p = 17 ∨ p = 58 →
    fixup u (some p) (.obj h) src dst = .ok r → r.csum = some c →
    2 * j + 2 ≤ (u.serialize h).length → rd16 (u.serialize h) (2 * j) = 0 →
    u.serialize (u.setCsum h c) = putBe16 (u.serialize h) (2 * j) c →
    ocsum (pseudo src dst p (u.serialize (u.setCsum h c)).length ++ u.serialize (u.setCsum h c)) =
      0xFFFF

/-! ### The host -/

/-- R54, R55: the register map. Which field each address reads, the bits outside the field 0; what a
write of each address stores, masked to the field, everything else as it was (word i of SRC and DST is
its bytes 4i to 4i+3, most significant first); a write of a read-only or an unlisted address changes
nothing, CMD and an unlisted address read 0; so a read of what was written gives it back, masked. (The
write of CMD is HostTurnAndCommandIssue's.) -/
def Obligations.HostRegisterAccess : Prop :=
  (∀ s : State,
    hostRead s 0x000 = 0 ∧
    hostRead s 0x004 = s.status ∧
    hostRead s 0x008 = s.faultOff ∧
    hostRead s 0x00C = s.olen ∧
    hostRead s 0x010 = s.arg0 ∧
    hostRead s 0x014 = s.arg1 ∧
    hostRead s 0x018 = s.arg2 ∧
    hostRead s 0x01C = s.arg3 ∧
    hostRead s 0x020 = s.res0 ∧
    hostRead s 0x024 = s.res1 ∧
    hostRead s 0x028 = s.res2 ∧
    hostRead s 0x02C = s.res3 ∧
    hostRead s 0x040 = s.fix.w0 ∧
    hostRead s 0x044 = BitVec.ofNat 32 s.fix.plen.toNat ∧
    hostRead s 0x048 = BitVec.ofNat 32 s.fix.nxt.toNat ∧
    hostRead s 0x04C = BitVec.ofNat 32 s.fix.hlim.toNat ∧
    hostRead s 0x100 = (if s.slots.hop.valid then 1 else 0) ∧
    hostRead s 0x104 = BitVec.ofNat 32 s.slots.hop.nxt.toNat ∧
    hostRead s 0x108 = BitVec.ofNat 32 s.slots.hop.hel.toNat ∧
    hostRead s 0x140 = (if s.slots.rt.valid then 1 else 0) ∧
    hostRead s 0x144 = BitVec.ofNat 32 s.slots.rt.nxt.toNat ∧
    hostRead s 0x148 = BitVec.ofNat 32 s.slots.rt.hel.toNat ∧
    hostRead s 0x14C = BitVec.ofNat 32 s.slots.rt.rtype.toNat ∧
    hostRead s 0x150 = BitVec.ofNat 32 s.slots.rt.segleft.toNat ∧
    hostRead s 0x154 = s.slots.rt.rtw ∧
    hostRead s 0x180 = (if s.slots.frag.valid then 1 else 0) ∧
    hostRead s 0x184 = BitVec.ofNat 32 s.slots.frag.nxt.toNat ∧
    hostRead s 0x188 = BitVec.ofNat 32 s.slots.frag.rsvd.toNat ∧
    hostRead s 0x18C = BitVec.ofNat 32 s.slots.frag.fragw.toNat ∧
    hostRead s 0x190 = s.slots.frag.ident ∧
    hostRead s 0x1C0 = (if s.slots.ah.valid then 1 else 0) ∧
    hostRead s 0x1C4 = BitVec.ofNat 32 s.slots.ah.nxt.toNat ∧
    hostRead s 0x1C8 = BitVec.ofNat 32 s.slots.ah.plen.toNat ∧
    hostRead s 0x1CC = BitVec.ofNat 32 s.slots.ah.rsvd.toNat ∧
    hostRead s 0x1D0 = s.slots.ah.spi ∧
    hostRead s 0x1D4 = s.slots.ah.seq ∧
    hostRead s 0x200 = (if s.slots.esp.valid then 1 else 0) ∧
    hostRead s 0x210 = s.slots.esp.spi ∧
    hostRead s 0x214 = s.slots.esp.seq ∧
    hostRead s 0x240 = (if s.slots.dst.valid then 1 else 0) ∧
    hostRead s 0x244 = BitVec.ofNat 32 s.slots.dst.nxt.toNat ∧
    hostRead s 0x248 = BitVec.ofNat 32 s.slots.dst.hel.toNat ∧
    hostRead s 0x050 = (match s.ulp with
      | some p => BitVec.ofNat 32 (2 ^ 8 + p.toNat)
      | none => 0) ∧
    (∀ i, i < 4 → hostRead s (0x060 + 4 * i) = wordOf16 s.fix.src i ∧
      hostRead s (0x070 + 4 * i) = wordOf16 s.fix.dst i)) ∧
  (∀ (s : State) (v : Word),
    hostWrite s 0x00C v = { s with olen := v } ∧
    hostWrite s 0x010 v = { s with arg0 := v } ∧
    hostWrite s 0x014 v = { s with arg1 := v } ∧
    hostWrite s 0x018 v = { s with arg2 := v } ∧
    hostWrite s 0x01C v = { s with arg3 := v } ∧
    hostWrite s 0x040 v = { s with fix := { s.fix with w0 := v } } ∧
    hostWrite s 0x044 v = { s with fix := { s.fix with plen := BitVec.ofNat 16 v.toNat } } ∧
    hostWrite s 0x048 v = { s with fix := { s.fix with nxt := BitVec.ofNat 8 v.toNat } } ∧
    hostWrite s 0x04C v = { s with fix := { s.fix with hlim := BitVec.ofNat 8 v.toNat } } ∧
    hostWrite s 0x050 v =
      { s with ulp := if v.toNat / 2 ^ 8 % 2 = 1 then some (BitVec.ofNat 8 v.toNat) else none } ∧
    hostWrite s 0x100 v =
      { s with slots := { s.slots with hop := { s.slots.hop with valid := decide (v.toNat % 2 = 1) } } } ∧
    hostWrite s 0x104 v =
      { s with slots := { s.slots with hop := { s.slots.hop with nxt := BitVec.ofNat 8 v.toNat } } } ∧
    hostWrite s 0x108 v =
      { s with slots := { s.slots with hop := { s.slots.hop with hel := BitVec.ofNat 8 v.toNat } } } ∧
    hostWrite s 0x140 v =
      { s with slots := { s.slots with rt := { s.slots.rt with valid := decide (v.toNat % 2 = 1) } } } ∧
    hostWrite s 0x144 v =
      { s with slots := { s.slots with rt := { s.slots.rt with nxt := BitVec.ofNat 8 v.toNat } } } ∧
    hostWrite s 0x148 v =
      { s with slots := { s.slots with rt := { s.slots.rt with hel := BitVec.ofNat 8 v.toNat } } } ∧
    hostWrite s 0x14C v =
      { s with slots := { s.slots with rt := { s.slots.rt with rtype := BitVec.ofNat 8 v.toNat } } } ∧
    hostWrite s 0x150 v =
      { s with slots := { s.slots with rt := { s.slots.rt with segleft := BitVec.ofNat 8 v.toNat } } } ∧
    hostWrite s 0x154 v =
      { s with slots := { s.slots with rt := { s.slots.rt with rtw := v } } } ∧
    hostWrite s 0x180 v =
      { s with slots := { s.slots with frag := { s.slots.frag with valid := decide (v.toNat % 2 = 1) } } } ∧
    hostWrite s 0x184 v =
      { s with slots := { s.slots with frag := { s.slots.frag with nxt := BitVec.ofNat 8 v.toNat } } } ∧
    hostWrite s 0x188 v =
      { s with slots := { s.slots with frag := { s.slots.frag with rsvd := BitVec.ofNat 8 v.toNat } } } ∧
    hostWrite s 0x18C v =
      { s with slots := { s.slots with frag := { s.slots.frag with fragw := BitVec.ofNat 16 v.toNat } } } ∧
    hostWrite s 0x190 v =
      { s with slots := { s.slots with frag := { s.slots.frag with ident := v } } } ∧
    hostWrite s 0x1C0 v =
      { s with slots := { s.slots with ah := { s.slots.ah with valid := decide (v.toNat % 2 = 1) } } } ∧
    hostWrite s 0x1C4 v =
      { s with slots := { s.slots with ah := { s.slots.ah with nxt := BitVec.ofNat 8 v.toNat } } } ∧
    hostWrite s 0x1C8 v =
      { s with slots := { s.slots with ah := { s.slots.ah with plen := BitVec.ofNat 8 v.toNat } } } ∧
    hostWrite s 0x1CC v =
      { s with slots := { s.slots with ah := { s.slots.ah with rsvd := BitVec.ofNat 16 v.toNat } } } ∧
    hostWrite s 0x1D0 v =
      { s with slots := { s.slots with ah := { s.slots.ah with spi := v } } } ∧
    hostWrite s 0x1D4 v =
      { s with slots := { s.slots with ah := { s.slots.ah with seq := v } } } ∧
    hostWrite s 0x200 v =
      { s with slots := { s.slots with esp := { s.slots.esp with valid := decide (v.toNat % 2 = 1) } } } ∧
    hostWrite s 0x210 v =
      { s with slots := { s.slots with esp := { s.slots.esp with spi := v } } } ∧
    hostWrite s 0x214 v =
      { s with slots := { s.slots with esp := { s.slots.esp with seq := v } } } ∧
    hostWrite s 0x240 v =
      { s with slots := { s.slots with dst := { s.slots.dst with valid := decide (v.toNat % 2 = 1) } } } ∧
    hostWrite s 0x244 v =
      { s with slots := { s.slots with dst := { s.slots.dst with nxt := BitVec.ofNat 8 v.toNat } } } ∧
    hostWrite s 0x248 v =
      { s with slots := { s.slots with dst := { s.slots.dst with hel := BitVec.ofNat 8 v.toNat } } } ∧
    (∀ i, i < 4 → ∃ x : Bytes16, hostWrite s (0x060 + 4 * i) v = { s with fix := { s.fix with src := x } } ∧
      x.val = s.fix.src.val.take (4 * i) ++ beWord v ++ s.fix.src.val.drop (4 * i + 4)) ∧
    (∀ i, i < 4 → ∃ x : Bytes16, hostWrite s (0x070 + 4 * i) v = { s with fix := { s.fix with dst := x } } ∧
      x.val = s.fix.dst.val.take (4 * i) ++ beWord v ++ s.fix.dst.val.drop (4 * i + 4))) ∧
  (∀ (s : State) (v : Word),
    (∀ a ∈ [0x00C, 0x010, 0x014, 0x018, 0x01C, 0x040, 0x060, 0x064, 0x068, 0x06C, 0x070, 0x074, 0x078,
        0x07C, 0x154, 0x190, 0x1D0, 0x1D4, 0x210, 0x214], hostRead (hostWrite s a v) a = v) ∧
    (∀ a ∈ [0x044, 0x18C, 0x1CC],
      hostRead (hostWrite s a v) a = BitVec.ofNat 32 (v.toNat % 2 ^ 16)) ∧
    (∀ a ∈ [0x048, 0x04C, 0x104, 0x108, 0x144, 0x148, 0x14C, 0x150, 0x184, 0x188, 0x1C4, 0x1C8, 0x244,
        0x248], hostRead (hostWrite s a v) a = BitVec.ofNat 32 (v.toNat % 2 ^ 8)) ∧
    (∀ a ∈ [0x100, 0x140, 0x180, 0x1C0, 0x200, 0x240],
      hostRead (hostWrite s a v) a = BitVec.ofNat 32 (v.toNat % 2)) ∧
    hostRead (hostWrite s 0x050 v) 0x050 =
      (if v.getLsbD 8 then BitVec.ofNat 32 (2 ^ 8 + v.toNat % 2 ^ 8) else 0) ∧
    (∀ a ∈ [0x004, 0x008, 0x020, 0x024, 0x028, 0x02C], hostWrite s a v = s) ∧
    hostRead s 0x000 = 0) ∧
  (∀ (s : State) (v : Word) (a : Nat),
    a ∉ [0x000, 0x004, 0x008, 0x00C, 0x010, 0x014, 0x018, 0x01C, 0x020, 0x024, 0x028, 0x02C, 0x040,
      0x044, 0x048, 0x04C, 0x050, 0x060, 0x064, 0x068, 0x06C, 0x070, 0x074, 0x078, 0x07C, 0x100, 0x104,
      0x108, 0x140, 0x144, 0x148, 0x14C, 0x150, 0x154, 0x180, 0x184, 0x188, 0x18C, 0x190, 0x1C0, 0x1C4,
      0x1C8, 0x1CC, 0x1D0, 0x1D4, 0x200, 0x210, 0x214, 0x240, 0x244, 0x248] →
    hostWrite s a v = s ∧ hostRead s a = 0)

/-- R31, R417: a step of one instance leaves every other instance as it was, and the instances keep
sharing one codec, and their free buffer bytes apart (log entry 12). -/
def Obligations.InstancesAreIndependent : Prop :=
  ∀ (sys sys' : System) (j : Nat), systemStep sys j = some sys' →
    (∀ k, k ≠ j → sys'[k]? = sys[k]?) ∧ (sharedCodec sys → sharedCodec sys') ∧
    (unitsApart sys → unitsApart sys')
end

