-- ==== Sys2Proof/Laws/Bytes.lean ====
section
/-! SUPPORT. Byte sequences: slices join, and each big-endian reader undoes the writer. -/

namespace Sys2Proof.Machine

/-- `b[i]` inside the sequence. -/
theorem byteAt_of_lt {b : Bytes} {i : Nat} (h : i < b.length) : byteAt b i = b[i] := by
  simp [byteAt, List.getD, h]

theorem slice_length {b : Bytes} {i j : Nat} (hj : j ≤ b.length) :
    (slice b i j).length = j - i := by
  simp [slice]; omega

theorem slice_append {b : Bytes} {i j k : Nat} (h1 : i ≤ j) (h2 : j ≤ k) :
    slice b i j ++ slice b j k = slice b i k := by
  obtain ⟨m, rfl⟩ := Nat.exists_eq_add_of_le h1
  obtain ⟨n, rfl⟩ := Nat.exists_eq_add_of_le h2
  have e1 : i + m - i = m := by omega
  have e2 : i + m + n - (i + m) = n := by omega
  have e3 : i + m + n - i = m + n := by omega
  rw [slice, slice, slice, e1, e2, e3, ← List.drop_drop]
  exact List.take_add.symm

theorem slice_zero (b : Bytes) (l : Nat) : slice b 0 l = b.take l := by simp [slice]

theorem slice_one {b : Bytes} {i : Nat} (h : i < b.length) : slice b i (i + 1) = [byteAt b i] := by
  simp only [slice, Nat.add_sub_cancel_left, byteAt_of_lt h]
  rw [List.drop_eq_getElem_cons h]; rfl

theorem slice_cons {b : Bytes} {i j : Nat} (h : i < b.length) (hj : i + 1 ≤ j) :
    slice b i j = byteAt b i :: slice b (i + 1) j := by
  rw [← slice_append (Nat.le_succ i) hj, Nat.succ_eq_add_one, slice_one h]; rfl

theorem slice_self (b : Bytes) (i : Nat) : slice b i i = [] := by simp [slice]

theorem slice_right (x y : Bytes) (i j : Nat) (h : x.length = i) (hj : (x ++ y).length = j) :
    slice (x ++ y) i j = y := by
  subst h; subst hj
  simp [slice]

theorem head2 {b : Bytes} (h : 2 ≤ b.length) : [byteAt b 0, byteAt b 1] = slice b 0 2 := by
  rw [slice_cons (by omega) (by omega), slice_cons (by omega) (by omega), slice_self]

theorem head4 {b : Bytes} (h : 4 ≤ b.length) :
    [byteAt b 0, byteAt b 1, byteAt b 2, byteAt b 3] = slice b 0 4 := by
  rw [slice_cons (by omega) (by omega), slice_cons (by omega) (by omega),
    slice_cons (by omega) (by omega), slice_cons (by omega) (by omega), slice_self]

theorem be16_rd16 (b : Bytes) (i : Nat) : be16 (rd16 b i) = [byteAt b i, byteAt b (i + 1)] := by
  have h1 := (byteAt b i).isLt
  have h2 := (byteAt b (i + 1)).isLt
  simp only [be16, List.cons.injEq, and_true]
  constructor <;> apply BitVec.eq_of_toNat_eq <;>
    simp only [rd16, BitVec.extractLsb'_toNat, BitVec.toNat_ofNat, Nat.shiftRight_eq_div_pow] <;> omega

theorem be32_rd32 (b : Bytes) (i : Nat) :
    be32 (rd32 b i) = [byteAt b i, byteAt b (i + 1), byteAt b (i + 2), byteAt b (i + 3)] := by
  have h1 := (byteAt b i).isLt
  have h2 := (byteAt b (i + 1)).isLt
  have h3 := (byteAt b (i + 2)).isLt
  have h4 := (byteAt b (i + 3)).isLt
  simp only [be32, List.cons.injEq, and_true]
  refine ⟨?_, ?_, ?_, ?_⟩ <;> apply BitVec.eq_of_toNat_eq <;>
    simp only [rd32, BitVec.extractLsb'_toNat, BitVec.toNat_ofNat, Nat.shiftRight_eq_div_pow] <;> omega

theorem be16_rd16_slice {b : Bytes} {i : Nat} (h : i + 2 ≤ b.length) :
    be16 (rd16 b i) = slice b i (i + 2) := by
  rw [be16_rd16, slice_cons (by omega) (by omega), slice_cons (by omega) (by omega), slice_self]

theorem be32_rd32_slice {b : Bytes} {i : Nat} (h : i + 4 ≤ b.length) :
    be32 (rd32 b i) = slice b i (i + 4) := by
  rw [be32_rd32, slice_cons (by omega) (by omega), slice_cons (by omega) (by omega),
    slice_cons (by omega) (by omega), slice_cons (by omega) (by omega), slice_self]

theorem rd16_be16 (v : Half) (x y : Bytes) (i : Nat) (h : x.length = i) :
    rd16 (x ++ be16 v ++ y) i = v := by
  subst h
  have h0 : byteAt (x ++ be16 v ++ y) x.length = v.extractLsb' 8 8 := by simp [byteAt, be16]
  have h1 : byteAt (x ++ be16 v ++ y) (x.length + 1) = v.extractLsb' 0 8 := by
    simp [byteAt, be16]
  apply BitVec.eq_of_toNat_eq
  have := v.isLt
  simp only [rd16, h0, h1, BitVec.extractLsb'_toNat, BitVec.toNat_ofNat, Nat.shiftRight_eq_div_pow]
  omega

theorem rd32_be32 (v : Word) (x y : Bytes) (i : Nat) (h : x.length = i) :
    rd32 (x ++ be32 v ++ y) i = v := by
  subst h
  have h0 : byteAt (x ++ be32 v ++ y) x.length = v.extractLsb' 24 8 := by simp [byteAt, be32]
  have h1 : byteAt (x ++ be32 v ++ y) (x.length + 1) = v.extractLsb' 16 8 := by
    simp [byteAt, be32]
  have h2 : byteAt (x ++ be32 v ++ y) (x.length + 2) = v.extractLsb' 8 8 := by
    simp [byteAt, be32]
  have h3 : byteAt (x ++ be32 v ++ y) (x.length + 3) = v.extractLsb' 0 8 := by
    simp [byteAt, be32]
  apply BitVec.eq_of_toNat_eq
  have := v.isLt
  simp only [rd32, h0, h1, h2, h3, BitVec.extractLsb'_toNat, BitVec.toNat_ofNat, Nat.shiftRight_eq_div_pow]
  omega

theorem bytes16_val (f : Nat → Byte) : (bytes16 f).val = (List.range 16).map f := rfl

theorem bytes16_congr {f g : Nat → Byte} (h : ∀ j, j < 16 → f j = g j) : bytes16 f = bytes16 g :=
  Subtype.ext (List.map_congr_left (fun j hj => h j (List.mem_range.1 hj)))

theorem addrAt_val {b : Bytes} {i : Nat} (h : i + 16 ≤ b.length) :
    (addrAt b i).val = slice b i (i + 16) := by
  apply List.ext_getElem
  · rw [slice_length h]; simp [addrAt, bytes16]
  · intro n h1 h2
    have hn : n < 16 := by simpa [addrAt, bytes16] using h1
    simp only [addrAt, bytes16, List.getElem_map, List.getElem_range, slice, List.getElem_take, List.getElem_drop]
    rw [byteAt_of_lt (by omega)]

theorem addrAt_eq (a : Bytes16) (x y : Bytes) (i : Nat) (h : x.length = i) :
    addrAt (x ++ a.val ++ y) i = a := by
  apply Subtype.ext
  have ha := a.property
  rw [addrAt_val (by simp; omega), slice]
  subst h
  simp [← ha]

theorem byteAt_shift (x r : Bytes) (i : Nat) : byteAt (x ++ r) (x.length + i) = byteAt r i := by
  simp [byteAt, List.getElem?_append_right]

theorem slice_shift (x r : Bytes) (i j : Nat) :
    slice (x ++ r) (x.length + i) (x.length + j) = slice r i j := by
  simp [slice, ← List.drop_drop, Nat.add_sub_add_left]

theorem ext_toNat {w : Nat} (x : BitVec w) (a b : Nat) :
    (x.extractLsb' a b).toNat = x.toNat / 2 ^ a % 2 ^ b := by
  simp [Nat.shiftRight_eq_div_pow]

end Sys2Proof.Machine
end

