-- ==== Sys2Proof/Laws/Memory.lean ====
section
/-! SUPPORT. The byte memories: every operation keeps the canonical form and the size bound, a read
after a write gives the byte written, and a write leaves every other address alone. -/

namespace Sys2Proof.Machine

/-- Every address of a memory is above `a`. -/
def Memory.above (a : Nat) (m : Memory) : Prop := ∀ c ∈ m, a < c.1

theorem Memory.wf_cons (a : Nat) (v : Byte) (m : Memory) :
    Memory.wf ((a, v) :: m) = true ↔ Memory.above a m ∧ Memory.wf m = true := by
  induction m generalizing a v with
  | nil => simp [Memory.wf, Memory.above]
  | cons c r ih =>
    obtain ⟨b, w⟩ := c
    simp only [Memory.wf, Bool.and_eq_true, decide_eq_true_eq, ih, Memory.above, List.mem_cons]
    constructor
    · rintro ⟨hab, hr, hw⟩
      refine ⟨?_, hr, hw⟩
      rintro c (rfl | hc)
      · exact hab
      · exact lt_trans hab (hr c hc)
    · rintro ⟨h, hr, hw⟩
      exact ⟨h (b, w) (Or.inl rfl), hr, hw⟩

theorem Memory.write_above {a x : Nat} {v : Byte} {m : Memory} (hm : Memory.above x m) (hx : x < a) :
    Memory.above x (Memory.write m a v) := by
  induction m with
  | nil => simpa [Memory.write, Memory.above] using hx
  | cons c r ih =>
    obtain ⟨b, w⟩ := c
    have hb : x < b := hm (b, w) (by simp)
    have hr : Memory.above x r := fun d hd => hm d (by simp [hd])
    unfold Memory.write
    split_ifs
    · intro d hd
      rcases List.mem_cons.1 hd with rfl | hd
      · exact hx
      · exact hm d hd
    · intro d hd
      rcases List.mem_cons.1 hd with rfl | hd
      · exact hx
      · exact hr d hd
    · intro d hd
      rcases List.mem_cons.1 hd with rfl | hd
      · exact hb
      · exact ih hr d hd

/-- A write keeps the canonical form. -/
theorem Memory.write_wf {m : Memory} (h : Memory.wf m = true) (a : Nat) (v : Byte) :
    Memory.wf (Memory.write m a v) = true := by
  induction m with
  | nil => rfl
  | cons c r ih =>
    obtain ⟨b, w⟩ := c
    obtain ⟨hb, hr⟩ := (Memory.wf_cons b w r).1 h
    unfold Memory.write
    split_ifs with h1 h2
    · refine (Memory.wf_cons ..).2 ⟨?_, h⟩
      intro d hd
      rcases List.mem_cons.1 hd with rfl | hd
      · exact h1
      · exact lt_trans h1 (hb d hd)
    · subst h2
      exact (Memory.wf_cons ..).2 ⟨hb, hr⟩
    · exact (Memory.wf_cons ..).2 ⟨Memory.write_above hb (by omega), ih hr⟩

/-- Writing a byte sequence keeps the canonical form. -/
theorem Memory.writeBytes_wf {m : Memory} (h : Memory.wf m = true) (a : Nat) (e : Bytes) :
    Memory.wf (Memory.writeBytes m a e) = true := by
  induction e generalizing m a with
  | nil => exact h
  | cons b bs ih => exact ih (Memory.write_wf h a b) (a + 1)

theorem Memory.write_below {m : Memory} {n a : Nat} (h : Memory.below n m = true) (ha : a < n)
    (v : Byte) : Memory.below n (Memory.write m a v) = true := by
  induction m with
  | nil => simpa [Memory.write, Memory.below] using ha
  | cons c r ih =>
    obtain ⟨b, w⟩ := c
    have hbr : decide (b < n) = true ∧ Memory.below n r = true := by
      simpa [Memory.below] using h
    have hb : b < n := by simpa using hbr.1
    unfold Memory.write
    split_ifs
    · simpa [Memory.below, ha] using h
    · simpa [Memory.below, ha] using hbr.2
    · simpa [Memory.below, hb] using ih hbr.2

/-- Writing below a size keeps every address below it. -/
theorem Memory.writeBytes_below {m : Memory} {n : Nat} (h : Memory.below n m = true) (a : Nat)
    (e : Bytes) (he : a + e.length ≤ n) : Memory.below n (Memory.writeBytes m a e) = true := by
  induction e generalizing m a with
  | nil => exact h
  | cons b bs ih =>
    simp only [List.length_cons] at he
    exact ih (Memory.write_below h (by omega) b) (a + 1) (by omega)

theorem Memory.read?_cons (b : Nat) (w : Byte) (r : Memory) (x : Nat) :
    Memory.read? ((b, w) :: r) x = if x = b then some w else Memory.read? r x := by
  by_cases h : x = b
  · simp [Memory.read?, List.lookup, h]
  · have hb : (x == b) = false := by simpa using h
    simp [Memory.read?, List.lookup, h, hb]

/-- A read after a write: the byte written at its own address, the old one elsewhere. -/
theorem Memory.read?_write (m : Memory) (a : Nat) (v : Byte) (x : Nat) :
    Memory.read? (Memory.write m a v) x = if x = a then some v else Memory.read? m x := by
  induction m with
  | nil => simp [Memory.write, Memory.read?_cons]
  | cons c r ih =>
    obtain ⟨b, w⟩ := c
    unfold Memory.write
    by_cases h1 : a < b
    · simp [h1, Memory.read?_cons]
    · by_cases h2 : a = b
      · subst h2
        by_cases h : x = a <;> simp [Memory.read?_cons, h]
      · simp only [h1, h2, if_false, Memory.read?_cons, ih]
        by_cases h : x = b
        · have : ¬ x = a := by omega
          rw [if_pos h, if_neg this, if_pos h]
        · rw [if_neg h, if_neg h]

/-- A read after writing a byte sequence: its byte inside, the old byte outside. -/
theorem Memory.read?_writeBytes (m : Memory) (a : Nat) (e : Bytes) (x : Nat) :
    Memory.read? (Memory.writeBytes m a e) x =
      if a ≤ x ∧ x < a + e.length then e[x - a]? else Memory.read? m x := by
  induction e generalizing m a with
  | nil =>
    have : ¬ (a ≤ x ∧ x < a + 0) := by omega
    simp [Memory.writeBytes]
  | cons b bs ih =>
    simp only [Memory.writeBytes, ih, Memory.read?_write, List.length_cons]
    by_cases h1 : a + 1 ≤ x ∧ x < a + 1 + bs.length
    · have h2 : a ≤ x ∧ x < a + (bs.length + 1) := by omega
      obtain ⟨k, rfl⟩ : ∃ k, x = a + 1 + k := ⟨x - (a + 1), by omega⟩
      simp only [h1, h2, and_self, if_true]
      have e1 : a + 1 + k - a = k + 1 := by omega
      have e2 : a + 1 + k - (a + 1) = k := by omega
      rw [e1, e2]; rfl
    · simp only [h1, if_false]
      by_cases h3 : x = a
      · subst h3; simp
      · have h2 : ¬ (a ≤ x ∧ x < a + (bs.length + 1)) := by omega
        simp [h3, h2]

end Sys2Proof.Machine
end

