-- ==== Sys2Proof/Laws/State.lean ====
section
/-! SUPPORT. What each named update of the state writes and keeps: one lemma per field and update,
true by rfl, so that no proof unfolds a record update. -/

namespace Sys2Proof.Machine

/-! ### A command completed (`State.done`) -/

@[simp] theorem done_cmd (fl : DoneFlags) (s : State) : (s.done fl).cmd = s.cmd := rfl
@[simp] theorem done_arg0 (fl : DoneFlags) (s : State) : (s.done fl).arg0 = s.arg0 := rfl
@[simp] theorem done_arg1 (fl : DoneFlags) (s : State) : (s.done fl).arg1 = s.arg1 := rfl
@[simp] theorem done_arg2 (fl : DoneFlags) (s : State) : (s.done fl).arg2 = s.arg2 := rfl
@[simp] theorem done_arg3 (fl : DoneFlags) (s : State) : (s.done fl).arg3 = s.arg3 := rfl
@[simp] theorem done_res0 (fl : DoneFlags) (s : State) : (s.done fl).res0 = s.res0 := rfl
@[simp] theorem done_res1 (fl : DoneFlags) (s : State) : (s.done fl).res1 = s.res1 := rfl
@[simp] theorem done_res2 (fl : DoneFlags) (s : State) : (s.done fl).res2 = s.res2 := rfl
@[simp] theorem done_res3 (fl : DoneFlags) (s : State) : (s.done fl).res3 = s.res3 := rfl
@[simp] theorem done_status (fl : DoneFlags) (s : State) : (s.done fl).status = packStatus 0 0 fl (statusSticky s.status) := rfl
@[simp] theorem done_faultOff (fl : DoneFlags) (s : State) : (s.done fl).faultOff = 0 := rfl
@[simp] theorem done_olen (fl : DoneFlags) (s : State) : (s.done fl).olen = s.olen := rfl
@[simp] theorem done_scan (fl : DoneFlags) (s : State) : (s.done fl).scan = s.scan := rfl
@[simp] theorem done_fix (fl : DoneFlags) (s : State) : (s.done fl).fix = s.fix := rfl
@[simp] theorem done_slots (fl : DoneFlags) (s : State) : (s.done fl).slots = s.slots := rfl
@[simp] theorem done_ulp (fl : DoneFlags) (s : State) : (s.done fl).ulp = s.ulp := rfl
@[simp] theorem done_chain (fl : DoneFlags) (s : State) : (s.done fl).chain = s.chain := rfl
@[simp] theorem done_payload (fl : DoneFlags) (s : State) : (s.done fl).payload = s.payload := rfl
@[simp] theorem done_ibuf (fl : DoneFlags) (s : State) : (s.done fl).ibuf = s.ibuf := rfl
@[simp] theorem done_obuf (fl : DoneFlags) (s : State) : (s.done fl).obuf = s.obuf := rfl
@[simp] theorem done_walker (fl : DoneFlags) (s : State) : (s.done fl).walker = s.walker := rfl
@[simp] theorem done_host (fl : DoneFlags) (s : State) : (s.done fl).host = s.host := rfl
@[simp] theorem done_params (fl : DoneFlags) (s : State) : (s.done fl).params = s.params := rfl
@[simp] theorem done_resets (fl : DoneFlags) (s : State) : (s.done fl).resets = s.resets := rfl

/-! ### A command completed with a fault (`State.raise`) -/

@[simp] theorem raise_cmd (t : Trap) (s : State) : (s.raise t).cmd = s.cmd := rfl
@[simp] theorem raise_arg0 (t : Trap) (s : State) : (s.raise t).arg0 = s.arg0 := rfl
@[simp] theorem raise_arg1 (t : Trap) (s : State) : (s.raise t).arg1 = s.arg1 := rfl
@[simp] theorem raise_arg2 (t : Trap) (s : State) : (s.raise t).arg2 = s.arg2 := rfl
@[simp] theorem raise_arg3 (t : Trap) (s : State) : (s.raise t).arg3 = s.arg3 := rfl
@[simp] theorem raise_res0 (t : Trap) (s : State) : (s.raise t).res0 = s.res0 := rfl
@[simp] theorem raise_res1 (t : Trap) (s : State) : (s.raise t).res1 = s.res1 := rfl
@[simp] theorem raise_res2 (t : Trap) (s : State) : (s.raise t).res2 = s.res2 := rfl
@[simp] theorem raise_res3 (t : Trap) (s : State) : (s.raise t).res3 = s.res3 := rfl
@[simp] theorem raise_status (t : Trap) (s : State) : (s.raise t).status = packStatus (causeCode t) (trapFkind t) {} true := rfl
@[simp] theorem raise_faultOff (t : Trap) (s : State) : (s.raise t).faultOff = BitVec.ofNat 32 (trapOff t) := rfl
@[simp] theorem raise_olen (t : Trap) (s : State) : (s.raise t).olen = s.olen := rfl
@[simp] theorem raise_scan (t : Trap) (s : State) : (s.raise t).scan = s.scan := rfl
@[simp] theorem raise_fix (t : Trap) (s : State) : (s.raise t).fix = s.fix := rfl
@[simp] theorem raise_slots (t : Trap) (s : State) : (s.raise t).slots = s.slots := rfl
@[simp] theorem raise_ulp (t : Trap) (s : State) : (s.raise t).ulp = s.ulp := rfl
@[simp] theorem raise_chain (t : Trap) (s : State) : (s.raise t).chain = s.chain := rfl
@[simp] theorem raise_payload (t : Trap) (s : State) : (s.raise t).payload = s.payload := rfl
@[simp] theorem raise_ibuf (t : Trap) (s : State) : (s.raise t).ibuf = s.ibuf := rfl
@[simp] theorem raise_obuf (t : Trap) (s : State) : (s.raise t).obuf = s.obuf := rfl
@[simp] theorem raise_walker (t : Trap) (s : State) : (s.raise t).walker = s.walker := rfl
@[simp] theorem raise_host (t : Trap) (s : State) : (s.raise t).host = s.host := rfl
@[simp] theorem raise_params (t : Trap) (s : State) : (s.raise t).params = s.params := rfl
@[simp] theorem raise_resets (t : Trap) (s : State) : (s.raise t).resets = s.resets := rfl

/-! ### After a fetch -/

@[simp] theorem afterFetch_cmd (s : State) : (afterFetch s).cmd = none := rfl
@[simp] theorem afterFetch_arg0 (s : State) : (afterFetch s).arg0 = s.arg0 := rfl
@[simp] theorem afterFetch_arg1 (s : State) : (afterFetch s).arg1 = s.arg1 := rfl
@[simp] theorem afterFetch_arg2 (s : State) : (afterFetch s).arg2 = s.arg2 := rfl
@[simp] theorem afterFetch_arg3 (s : State) : (afterFetch s).arg3 = s.arg3 := rfl
@[simp] theorem afterFetch_res0 (s : State) : (afterFetch s).res0 = s.res0 := rfl
@[simp] theorem afterFetch_res1 (s : State) : (afterFetch s).res1 = s.res1 := rfl
@[simp] theorem afterFetch_res2 (s : State) : (afterFetch s).res2 = s.res2 := rfl
@[simp] theorem afterFetch_res3 (s : State) : (afterFetch s).res3 = s.res3 := rfl
@[simp] theorem afterFetch_status (s : State) : (afterFetch s).status = s.status := rfl
@[simp] theorem afterFetch_faultOff (s : State) : (afterFetch s).faultOff = s.faultOff := rfl
@[simp] theorem afterFetch_olen (s : State) : (afterFetch s).olen = s.olen := rfl
@[simp] theorem afterFetch_scan (s : State) : (afterFetch s).scan = s.scan := rfl
@[simp] theorem afterFetch_fix (s : State) : (afterFetch s).fix = s.fix := rfl
@[simp] theorem afterFetch_slots (s : State) : (afterFetch s).slots = s.slots := rfl
@[simp] theorem afterFetch_ulp (s : State) : (afterFetch s).ulp = s.ulp := rfl
@[simp] theorem afterFetch_chain (s : State) : (afterFetch s).chain = s.chain := rfl
@[simp] theorem afterFetch_payload (s : State) : (afterFetch s).payload = s.payload := rfl
@[simp] theorem afterFetch_ibuf (s : State) : (afterFetch s).ibuf = s.ibuf := rfl
@[simp] theorem afterFetch_obuf (s : State) : (afterFetch s).obuf = s.obuf := rfl
@[simp] theorem afterFetch_walker (s : State) : (afterFetch s).walker = s.walker := rfl
@[simp] theorem afterFetch_host (s : State) : (afterFetch s).host = s.host := rfl
@[simp] theorem afterFetch_params (s : State) : (afterFetch s).params = s.params := rfl
@[simp] theorem afterFetch_resets (s : State) : (afterFetch s).resets = s.resets := rfl

/-! ### CLEAR -/

@[simp] theorem clearContext_cmd (s : State) : (clearContext s).cmd = s.cmd := rfl
@[simp] theorem clearContext_arg0 (s : State) : (clearContext s).arg0 = s.arg0 := rfl
@[simp] theorem clearContext_arg1 (s : State) : (clearContext s).arg1 = s.arg1 := rfl
@[simp] theorem clearContext_arg2 (s : State) : (clearContext s).arg2 = s.arg2 := rfl
@[simp] theorem clearContext_arg3 (s : State) : (clearContext s).arg3 = s.arg3 := rfl
@[simp] theorem clearContext_res0 (s : State) : (clearContext s).res0 = s.res0 := rfl
@[simp] theorem clearContext_res1 (s : State) : (clearContext s).res1 = s.res1 := rfl
@[simp] theorem clearContext_res2 (s : State) : (clearContext s).res2 = s.res2 := rfl
@[simp] theorem clearContext_res3 (s : State) : (clearContext s).res3 = s.res3 := rfl
@[simp] theorem clearContext_status (s : State) : (clearContext s).status = s.status := rfl
@[simp] theorem clearContext_faultOff (s : State) : (clearContext s).faultOff = s.faultOff := rfl
@[simp] theorem clearContext_olen (s : State) : (clearContext s).olen = s.olen := rfl
@[simp] theorem clearContext_scan (s : State) : (clearContext s).scan = [] := rfl
@[simp] theorem clearContext_fix (s : State) : (clearContext s).fix = FixedHdr.reset := rfl
@[simp] theorem clearContext_slots (s : State) : (clearContext s).slots = Slots.reset := rfl
@[simp] theorem clearContext_ulp (s : State) : (clearContext s).ulp = none := rfl
@[simp] theorem clearContext_chain (s : State) : (clearContext s).chain = [] := rfl
@[simp] theorem clearContext_payload (s : State) : (clearContext s).payload = Payload.raw [] := rfl
@[simp] theorem clearContext_ibuf (s : State) : (clearContext s).ibuf = s.ibuf := rfl
@[simp] theorem clearContext_obuf (s : State) : (clearContext s).obuf = s.obuf := rfl
@[simp] theorem clearContext_walker (s : State) : (clearContext s).walker = s.walker := rfl
@[simp] theorem clearContext_host (s : State) : (clearContext s).host = s.host := rfl
@[simp] theorem clearContext_params (s : State) : (clearContext s).params = s.params := rfl
@[simp] theorem clearContext_resets (s : State) : (clearContext s).resets = s.resets := rfl

/-! ### W0 written -/

@[simp] theorem withW0_cmd (s : State) (w : Word) : (withW0 s w).cmd = s.cmd := rfl
@[simp] theorem withW0_arg0 (s : State) (w : Word) : (withW0 s w).arg0 = s.arg0 := rfl
@[simp] theorem withW0_arg1 (s : State) (w : Word) : (withW0 s w).arg1 = s.arg1 := rfl
@[simp] theorem withW0_arg2 (s : State) (w : Word) : (withW0 s w).arg2 = s.arg2 := rfl
@[simp] theorem withW0_arg3 (s : State) (w : Word) : (withW0 s w).arg3 = s.arg3 := rfl
@[simp] theorem withW0_res0 (s : State) (w : Word) : (withW0 s w).res0 = s.res0 := rfl
@[simp] theorem withW0_res1 (s : State) (w : Word) : (withW0 s w).res1 = s.res1 := rfl
@[simp] theorem withW0_res2 (s : State) (w : Word) : (withW0 s w).res2 = s.res2 := rfl
@[simp] theorem withW0_res3 (s : State) (w : Word) : (withW0 s w).res3 = s.res3 := rfl
@[simp] theorem withW0_status (s : State) (w : Word) : (withW0 s w).status = s.status := rfl
@[simp] theorem withW0_faultOff (s : State) (w : Word) : (withW0 s w).faultOff = s.faultOff := rfl
@[simp] theorem withW0_olen (s : State) (w : Word) : (withW0 s w).olen = s.olen := rfl
@[simp] theorem withW0_scan (s : State) (w : Word) : (withW0 s w).scan = s.scan := rfl
@[simp] theorem withW0_fix (s : State) (w : Word) : (withW0 s w).fix = { s.fix with w0 := w } := rfl
@[simp] theorem withW0_slots (s : State) (w : Word) : (withW0 s w).slots = s.slots := rfl
@[simp] theorem withW0_ulp (s : State) (w : Word) : (withW0 s w).ulp = s.ulp := rfl
@[simp] theorem withW0_chain (s : State) (w : Word) : (withW0 s w).chain = s.chain := rfl
@[simp] theorem withW0_payload (s : State) (w : Word) : (withW0 s w).payload = s.payload := rfl
@[simp] theorem withW0_ibuf (s : State) (w : Word) : (withW0 s w).ibuf = s.ibuf := rfl
@[simp] theorem withW0_obuf (s : State) (w : Word) : (withW0 s w).obuf = s.obuf := rfl
@[simp] theorem withW0_walker (s : State) (w : Word) : (withW0 s w).walker = s.walker := rfl
@[simp] theorem withW0_host (s : State) (w : Word) : (withW0 s w).host = s.host := rfl
@[simp] theorem withW0_params (s : State) (w : Word) : (withW0 s w).params = s.params := rfl
@[simp] theorem withW0_resets (s : State) (w : Word) : (withW0 s w).resets = s.resets := rfl

/-! ### SLOT[2].fragw written -/

@[simp] theorem withFragw_cmd (s : State) (w : Half) : (withFragw s w).cmd = s.cmd := rfl
@[simp] theorem withFragw_arg0 (s : State) (w : Half) : (withFragw s w).arg0 = s.arg0 := rfl
@[simp] theorem withFragw_arg1 (s : State) (w : Half) : (withFragw s w).arg1 = s.arg1 := rfl
@[simp] theorem withFragw_arg2 (s : State) (w : Half) : (withFragw s w).arg2 = s.arg2 := rfl
@[simp] theorem withFragw_arg3 (s : State) (w : Half) : (withFragw s w).arg3 = s.arg3 := rfl
@[simp] theorem withFragw_res0 (s : State) (w : Half) : (withFragw s w).res0 = s.res0 := rfl
@[simp] theorem withFragw_res1 (s : State) (w : Half) : (withFragw s w).res1 = s.res1 := rfl
@[simp] theorem withFragw_res2 (s : State) (w : Half) : (withFragw s w).res2 = s.res2 := rfl
@[simp] theorem withFragw_res3 (s : State) (w : Half) : (withFragw s w).res3 = s.res3 := rfl
@[simp] theorem withFragw_status (s : State) (w : Half) : (withFragw s w).status = s.status := rfl
@[simp] theorem withFragw_faultOff (s : State) (w : Half) : (withFragw s w).faultOff = s.faultOff := rfl
@[simp] theorem withFragw_olen (s : State) (w : Half) : (withFragw s w).olen = s.olen := rfl
@[simp] theorem withFragw_scan (s : State) (w : Half) : (withFragw s w).scan = s.scan := rfl
@[simp] theorem withFragw_fix (s : State) (w : Half) : (withFragw s w).fix = s.fix := rfl
@[simp] theorem withFragw_slots (s : State) (w : Half) : (withFragw s w).slots = { s.slots with frag := { s.slots.frag with fragw := w } } := rfl
@[simp] theorem withFragw_ulp (s : State) (w : Half) : (withFragw s w).ulp = s.ulp := rfl
@[simp] theorem withFragw_chain (s : State) (w : Half) : (withFragw s w).chain = s.chain := rfl
@[simp] theorem withFragw_payload (s : State) (w : Half) : (withFragw s w).payload = s.payload := rfl
@[simp] theorem withFragw_ibuf (s : State) (w : Half) : (withFragw s w).ibuf = s.ibuf := rfl
@[simp] theorem withFragw_obuf (s : State) (w : Half) : (withFragw s w).obuf = s.obuf := rfl
@[simp] theorem withFragw_walker (s : State) (w : Half) : (withFragw s w).walker = s.walker := rfl
@[simp] theorem withFragw_host (s : State) (w : Half) : (withFragw s w).host = s.host := rfl
@[simp] theorem withFragw_params (s : State) (w : Half) : (withFragw s w).params = s.params := rfl
@[simp] theorem withFragw_resets (s : State) (w : Half) : (withFragw s w).resets = s.resets := rfl

/-! ### SLOT[1].rtw written -/

@[simp] theorem withRtw_cmd (s : State) (w : Word) : (withRtw s w).cmd = s.cmd := rfl
@[simp] theorem withRtw_arg0 (s : State) (w : Word) : (withRtw s w).arg0 = s.arg0 := rfl
@[simp] theorem withRtw_arg1 (s : State) (w : Word) : (withRtw s w).arg1 = s.arg1 := rfl
@[simp] theorem withRtw_arg2 (s : State) (w : Word) : (withRtw s w).arg2 = s.arg2 := rfl
@[simp] theorem withRtw_arg3 (s : State) (w : Word) : (withRtw s w).arg3 = s.arg3 := rfl
@[simp] theorem withRtw_res0 (s : State) (w : Word) : (withRtw s w).res0 = s.res0 := rfl
@[simp] theorem withRtw_res1 (s : State) (w : Word) : (withRtw s w).res1 = s.res1 := rfl
@[simp] theorem withRtw_res2 (s : State) (w : Word) : (withRtw s w).res2 = s.res2 := rfl
@[simp] theorem withRtw_res3 (s : State) (w : Word) : (withRtw s w).res3 = s.res3 := rfl
@[simp] theorem withRtw_status (s : State) (w : Word) : (withRtw s w).status = s.status := rfl
@[simp] theorem withRtw_faultOff (s : State) (w : Word) : (withRtw s w).faultOff = s.faultOff := rfl
@[simp] theorem withRtw_olen (s : State) (w : Word) : (withRtw s w).olen = s.olen := rfl
@[simp] theorem withRtw_scan (s : State) (w : Word) : (withRtw s w).scan = s.scan := rfl
@[simp] theorem withRtw_fix (s : State) (w : Word) : (withRtw s w).fix = s.fix := rfl
@[simp] theorem withRtw_slots (s : State) (w : Word) : (withRtw s w).slots = { s.slots with rt := { s.slots.rt with rtw := w } } := rfl
@[simp] theorem withRtw_ulp (s : State) (w : Word) : (withRtw s w).ulp = s.ulp := rfl
@[simp] theorem withRtw_chain (s : State) (w : Word) : (withRtw s w).chain = s.chain := rfl
@[simp] theorem withRtw_payload (s : State) (w : Word) : (withRtw s w).payload = s.payload := rfl
@[simp] theorem withRtw_ibuf (s : State) (w : Word) : (withRtw s w).ibuf = s.ibuf := rfl
@[simp] theorem withRtw_obuf (s : State) (w : Word) : (withRtw s w).obuf = s.obuf := rfl
@[simp] theorem withRtw_walker (s : State) (w : Word) : (withRtw s w).walker = s.walker := rfl
@[simp] theorem withRtw_host (s : State) (w : Word) : (withRtw s w).host = s.host := rfl
@[simp] theorem withRtw_params (s : State) (w : Word) : (withRtw s w).params = s.params := rfl
@[simp] theorem withRtw_resets (s : State) (w : Word) : (withRtw s w).resets = s.resets := rfl

/-! ### The reset event -/

@[simp] theorem resetEvent_cmd (s : State) : (resetEvent s).cmd = State.reset.cmd := rfl
@[simp] theorem resetEvent_arg0 (s : State) : (resetEvent s).arg0 = State.reset.arg0 := rfl
@[simp] theorem resetEvent_arg1 (s : State) : (resetEvent s).arg1 = State.reset.arg1 := rfl
@[simp] theorem resetEvent_arg2 (s : State) : (resetEvent s).arg2 = State.reset.arg2 := rfl
@[simp] theorem resetEvent_arg3 (s : State) : (resetEvent s).arg3 = State.reset.arg3 := rfl
@[simp] theorem resetEvent_res0 (s : State) : (resetEvent s).res0 = State.reset.res0 := rfl
@[simp] theorem resetEvent_res1 (s : State) : (resetEvent s).res1 = State.reset.res1 := rfl
@[simp] theorem resetEvent_res2 (s : State) : (resetEvent s).res2 = State.reset.res2 := rfl
@[simp] theorem resetEvent_res3 (s : State) : (resetEvent s).res3 = State.reset.res3 := rfl
@[simp] theorem resetEvent_status (s : State) : (resetEvent s).status = State.reset.status := rfl
@[simp] theorem resetEvent_faultOff (s : State) : (resetEvent s).faultOff = State.reset.faultOff := rfl
@[simp] theorem resetEvent_olen (s : State) : (resetEvent s).olen = State.reset.olen := rfl
@[simp] theorem resetEvent_scan (s : State) : (resetEvent s).scan = State.reset.scan := rfl
@[simp] theorem resetEvent_fix (s : State) : (resetEvent s).fix = State.reset.fix := rfl
@[simp] theorem resetEvent_slots (s : State) : (resetEvent s).slots = State.reset.slots := rfl
@[simp] theorem resetEvent_ulp (s : State) : (resetEvent s).ulp = State.reset.ulp := rfl
@[simp] theorem resetEvent_chain (s : State) : (resetEvent s).chain = State.reset.chain := rfl
@[simp] theorem resetEvent_payload (s : State) : (resetEvent s).payload = State.reset.payload := rfl
@[simp] theorem resetEvent_ibuf (s : State) : (resetEvent s).ibuf = State.reset.ibuf := rfl
@[simp] theorem resetEvent_obuf (s : State) : (resetEvent s).obuf = State.reset.obuf := rfl
@[simp] theorem resetEvent_walker (s : State) : (resetEvent s).walker = State.reset.walker := rfl
@[simp] theorem resetEvent_host (s : State) : (resetEvent s).host = s.host := rfl
@[simp] theorem resetEvent_params (s : State) : (resetEvent s).params = s.params := rfl
@[simp] theorem resetEvent_resets (s : State) : (resetEvent s).resets = s.resets + 1 := rfl

/-! ### The Hop slot written by the host -/

@[simp] theorem withHop_cmd (s : State) (h : OptSlot) : (withHop s h).cmd = s.cmd := rfl
@[simp] theorem withHop_arg0 (s : State) (h : OptSlot) : (withHop s h).arg0 = s.arg0 := rfl
@[simp] theorem withHop_arg1 (s : State) (h : OptSlot) : (withHop s h).arg1 = s.arg1 := rfl
@[simp] theorem withHop_arg2 (s : State) (h : OptSlot) : (withHop s h).arg2 = s.arg2 := rfl
@[simp] theorem withHop_arg3 (s : State) (h : OptSlot) : (withHop s h).arg3 = s.arg3 := rfl
@[simp] theorem withHop_res0 (s : State) (h : OptSlot) : (withHop s h).res0 = s.res0 := rfl
@[simp] theorem withHop_res1 (s : State) (h : OptSlot) : (withHop s h).res1 = s.res1 := rfl
@[simp] theorem withHop_res2 (s : State) (h : OptSlot) : (withHop s h).res2 = s.res2 := rfl
@[simp] theorem withHop_res3 (s : State) (h : OptSlot) : (withHop s h).res3 = s.res3 := rfl
@[simp] theorem withHop_status (s : State) (h : OptSlot) : (withHop s h).status = s.status := rfl
@[simp] theorem withHop_faultOff (s : State) (h : OptSlot) : (withHop s h).faultOff = s.faultOff := rfl
@[simp] theorem withHop_olen (s : State) (h : OptSlot) : (withHop s h).olen = s.olen := rfl
@[simp] theorem withHop_scan (s : State) (h : OptSlot) : (withHop s h).scan = s.scan := rfl
@[simp] theorem withHop_fix (s : State) (h : OptSlot) : (withHop s h).fix = s.fix := rfl
@[simp] theorem withHop_slots (s : State) (h : OptSlot) : (withHop s h).slots = { s.slots with hop := h } := rfl
@[simp] theorem withHop_ulp (s : State) (h : OptSlot) : (withHop s h).ulp = s.ulp := rfl
@[simp] theorem withHop_chain (s : State) (h : OptSlot) : (withHop s h).chain = s.chain := rfl
@[simp] theorem withHop_payload (s : State) (h : OptSlot) : (withHop s h).payload = s.payload := rfl
@[simp] theorem withHop_ibuf (s : State) (h : OptSlot) : (withHop s h).ibuf = s.ibuf := rfl
@[simp] theorem withHop_obuf (s : State) (h : OptSlot) : (withHop s h).obuf = s.obuf := rfl
@[simp] theorem withHop_walker (s : State) (h : OptSlot) : (withHop s h).walker = s.walker := rfl
@[simp] theorem withHop_host (s : State) (h : OptSlot) : (withHop s h).host = s.host := rfl
@[simp] theorem withHop_params (s : State) (h : OptSlot) : (withHop s h).params = s.params := rfl
@[simp] theorem withHop_resets (s : State) (h : OptSlot) : (withHop s h).resets = s.resets := rfl

/-! ### The Rt slot written by the host -/

@[simp] theorem withRt_cmd (s : State) (h : RtSlot) : (withRt s h).cmd = s.cmd := rfl
@[simp] theorem withRt_arg0 (s : State) (h : RtSlot) : (withRt s h).arg0 = s.arg0 := rfl
@[simp] theorem withRt_arg1 (s : State) (h : RtSlot) : (withRt s h).arg1 = s.arg1 := rfl
@[simp] theorem withRt_arg2 (s : State) (h : RtSlot) : (withRt s h).arg2 = s.arg2 := rfl
@[simp] theorem withRt_arg3 (s : State) (h : RtSlot) : (withRt s h).arg3 = s.arg3 := rfl
@[simp] theorem withRt_res0 (s : State) (h : RtSlot) : (withRt s h).res0 = s.res0 := rfl
@[simp] theorem withRt_res1 (s : State) (h : RtSlot) : (withRt s h).res1 = s.res1 := rfl
@[simp] theorem withRt_res2 (s : State) (h : RtSlot) : (withRt s h).res2 = s.res2 := rfl
@[simp] theorem withRt_res3 (s : State) (h : RtSlot) : (withRt s h).res3 = s.res3 := rfl
@[simp] theorem withRt_status (s : State) (h : RtSlot) : (withRt s h).status = s.status := rfl
@[simp] theorem withRt_faultOff (s : State) (h : RtSlot) : (withRt s h).faultOff = s.faultOff := rfl
@[simp] theorem withRt_olen (s : State) (h : RtSlot) : (withRt s h).olen = s.olen := rfl
@[simp] theorem withRt_scan (s : State) (h : RtSlot) : (withRt s h).scan = s.scan := rfl
@[simp] theorem withRt_fix (s : State) (h : RtSlot) : (withRt s h).fix = s.fix := rfl
@[simp] theorem withRt_slots (s : State) (h : RtSlot) : (withRt s h).slots = { s.slots with rt := h } := rfl
@[simp] theorem withRt_ulp (s : State) (h : RtSlot) : (withRt s h).ulp = s.ulp := rfl
@[simp] theorem withRt_chain (s : State) (h : RtSlot) : (withRt s h).chain = s.chain := rfl
@[simp] theorem withRt_payload (s : State) (h : RtSlot) : (withRt s h).payload = s.payload := rfl
@[simp] theorem withRt_ibuf (s : State) (h : RtSlot) : (withRt s h).ibuf = s.ibuf := rfl
@[simp] theorem withRt_obuf (s : State) (h : RtSlot) : (withRt s h).obuf = s.obuf := rfl
@[simp] theorem withRt_walker (s : State) (h : RtSlot) : (withRt s h).walker = s.walker := rfl
@[simp] theorem withRt_host (s : State) (h : RtSlot) : (withRt s h).host = s.host := rfl
@[simp] theorem withRt_params (s : State) (h : RtSlot) : (withRt s h).params = s.params := rfl
@[simp] theorem withRt_resets (s : State) (h : RtSlot) : (withRt s h).resets = s.resets := rfl

/-! ### The Frag slot written by the host -/

@[simp] theorem withFrag_cmd (s : State) (h : FragSlot) : (withFrag s h).cmd = s.cmd := rfl
@[simp] theorem withFrag_arg0 (s : State) (h : FragSlot) : (withFrag s h).arg0 = s.arg0 := rfl
@[simp] theorem withFrag_arg1 (s : State) (h : FragSlot) : (withFrag s h).arg1 = s.arg1 := rfl
@[simp] theorem withFrag_arg2 (s : State) (h : FragSlot) : (withFrag s h).arg2 = s.arg2 := rfl
@[simp] theorem withFrag_arg3 (s : State) (h : FragSlot) : (withFrag s h).arg3 = s.arg3 := rfl
@[simp] theorem withFrag_res0 (s : State) (h : FragSlot) : (withFrag s h).res0 = s.res0 := rfl
@[simp] theorem withFrag_res1 (s : State) (h : FragSlot) : (withFrag s h).res1 = s.res1 := rfl
@[simp] theorem withFrag_res2 (s : State) (h : FragSlot) : (withFrag s h).res2 = s.res2 := rfl
@[simp] theorem withFrag_res3 (s : State) (h : FragSlot) : (withFrag s h).res3 = s.res3 := rfl
@[simp] theorem withFrag_status (s : State) (h : FragSlot) : (withFrag s h).status = s.status := rfl
@[simp] theorem withFrag_faultOff (s : State) (h : FragSlot) : (withFrag s h).faultOff = s.faultOff := rfl
@[simp] theorem withFrag_olen (s : State) (h : FragSlot) : (withFrag s h).olen = s.olen := rfl
@[simp] theorem withFrag_scan (s : State) (h : FragSlot) : (withFrag s h).scan = s.scan := rfl
@[simp] theorem withFrag_fix (s : State) (h : FragSlot) : (withFrag s h).fix = s.fix := rfl
@[simp] theorem withFrag_slots (s : State) (h : FragSlot) : (withFrag s h).slots = { s.slots with frag := h } := rfl
@[simp] theorem withFrag_ulp (s : State) (h : FragSlot) : (withFrag s h).ulp = s.ulp := rfl
@[simp] theorem withFrag_chain (s : State) (h : FragSlot) : (withFrag s h).chain = s.chain := rfl
@[simp] theorem withFrag_payload (s : State) (h : FragSlot) : (withFrag s h).payload = s.payload := rfl
@[simp] theorem withFrag_ibuf (s : State) (h : FragSlot) : (withFrag s h).ibuf = s.ibuf := rfl
@[simp] theorem withFrag_obuf (s : State) (h : FragSlot) : (withFrag s h).obuf = s.obuf := rfl
@[simp] theorem withFrag_walker (s : State) (h : FragSlot) : (withFrag s h).walker = s.walker := rfl
@[simp] theorem withFrag_host (s : State) (h : FragSlot) : (withFrag s h).host = s.host := rfl
@[simp] theorem withFrag_params (s : State) (h : FragSlot) : (withFrag s h).params = s.params := rfl
@[simp] theorem withFrag_resets (s : State) (h : FragSlot) : (withFrag s h).resets = s.resets := rfl

/-! ### The Ah slot written by the host -/

@[simp] theorem withAh_cmd (s : State) (h : AhSlot) : (withAh s h).cmd = s.cmd := rfl
@[simp] theorem withAh_arg0 (s : State) (h : AhSlot) : (withAh s h).arg0 = s.arg0 := rfl
@[simp] theorem withAh_arg1 (s : State) (h : AhSlot) : (withAh s h).arg1 = s.arg1 := rfl
@[simp] theorem withAh_arg2 (s : State) (h : AhSlot) : (withAh s h).arg2 = s.arg2 := rfl
@[simp] theorem withAh_arg3 (s : State) (h : AhSlot) : (withAh s h).arg3 = s.arg3 := rfl
@[simp] theorem withAh_res0 (s : State) (h : AhSlot) : (withAh s h).res0 = s.res0 := rfl
@[simp] theorem withAh_res1 (s : State) (h : AhSlot) : (withAh s h).res1 = s.res1 := rfl
@[simp] theorem withAh_res2 (s : State) (h : AhSlot) : (withAh s h).res2 = s.res2 := rfl
@[simp] theorem withAh_res3 (s : State) (h : AhSlot) : (withAh s h).res3 = s.res3 := rfl
@[simp] theorem withAh_status (s : State) (h : AhSlot) : (withAh s h).status = s.status := rfl
@[simp] theorem withAh_faultOff (s : State) (h : AhSlot) : (withAh s h).faultOff = s.faultOff := rfl
@[simp] theorem withAh_olen (s : State) (h : AhSlot) : (withAh s h).olen = s.olen := rfl
@[simp] theorem withAh_scan (s : State) (h : AhSlot) : (withAh s h).scan = s.scan := rfl
@[simp] theorem withAh_fix (s : State) (h : AhSlot) : (withAh s h).fix = s.fix := rfl
@[simp] theorem withAh_slots (s : State) (h : AhSlot) : (withAh s h).slots = { s.slots with ah := h } := rfl
@[simp] theorem withAh_ulp (s : State) (h : AhSlot) : (withAh s h).ulp = s.ulp := rfl
@[simp] theorem withAh_chain (s : State) (h : AhSlot) : (withAh s h).chain = s.chain := rfl
@[simp] theorem withAh_payload (s : State) (h : AhSlot) : (withAh s h).payload = s.payload := rfl
@[simp] theorem withAh_ibuf (s : State) (h : AhSlot) : (withAh s h).ibuf = s.ibuf := rfl
@[simp] theorem withAh_obuf (s : State) (h : AhSlot) : (withAh s h).obuf = s.obuf := rfl
@[simp] theorem withAh_walker (s : State) (h : AhSlot) : (withAh s h).walker = s.walker := rfl
@[simp] theorem withAh_host (s : State) (h : AhSlot) : (withAh s h).host = s.host := rfl
@[simp] theorem withAh_params (s : State) (h : AhSlot) : (withAh s h).params = s.params := rfl
@[simp] theorem withAh_resets (s : State) (h : AhSlot) : (withAh s h).resets = s.resets := rfl

/-! ### The Esp slot written by the host -/

@[simp] theorem withEsp_cmd (s : State) (h : EspSlot) : (withEsp s h).cmd = s.cmd := rfl
@[simp] theorem withEsp_arg0 (s : State) (h : EspSlot) : (withEsp s h).arg0 = s.arg0 := rfl
@[simp] theorem withEsp_arg1 (s : State) (h : EspSlot) : (withEsp s h).arg1 = s.arg1 := rfl
@[simp] theorem withEsp_arg2 (s : State) (h : EspSlot) : (withEsp s h).arg2 = s.arg2 := rfl
@[simp] theorem withEsp_arg3 (s : State) (h : EspSlot) : (withEsp s h).arg3 = s.arg3 := rfl
@[simp] theorem withEsp_res0 (s : State) (h : EspSlot) : (withEsp s h).res0 = s.res0 := rfl
@[simp] theorem withEsp_res1 (s : State) (h : EspSlot) : (withEsp s h).res1 = s.res1 := rfl
@[simp] theorem withEsp_res2 (s : State) (h : EspSlot) : (withEsp s h).res2 = s.res2 := rfl
@[simp] theorem withEsp_res3 (s : State) (h : EspSlot) : (withEsp s h).res3 = s.res3 := rfl
@[simp] theorem withEsp_status (s : State) (h : EspSlot) : (withEsp s h).status = s.status := rfl
@[simp] theorem withEsp_faultOff (s : State) (h : EspSlot) : (withEsp s h).faultOff = s.faultOff := rfl
@[simp] theorem withEsp_olen (s : State) (h : EspSlot) : (withEsp s h).olen = s.olen := rfl
@[simp] theorem withEsp_scan (s : State) (h : EspSlot) : (withEsp s h).scan = s.scan := rfl
@[simp] theorem withEsp_fix (s : State) (h : EspSlot) : (withEsp s h).fix = s.fix := rfl
@[simp] theorem withEsp_slots (s : State) (h : EspSlot) : (withEsp s h).slots = { s.slots with esp := h } := rfl
@[simp] theorem withEsp_ulp (s : State) (h : EspSlot) : (withEsp s h).ulp = s.ulp := rfl
@[simp] theorem withEsp_chain (s : State) (h : EspSlot) : (withEsp s h).chain = s.chain := rfl
@[simp] theorem withEsp_payload (s : State) (h : EspSlot) : (withEsp s h).payload = s.payload := rfl
@[simp] theorem withEsp_ibuf (s : State) (h : EspSlot) : (withEsp s h).ibuf = s.ibuf := rfl
@[simp] theorem withEsp_obuf (s : State) (h : EspSlot) : (withEsp s h).obuf = s.obuf := rfl
@[simp] theorem withEsp_walker (s : State) (h : EspSlot) : (withEsp s h).walker = s.walker := rfl
@[simp] theorem withEsp_host (s : State) (h : EspSlot) : (withEsp s h).host = s.host := rfl
@[simp] theorem withEsp_params (s : State) (h : EspSlot) : (withEsp s h).params = s.params := rfl
@[simp] theorem withEsp_resets (s : State) (h : EspSlot) : (withEsp s h).resets = s.resets := rfl

/-! ### The Dst slot written by the host -/

@[simp] theorem withDst_cmd (s : State) (h : OptSlot) : (withDst s h).cmd = s.cmd := rfl
@[simp] theorem withDst_arg0 (s : State) (h : OptSlot) : (withDst s h).arg0 = s.arg0 := rfl
@[simp] theorem withDst_arg1 (s : State) (h : OptSlot) : (withDst s h).arg1 = s.arg1 := rfl
@[simp] theorem withDst_arg2 (s : State) (h : OptSlot) : (withDst s h).arg2 = s.arg2 := rfl
@[simp] theorem withDst_arg3 (s : State) (h : OptSlot) : (withDst s h).arg3 = s.arg3 := rfl
@[simp] theorem withDst_res0 (s : State) (h : OptSlot) : (withDst s h).res0 = s.res0 := rfl
@[simp] theorem withDst_res1 (s : State) (h : OptSlot) : (withDst s h).res1 = s.res1 := rfl
@[simp] theorem withDst_res2 (s : State) (h : OptSlot) : (withDst s h).res2 = s.res2 := rfl
@[simp] theorem withDst_res3 (s : State) (h : OptSlot) : (withDst s h).res3 = s.res3 := rfl
@[simp] theorem withDst_status (s : State) (h : OptSlot) : (withDst s h).status = s.status := rfl
@[simp] theorem withDst_faultOff (s : State) (h : OptSlot) : (withDst s h).faultOff = s.faultOff := rfl
@[simp] theorem withDst_olen (s : State) (h : OptSlot) : (withDst s h).olen = s.olen := rfl
@[simp] theorem withDst_scan (s : State) (h : OptSlot) : (withDst s h).scan = s.scan := rfl
@[simp] theorem withDst_fix (s : State) (h : OptSlot) : (withDst s h).fix = s.fix := rfl
@[simp] theorem withDst_slots (s : State) (h : OptSlot) : (withDst s h).slots = { s.slots with dst := h } := rfl
@[simp] theorem withDst_ulp (s : State) (h : OptSlot) : (withDst s h).ulp = s.ulp := rfl
@[simp] theorem withDst_chain (s : State) (h : OptSlot) : (withDst s h).chain = s.chain := rfl
@[simp] theorem withDst_payload (s : State) (h : OptSlot) : (withDst s h).payload = s.payload := rfl
@[simp] theorem withDst_ibuf (s : State) (h : OptSlot) : (withDst s h).ibuf = s.ibuf := rfl
@[simp] theorem withDst_obuf (s : State) (h : OptSlot) : (withDst s h).obuf = s.obuf := rfl
@[simp] theorem withDst_walker (s : State) (h : OptSlot) : (withDst s h).walker = s.walker := rfl
@[simp] theorem withDst_host (s : State) (h : OptSlot) : (withDst s h).host = s.host := rfl
@[simp] theorem withDst_params (s : State) (h : OptSlot) : (withDst s h).params = s.params := rfl
@[simp] theorem withDst_resets (s : State) (h : OptSlot) : (withDst s h).resets = s.resets := rfl

/-! ### The fixed header written by the host -/

@[simp] theorem withFix_cmd (s : State) (f : FixedHdr) : (withFix s f).cmd = s.cmd := rfl
@[simp] theorem withFix_arg0 (s : State) (f : FixedHdr) : (withFix s f).arg0 = s.arg0 := rfl
@[simp] theorem withFix_arg1 (s : State) (f : FixedHdr) : (withFix s f).arg1 = s.arg1 := rfl
@[simp] theorem withFix_arg2 (s : State) (f : FixedHdr) : (withFix s f).arg2 = s.arg2 := rfl
@[simp] theorem withFix_arg3 (s : State) (f : FixedHdr) : (withFix s f).arg3 = s.arg3 := rfl
@[simp] theorem withFix_res0 (s : State) (f : FixedHdr) : (withFix s f).res0 = s.res0 := rfl
@[simp] theorem withFix_res1 (s : State) (f : FixedHdr) : (withFix s f).res1 = s.res1 := rfl
@[simp] theorem withFix_res2 (s : State) (f : FixedHdr) : (withFix s f).res2 = s.res2 := rfl
@[simp] theorem withFix_res3 (s : State) (f : FixedHdr) : (withFix s f).res3 = s.res3 := rfl
@[simp] theorem withFix_status (s : State) (f : FixedHdr) : (withFix s f).status = s.status := rfl
@[simp] theorem withFix_faultOff (s : State) (f : FixedHdr) : (withFix s f).faultOff = s.faultOff := rfl
@[simp] theorem withFix_olen (s : State) (f : FixedHdr) : (withFix s f).olen = s.olen := rfl
@[simp] theorem withFix_scan (s : State) (f : FixedHdr) : (withFix s f).scan = s.scan := rfl
@[simp] theorem withFix_fix (s : State) (f : FixedHdr) : (withFix s f).fix = f := rfl
@[simp] theorem withFix_slots (s : State) (f : FixedHdr) : (withFix s f).slots = s.slots := rfl
@[simp] theorem withFix_ulp (s : State) (f : FixedHdr) : (withFix s f).ulp = s.ulp := rfl
@[simp] theorem withFix_chain (s : State) (f : FixedHdr) : (withFix s f).chain = s.chain := rfl
@[simp] theorem withFix_payload (s : State) (f : FixedHdr) : (withFix s f).payload = s.payload := rfl
@[simp] theorem withFix_ibuf (s : State) (f : FixedHdr) : (withFix s f).ibuf = s.ibuf := rfl
@[simp] theorem withFix_obuf (s : State) (f : FixedHdr) : (withFix s f).obuf = s.obuf := rfl
@[simp] theorem withFix_walker (s : State) (f : FixedHdr) : (withFix s f).walker = s.walker := rfl
@[simp] theorem withFix_host (s : State) (f : FixedHdr) : (withFix s f).host = s.host := rfl
@[simp] theorem withFix_params (s : State) (f : FixedHdr) : (withFix s f).params = s.params := rfl
@[simp] theorem withFix_resets (s : State) (f : FixedHdr) : (withFix s f).resets = s.resets := rfl

end Sys2Proof.Machine
end

