-- ==== Sys2Proof/Laws/Status.lean ====
section
/-! SUPPORT. STATUS: each field of a packed word reads back, and the words claims use for it. -/

namespace Sys2Proof.Machine

theorem bool_eq_of_toNat {a b : Bool} (h : a.toNat = b.toNat) : a = b := by
  revert h; cases a <;> cases b <;> decide

section Fields
variable (c f : BitVec 4) (fl : DoneFlags) (st : Bool)

/-- The packed word as a number: the fields do not overlap and fit 32 bits. -/
theorem packStatus_toNat : (packStatus c f fl st).toNat =
    2 ^ 31 * st.toNat + 2 ^ 12 * fl.csumSkipped.toNat + 2 ^ 11 * fl.csumWritten.toNat +
      2 ^ 9 * fl.rawWhy.toNat + 2 ^ 8 * fl.ulpRaw.toNat + 2 ^ 4 * f.toNat + c.toNat := by
  have h1 := st.toNat_le
  have h2 := fl.csumSkipped.toNat_le
  have h3 := fl.csumWritten.toNat_le
  have h4 := fl.rawWhy.isLt
  have h5 := fl.ulpRaw.toNat_le
  have h6 := f.isLt
  have h7 := c.isLt
  rw [packStatus, BitVec.toNat_ofNat, Nat.mod_eq_of_lt]
  omega

/-- A single bit of a word, as a number. -/
theorem getLsbD_toNat {w : Nat} (x : BitVec w) (i : Nat) :
    (x.getLsbD i).toNat = x.toNat / 2 ^ i % 2 := by
  rw [BitVec.getLsbD, Nat.testBit_eq_decide_div_mod_eq]
  rcases Nat.mod_two_eq_zero_or_one (x.toNat / 2 ^ i) with h | h <;> simp [h]

@[simp] theorem statusCause_pack : statusCause (packStatus c f fl st) = c := by
  apply BitVec.eq_of_toNat_eq
  have := c.isLt
  simp only [statusCause, BitVec.extractLsb'_toNat, packStatus_toNat, Nat.shiftRight_eq_div_pow]
  omega

@[simp] theorem statusFkind_pack : statusFkind (packStatus c f fl st) = f := by
  apply BitVec.eq_of_toNat_eq
  have := c.isLt
  have := f.isLt
  simp only [statusFkind, BitVec.extractLsb'_toNat, packStatus_toNat, Nat.shiftRight_eq_div_pow]
  omega

@[simp] theorem statusRawWhy_pack : statusRawWhy (packStatus c f fl st) = fl.rawWhy := by
  apply BitVec.eq_of_toNat_eq
  have := c.isLt
  have := f.isLt
  have := fl.ulpRaw.toNat_le
  have := fl.rawWhy.isLt
  simp only [statusRawWhy, BitVec.extractLsb'_toNat, packStatus_toNat, Nat.shiftRight_eq_div_pow]
  omega

@[simp] theorem statusReserved_pack : statusReserved (packStatus c f fl st) = 0 := by
  apply BitVec.eq_of_toNat_eq
  have := c.isLt
  have := f.isLt
  have := fl.ulpRaw.toNat_le
  have := fl.rawWhy.isLt
  have := fl.csumWritten.toNat_le
  have := fl.csumSkipped.toNat_le
  have := st.toNat_le
  simp only [statusReserved, BitVec.extractLsb'_toNat, packStatus_toNat, Nat.shiftRight_eq_div_pow,
    BitVec.ofNat_eq_ofNat, BitVec.toNat_ofNat]
  omega

@[simp] theorem statusUlpRaw_pack : statusUlpRaw (packStatus c f fl st) = fl.ulpRaw := by
  apply bool_eq_of_toNat
  have := c.isLt
  have := f.isLt
  have := fl.ulpRaw.toNat_le
  rw [statusUlpRaw, getLsbD_toNat, packStatus_toNat]
  omega

@[simp] theorem statusCsumWritten_pack :
    statusCsumWritten (packStatus c f fl st) = fl.csumWritten := by
  apply bool_eq_of_toNat
  have := c.isLt
  have := f.isLt
  have := fl.ulpRaw.toNat_le
  have := fl.rawWhy.isLt
  have := fl.csumWritten.toNat_le
  rw [statusCsumWritten, getLsbD_toNat, packStatus_toNat]
  omega

@[simp] theorem statusCsumSkipped_pack :
    statusCsumSkipped (packStatus c f fl st) = fl.csumSkipped := by
  apply bool_eq_of_toNat
  have := c.isLt
  have := f.isLt
  have := fl.ulpRaw.toNat_le
  have := fl.rawWhy.isLt
  have := fl.csumWritten.toNat_le
  have := fl.csumSkipped.toNat_le
  rw [statusCsumSkipped, getLsbD_toNat, packStatus_toNat]
  omega

@[simp] theorem statusSticky_pack : statusSticky (packStatus c f fl st) = st := by
  apply bool_eq_of_toNat
  have := c.isLt
  have := f.isLt
  have := fl.ulpRaw.toNat_le
  have := fl.rawWhy.isLt
  have := fl.csumWritten.toNat_le
  have := fl.csumSkipped.toNat_le
  have := st.toNat_le
  rw [statusSticky, getLsbD_toNat, packStatus_toNat]
  omega

end Fields

/-- The number a successful command's flags add to STATUS. -/
def flagsNat (fl : DoneFlags) : Nat :=
  2 ^ 12 * fl.csumSkipped.toNat + 2 ^ 11 * fl.csumWritten.toNat + 2 ^ 9 * fl.rawWhy.toNat +
    2 ^ 8 * fl.ulpRaw.toNat

/-- Completion in the words of the claims. -/
theorem done_eq_completed (s t : State) (fl : DoneFlags) (h : t.status = s.status) :
    t.done fl = completed s t (flagsNat fl) := by
  have e : packStatus 0 0 fl (statusSticky s.status) = okStatus s (flagsNat fl) := by
    cases hs : statusSticky s.status <;> simp [packStatus, okStatus, flagsNat, hs, Nat.add_assoc]
  simp only [State.done, completed, h, e]

/-- A fault in the words of the claims. -/
theorem raise_eq_faulted (s : State) (t : Trap) :
    s.raise t = faulted s (trapFkind t).toNat (causeCode t).toNat (trapOff t) := by
  simp [State.raise, faulted, packStatus, faultStatus]

end Sys2Proof.Machine
end

