-- ==== Sys2Proof/Laws/Ops.lean ====
section
/-! SUPPORT. The shared operations: what reading a region, appending output and completing a command can do. -/

namespace Sys2Proof.Machine

theorem except_ok_bind {ε α β : Type} {x : Except ε α} {f : α → Except ε β} {b : β}
    (h : x >>= f = .ok b) :
    ∃ a, x = .ok a ∧ f a = .ok b := by
  cases x with
  | error e => cases h
  | ok a => exact ⟨a, rfl, h⟩

theorem except_error_bind {ε α β : Type} {x : Except ε α} {f : α → Except ε β} {e : ε}
    (h : x >>= f = .error e) :
    x = .error e ∨ ∃ a, x = .ok a ∧ f a = .error e := by
  cases x with
  | error d => cases h; exact Or.inl rfl
  | ok a => exact Or.inr ⟨a, rfl, h⟩

theorem except_map_bind {ε α β γ : Type} (x : Except ε α) (f : α → Except ε β) (g : β → γ) :
    (x >>= f).map g = x >>= fun a => (f a).map g := by cases x <;> rfl

/-- The two ways of writing a field's bytes, by bits and by numbers. -/
theorem be16_eq (w : Half) : be16 w = beHalf w := by
  simp only [be16, beHalf, List.cons.injEq, and_true]
  constructor <;> apply BitVec.eq_of_toNat_eq <;>
    simp only [BitVec.extractLsb'_toNat, BitVec.toNat_ofNat, Nat.shiftRight_eq_div_pow, Nat.pow_zero,
      Nat.div_one]

theorem be32_eq (w : Word) : be32 w = beWord w := by
  simp only [be32, beWord, List.cons.injEq, and_true]
  refine ⟨?_, ?_, ?_, ?_⟩ <;> apply BitVec.eq_of_toNat_eq <;>
    simp only [BitVec.extractLsb'_toNat, BitVec.toNat_ofNat, Nat.shiftRight_eq_div_pow, Nat.pow_zero,
      Nat.div_one]

/-- A region inside IBUF. -/
theorem region_ok {s : State} {o n : Word} (h : o.toNat + n.toNat ≤ s.params.ibufSize) :
    region s o n = .ok (s.ibufBytes o.toNat n.toNat) := by
  unfold region; rw [if_neg (by omega)]

/-- A region past IBUF_SIZE. -/
theorem region_bad {s : State} {o n : Word} (h : s.params.ibufSize < o.toNat + n.toNat) :
    region s o n = .error .badRegion := by
  unfold region; rw [if_pos h]

/-- Appending output: it fits, or it is ObufOverflow. -/
theorem commitOut_eq (e : Bytes) (s : State) : commitOut e s =
    if s.olen.toNat + e.length ≤ s.params.obufSize then .ok (appended s e) else .error .obufOverflow := by
  unfold commitOut
  by_cases h : s.olen.toNat + e.length ≤ s.params.obufSize
  · rw [if_pos h, if_neg (by omega)]; rfl
  · rw [if_neg h, if_pos (by omega)]

theorem commitOut_ok {e : Bytes} {s t : State} (h : commitOut e s = .ok t) :
    s.olen.toNat + e.length ≤ s.params.obufSize ∧ t = { s with
      obuf := Memory.writeBytes s.obuf s.olen.toNat e
      olen := BitVec.ofNat 32 (s.olen.toNat + e.length) } := by
  unfold commitOut at h
  split_ifs at h with h1
  cases h
  exact ⟨by omega, rfl⟩

theorem obufByte_write (s : State) (e : Bytes) (a : Nat) (o : Nat) (n : Word)
    (h : a < o ∨ o + e.length ≤ a) :
    State.obufByte { s with obuf := Memory.writeBytes s.obuf o e, olen := n } a = s.obufByte a := by
  simp only [State.obufByte, Memory.read?_writeBytes]
  rw [if_neg (by omega)]

/-- A completed command has faulted, or has done what its body says. -/
theorem complete_next {s t : State} {r : Except Trap (State × DoneFlags)}
    (h : complete s r = .next t) :
    (∃ k, r = .error k ∧ t = s.raise k) ∨ (∃ u fl, r = .ok (u, fl) ∧ t = u.done fl) := by
  cases r with
  | error k => cases h; exact Or.inl ⟨k, rfl, rfl⟩
  | ok p => cases h; exact Or.inr ⟨p.1, p.2, rfl, rfl⟩

/-- A successful completion in the words of the claims. -/
theorem complete_ok (s t : State) (fl : DoneFlags) (h : t.status = s.status) :
    complete s (.ok (t, fl)) = .next (completed s t (flagsNat fl)) := by
  rw [← done_eq_completed s t fl h]; rfl

/-- A fault in the words of the claims. -/
theorem complete_error (s : State) (t : Trap) : complete s (.error t) =
    .next (faulted s (trapFkind t).toNat (causeCode t).toNat (trapOff t)) := by
  rw [← raise_eq_faulted]; rfl

/-- Appending output keeps the canonical form. -/
theorem commitOut_wf {e : Bytes} {s t : State} (h : commitOut e s = .ok t)
    (hw : Memory.wf s.obuf = true) : Memory.wf t.obuf = true ∧ t.ibuf = s.ibuf := by
  obtain ⟨-, rfl⟩ := commitOut_ok h
  exact ⟨Memory.writeBytes_wf hw _ _, rfl⟩

/-- Both memories have the canonical form at reset. -/
theorem reset_wf :
    Memory.wf State.reset.ibuf = true ∧ Memory.wf State.reset.obuf = true := ⟨rfl, rfl⟩

theorem byteAt_ibuf (s : State) (o n i : Nat) (h : i < n) :
    byteAt (s.ibufBytes o n) i = s.ibufByte (o + i) := by
  rw [byteAt_of_lt (by simpa [State.ibufBytes] using h)]
  simp [State.ibufBytes]

theorem ibufBytes_length (s : State) (o n : Nat) :
    (s.ibufBytes o n).length = n := by simp [State.ibufBytes]

theorem slice_ibuf (s : State) (o n i j : Nat) (h : j ≤ n) :
    slice (s.ibufBytes o n) i j = s.ibufBytes (o + i) (j - i) := by
  apply List.ext_getElem
  · rw [slice_length (by rw [ibufBytes_length]; exact h), ibufBytes_length]
  · intro k h1 h2
    simp [slice, State.ibufBytes, Nat.add_assoc]

theorem rd16_ibuf (s : State) (o n i : Nat) (h : i + 2 ≤ n) :
    rd16 (s.ibufBytes o n) i = ibufWord16 s (o + i) := by
  rw [rd16, byteAt_ibuf _ _ _ _ (by omega), byteAt_ibuf _ _ _ _ (by omega)]; rfl

theorem rd32_ibuf (s : State) (o n i : Nat) (h : i + 4 ≤ n) :
    rd32 (s.ibufBytes o n) i = ibufWord32 s (o + i) := by
  rw [rd32, byteAt_ibuf _ _ _ _ (by omega), byteAt_ibuf _ _ _ _ (by omega), byteAt_ibuf _ _ _ _ (by omega), byteAt_ibuf _ _ _ _ (by omega)]; rfl

theorem addrAt_ibuf (s : State) (o n i : Nat) (h : i + 16 ≤ n) :
    addrAt (s.ibufBytes o n) i = ibufAddr s (o + i) := by
  apply bytes16_congr
  intro j hj
  rw [byteAt_ibuf _ _ _ _ (by omega), Nat.add_assoc]

theorem raise_cause (s : State) (k : Trap) :
    statusCause (s.raise k).status = causeCode k := by simp [State.raise]

theorem done_cause (s : State) (fl : DoneFlags) :
    statusCause (s.done fl).status = 0 := by simp [State.done]

theorem sticky_raise (s : State) (k : Trap) :
    statusSticky (s.raise k).status = true := by simp [State.raise]

theorem sticky_done (s : State) (fl : DoneFlags) :
    statusSticky (s.done fl).status = statusSticky s.status := by simp [State.done]

/-- The codes a fault records. -/
theorem trap_codes (k : Trap) :
    1 ≤ (causeCode k).toNat ∧ (causeCode k).toNat ≤ 5 ∧ (trapFkind k).toNat ≤ 8 ∧
    ((causeCode k).toNat = 1 ↔ (trapFkind k).toNat ≠ 0) ∧ ((causeCode k).toNat ≠ 1 → trapOff k = 0) := by
  cases k with
  | malformed h off =>
    have : (fkindCode h).toNat ≤ 8 ∧ (fkindCode h).toNat ≠ 0 := by
      cases h with
      | ext k => cases k <;> decide
      | _ => decide
    simp [causeCode, trapFkind, this]
  | _ => simp [causeCode, trapFkind, trapOff]

theorem lowByte_eq (w : Word) : lowByte w = BitVec.ofNat 8 w.toNat := by
  apply BitVec.eq_of_toNat_eq; simp [lowByte]

theorem byteRes_eq (b : Byte) : idRes (some b) = byteRes b := by
  apply BitVec.eq_of_toNat_eq; simp [idRes, byteRes]

theorem idRes_match (c : Option Byte) :
    idRes c = (match c with | some p => byteRes p | none => 0xFFFFFFFF) := by
  cases c with
  | none => rfl
  | some p => exact byteRes_eq p

theorem csumRes_match (c : Option Half) :
    csumRes c = (match c with | some c => BitVec.ofNat 32 c.toNat | none => 0) := by
  cases c with
  | none => rfl
  | some p => apply BitVec.eq_of_toNat_eq; simp [csumRes]

end Sys2Proof.Machine
end

