-- ==== Sys2Proof/Laws/Tlv.lean ====
section
/-! SUPPORT. The TLV scan: its loop unfolded once, free of the fuel, the accumulator and the offset. -/

namespace Sys2Proof.Machine

theorem tlvLoop_succ (r : Bytes) (f pos : Nat) (out : List OptRec) :
    tlvLoop r (f + 1) pos out =
      if pos ≥ r.length then .ok out
      else if byteAt r pos = 0 then tlvLoop r f (pos + 1) out
      else if pos + 1 ≥ r.length then .error pos
      else if pos + 2 + (byteAt r (pos + 1)).toNat > r.length then .error pos
      else tlvLoop r f (pos + 2 + (byteAt r (pos + 1)).toNat)
        (if byteAt r pos = 1 then out else out ++ [⟨byteAt r pos, byteAt r (pos + 1),
          slice r (pos + 2) (pos + 2 + (byteAt r (pos + 1)).toNat)⟩]) := rfl

/-- The records found so far stand in front. -/
theorem tlvLoop_acc (r : Bytes) (f pos : Nat) (out : List OptRec) :
    tlvLoop r f pos out = (tlvLoop r f pos []).map (out ++ ·) := by
  induction f generalizing pos out with
  | zero => simp [tlvLoop, Except.map]
  | succ f ih =>
    rw [tlvLoop_succ, tlvLoop_succ]
    split_ifs
    · simp [Except.map]
    · exact ih _ _
    · rfl
    · rfl
    · exact ih _ _
    · rw [ih _ (out ++ _), ih _ ([] ++ _)]
      cases tlvLoop r f (pos + 2 + (byteAt r (pos + 1)).toNat) [] <;> simp [Except.map]

/-- Enough fuel is enough. -/
theorem tlvLoop_fuel (r : Bytes) (f g pos : Nat) (out : List OptRec) (hf : r.length < pos + f)
    (hg : r.length < pos + g) :
    tlvLoop r f pos out = tlvLoop r g pos out := by
  induction f generalizing g pos out with
  | zero =>
    cases g with
    | zero => rfl
    | succ g => rw [tlvLoop_succ, if_pos (by omega)]; rfl
  | succ f ih =>
    cases g with
    | zero => rw [tlvLoop_succ, if_pos (by omega)]; rfl
    | succ g =>
      rw [tlvLoop_succ, tlvLoop_succ]
      split_ifs
      · rfl
      · exact ih _ _ _ (by omega) (by omega)
      · rfl
      · rfl
      · exact ih _ _ _ (by omega) (by omega)
      · exact ih _ _ _ (by omega) (by omega)

/-- A scan further on in a region is the scan of the rest. -/
theorem tlvLoop_shift (x r : Bytes) (f pos : Nat) (out : List OptRec) :
    tlvLoop (x ++ r) f (x.length + pos) out = (tlvLoop r f pos out).mapError (· + x.length) := by
  induction f generalizing pos out with
  | zero => rfl
  | succ f ih =>
    rw [tlvLoop_succ, tlvLoop_succ]
    have hb : byteAt (x ++ r) (x.length + pos) = byteAt r pos := byteAt_shift ..
    have hb1 : byteAt (x ++ r) (x.length + (pos + 1)) = byteAt r (pos + 1) := byteAt_shift x r (pos + 1)
    simp only [hb, List.length_append, ge_iff_le, Nat.add_assoc, Nat.add_le_add_iff_left, gt_iff_lt, Nat.add_lt_add_iff_left, slice_shift, ih, hb1]
    split_ifs <;> simp [Except.mapError, Nat.add_comm]

theorem tlvScan_shift (x r : Bytes) (out : List OptRec) (f : Nat) (hf : r.length < f) :
    tlvLoop (x ++ r) f x.length out = ((tlvScan r).map (out ++ ·)).mapError (· + x.length) := by
  have := tlvLoop_shift x r f 0 out
  rw [Nat.add_zero] at this
  rw [this, tlvLoop_acc, tlvScan, tlvLoop_fuel r f (r.length + 1) 0 [] (by omega) (by omega)]

end Sys2Proof.Machine
end

