-- ==== Sys2Proof/Laws/ExtHeaders.lean ====
section
/-! SUPPORT. The extension-header decoders, each as one condition and one result, and what decoding into a
slot does. -/

namespace Sys2Proof.Machine

theorem need_bind {α : Type} (k : Kind) (o : Nat) (b : Bytes) (n : Nat) (f : Unit → Except Trap α) :
    (need k o b n >>= f) = if n > b.length then .error (badHeader k o) else f () := by
  unfold need; split <;> rfl

theorem decOpts_eq (k : Kind) (b : Bytes) (o : Nat) : decOpts k b o =
    if 2 ≤ b.length ∧ ((byteAt b 1).toNat + 1) * 8 ≤ b.length then
      match tlvScan (slice b 2 (((byteAt b 1).toNat + 1) * 8)) with
      | .ok opts => .ok (⟨true, byteAt b 0, byteAt b 1, slice b 2 (((byteAt b 1).toNat + 1) * 8), opts⟩,
          ((byteAt b 1).toNat + 1) * 8)
      | .error _ => .error (badHeader k o)
    else .error (badHeader k o) := by
  unfold decOpts
  simp only [need_bind]
  by_cases h1 : 2 > b.length
  · rw [if_pos h1, if_neg (by omega)]
  · rw [if_neg h1]
    by_cases h2 : ((byteAt b 1).toNat + 1) * 8 > b.length
    · rw [if_pos h2, if_neg (by omega)]
    · rw [if_neg h2, if_pos (by omega)]
      unfold scanOptions
      cases tlvScan (slice b 2 (((byteAt b 1).toNat + 1) * 8)) <;> rfl

theorem decRt_eq (b : Bytes) (o : Nat) : decRt b o =
    if 8 ≤ b.length ∧ (byteAt b 1).toNat * 8 + 8 ≤ b.length then
      .ok (⟨true, byteAt b 0, byteAt b 1, byteAt b 2, byteAt b 3, rd32 b 4,
        addrsOf b ((byteAt b 1).toNat / 2),
        slice b (8 + 16 * ((byteAt b 1).toNat / 2)) ((byteAt b 1).toNat * 8 + 8)⟩,
        (byteAt b 1).toNat * 8 + 8)
    else .error (badHeader .rt o) := by
  unfold decRt
  simp only [need_bind]
  by_cases h1 : 8 > b.length
  · rw [if_pos h1, if_neg (by omega)]
  · rw [if_neg h1]
    by_cases h2 : (byteAt b 1).toNat * 8 + 8 > b.length
    · rw [if_pos h2, if_neg (by omega)]
    · rw [if_neg h2, if_pos (by omega)]; rfl

theorem decFrag_eq (b : Bytes) (o : Nat) : decFrag b o =
    if 8 ≤ b.length then .ok (⟨true, byteAt b 0, byteAt b 1, rd16 b 2, rd32 b 4⟩, 8)
    else .error (badHeader .frag o) := by
  unfold decFrag
  simp only [need_bind]
  by_cases h1 : 8 > b.length
  · rw [if_pos h1, if_neg (by omega)]
  · rw [if_neg h1, if_pos (by omega)]; rfl

theorem decAh_eq (b : Bytes) (o : Nat) : decAh b o =
    if 2 ≤ b.length ∧ byteAt b 1 ≠ 0 ∧ ((byteAt b 1).toNat + 2) * 4 ≤ b.length then
      .ok (⟨true, byteAt b 0, byteAt b 1, rd16 b 2, rd32 b 4, rd32 b 8,
        slice b 12 (((byteAt b 1).toNat + 2) * 4)⟩, ((byteAt b 1).toNat + 2) * 4)
    else .error (badHeader .ah o) := by
  unfold decAh
  simp only [need_bind]
  by_cases h1 : 2 > b.length
  · rw [if_pos h1, if_neg (by omega)]
  · rw [if_neg h1]
    unfold needPlen
    by_cases h3 : byteAt b 1 = 0
    · have hn : ¬ (2 ≤ b.length ∧ byteAt b 1 ≠ 0 ∧ ((byteAt b 1).toNat + 2) * 4 ≤ b.length) := fun h => h.2.1 h3
      rw [if_neg hn, if_pos h3]; rfl
    · rw [if_neg h3]
      show (if ((byteAt b 1).toNat + 2) * 4 > b.length then _ else _) = _
      by_cases h2 : ((byteAt b 1).toNat + 2) * 4 > b.length
      · rw [if_pos h2, if_neg (by omega)]
      · rw [if_neg h2, if_pos ⟨by omega, h3, by omega⟩]; rfl

theorem decEsp_eq (b : Bytes) (o : Nat) : decEsp b o =
    if 8 ≤ b.length then .ok (⟨true, rd32 b 0, rd32 b 4, slice b 8 b.length⟩, b.length)
    else .error (badHeader .esp o) := by
  unfold decEsp
  simp only [need_bind]
  by_cases h1 : 8 > b.length
  · rw [if_pos h1, if_neg (by omega)]
  · rw [if_neg h1, if_pos (by omega)]; rfl

theorem decOpts_bounds {k : Kind} {b : Bytes} {o : Nat} {h : OptSlot} {l : Nat}
    (hd : decOpts k b o = .ok (h, l)) : 8 ≤ l ∧ l ≤ b.length := by
  rw [decOpts_eq] at hd
  split_ifs at hd with hc
  split at hd
  · cases hd; omega
  · cases hd

theorem decOpts_error {k : Kind} {b : Bytes} {o : Nat} {t : Trap} (h : decOpts k b o = .error t) :
    t = badHeader k o := by
  rw [decOpts_eq] at h
  split_ifs at h
  · split at h <;> cases h; rfl
  · cases h; rfl

/-- What decoding a header into its slot does: it takes at least 8 bytes and no more than there are
(R212), all of them for ESP (R205), names a next header unless it is ESP (R215), and touches no other
slot. -/
theorem decInto_ok {k : Kind} {ss ss' : Slots} {b : Bytes} {o l : Nat} {nx : Option Byte}
    (hd : decInto k ss b o = .ok (ss', nx, l)) :
    8 ≤ l ∧ l ≤ b.length ∧ (nx = none ↔ k = .esp) ∧ (k = .esp → l = b.length) ∧
      (k ≠ .hop → ss'.hop = ss.hop) ∧ (k ≠ .rt → ss'.rt = ss.rt) ∧ (k ≠ .frag → ss'.frag = ss.frag) ∧
      (k ≠ .ah → ss'.ah = ss.ah) ∧ (k ≠ .esp → ss'.esp = ss.esp) ∧ (k ≠ .dst → ss'.dst = ss.dst) := by
  cases k with
  | hop =>
    obtain ⟨⟨h, m⟩, hx, hd⟩ := except_ok_bind hd
    cases hd
    obtain ⟨h1, h2⟩ := decOpts_bounds hx
    simp [h1, h2]
  | rt =>
    obtain ⟨⟨h, m⟩, hx, hd⟩ := except_ok_bind hd
    cases hd
    rw [decRt_eq] at hx
    split_ifs at hx with hc
    cases hx
    have h1 : 8 ≤ (byteAt b 1).toNat * 8 + 8 := by omega
    have h2 := hc.2
    simp [h1, h2]
  | frag =>
    obtain ⟨⟨h, m⟩, hx, hd⟩ := except_ok_bind hd
    cases hd
    rw [decFrag_eq] at hx
    split_ifs at hx with hc
    cases hx
    have h1 : 8 ≤ 8 := le_refl 8
    have h2 := hc
    simp [h1, h2]
  | ah =>
    obtain ⟨⟨h, m⟩, hx, hd⟩ := except_ok_bind hd
    cases hd
    rw [decAh_eq] at hx
    split_ifs at hx with hc
    cases hx
    have h0 : (byteAt b 1).toNat ≠ 0 := fun e => hc.2.1 (BitVec.eq_of_toNat_eq e)
    have h1 : 8 ≤ ((byteAt b 1).toNat + 2) * 4 := by omega
    have h2 := hc.2.2
    simp [h1, h2]
  | esp =>
    obtain ⟨⟨h, m⟩, hx, hd⟩ := except_ok_bind hd
    cases hd
    rw [decEsp_eq] at hx
    split_ifs at hx with hc
    cases hx
    have h1 := hc
    have h2 : b.length ≤ b.length := le_refl _
    simp [h1, h2]
  | dst =>
    obtain ⟨⟨h, m⟩, hx, hd⟩ := except_ok_bind hd
    cases hd
    obtain ⟨h1, h2⟩ := decOpts_bounds hx
    simp [h1, h2]

/-- A header that does not decode is its own kind's MalformedHeader (R200). -/
theorem decInto_error {k : Kind} {ss : Slots} {b : Bytes} {o : Nat} {t : Trap}
    (hd : decInto k ss b o = .error t) :
    t = badHeader k o := by
  cases k <;>
    (simp only [decInto] at hd
     rcases except_error_bind hd with h | ⟨a, -, h⟩
     rotate_left
     · cases h)
  · exact decOpts_error h
  · rw [decRt_eq] at h; split_ifs at h; cases h; rfl
  · rw [decFrag_eq] at h; split_ifs at h; cases h; rfl
  · rw [decAh_eq] at h; split_ifs at h; cases h; rfl
  · rw [decEsp_eq] at h; split_ifs at h; cases h; rfl
  · exact decOpts_error h

/-- A decode command that succeeds. -/
theorem decCommand_ok {k : Kind} {s : State} {ss : Slots} {nx : Option Byte} {l : Nat}
    (hr : s.arg0.toNat + s.arg1.toNat ≤ s.params.ibufSize)
    (hd : decInto k s.slots (s.ibufBytes s.arg0.toNat s.arg1.toNat) s.arg0.toNat = .ok (ss, nx, l)) :
    decCommand k s = .next (completed s { s with slots := ss, res0 := natRes l, res1 := idRes nx } 0) := by
  unfold decCommand
  rw [region_ok hr]
  show complete s (decInto k s.slots (s.ibufBytes s.arg0.toNat s.arg1.toNat) s.arg0.toNat >>= _) = _
  rw [hd]
  exact complete_ok s _ _ rfl

/-- A decode command whose header is malformed. -/
theorem decCommand_error {k : Kind} {s : State} {t : Trap}
    (hr : s.arg0.toNat + s.arg1.toNat ≤ s.params.ibufSize)
    (hd : decInto k s.slots (s.ibufBytes s.arg0.toNat s.arg1.toNat) s.arg0.toNat = .error t) :
    decCommand k s = .next (faulted s (kindIndex k + 2) 1 s.arg0.toNat) := by
  unfold decCommand
  rw [region_ok hr]
  show complete s (decInto k s.slots (s.ibufBytes s.arg0.toNat s.arg1.toNat) s.arg0.toNat >>= _) = _
  rw [hd, decInto_error hd]
  show Host.Outcome.next _ = _
  rw [raise_eq_faulted]
  cases k <;> rfl

end Sys2Proof.Machine
end

