-- ==== Sys2Proof/Laws/Chain.lean ====
section
/-! SUPPORT. The walker: one dispatch, the loop unfolded once, an induction over it, and where it ends. -/

namespace Sys2Proof.Machine

theorem idOf_mem (k : Kind) : idOf k ∈ extIds := by cases k <;> decide

theorem kindOf_idOf (k : Kind) : kindOf (idOf k) = some k := by cases k <;> decide

theorem kindOf_none : ∀ p : Byte, kindOf p = none ↔ p ∉ extIds := by decide

theorem nhOk_kindOf : ∀ p : Byte, nhOk p = (kindOf p).isSome := by decide

/-- What one dispatch does to the walker. -/
theorem dispatch_ok {k : Kind} {w v : Walker} (h : w.dispatch k = .ok v) :
    ∃ ss nx l, decInto k w.slots (w.buf.drop w.pos) (w.off + w.pos) = .ok (ss, nx, l) ∧
      v = { w with slots := ss, chain := w.chain ++ [idOf k], pos := w.pos + l, cur := nx } := by
  obtain ⟨⟨ss, nx, l⟩, h1, h2⟩ := except_ok_bind h
  cases h2
  exact ⟨ss, nx, l, h1, rfl⟩

theorem dispatch_error {k : Kind} {w : Walker} {t : Trap} (h : w.dispatch k = .error t) :
    t = .malformed (.ext k) (w.off + w.pos) := by
  rcases except_error_bind h with h | ⟨a, -, h⟩
  · exact decInto_error h
  · cases h

theorem walkLoop_succ (f : Nat) (w : Walker) : walkLoop (f + 1) w =
    match w.next? with
    | none => .ok w
    | some k => w.dispatch k >>= walkLoop f := by
  rw [walkLoop]
  cases w.next? with
  | none => rfl
  | some k => dsimp only; cases w.dispatch k <;> rfl

/-- An induction principle for walks. -/
theorem walkLoop_ind {P : Walker → Prop}
    (hstep : ∀ w k v, P w → w.next? = some k → w.dispatch k = .ok v → P v)
    (f : Nat) (w v : Walker) (h : walkLoop f w = .ok v) (hw : P w) : P v := by
  induction f generalizing w with
  | zero => cases h; exact hw
  | succ f ih =>
    rw [walkLoop_succ] at h
    split at h
    · cases h; exact hw
    · rename_i k hk
      obtain ⟨u, h1, h2⟩ := except_ok_bind h
      exact ih u h2 (hstep w k u hw hk h1)

/-- A walk that fails fails at its first header that does not decode. -/
theorem walkLoop_fails {P : Walker → Prop}
    (hstep : ∀ w k v, P w → w.next? = some k → w.dispatch k = .ok v → P v)
    (f : Nat) (w : Walker) (t : Trap) (h : walkLoop f w = .error t) (hw : P w) :
    ∃ v k, P v ∧ v.next? = some k ∧ v.dispatch k = .error t := by
  induction f generalizing w with
  | zero => cases h
  | succ f ih =>
    rw [walkLoop_succ] at h
    split at h
    · cases h
    · rename_i k hk
      rcases except_error_bind h with h | ⟨u, h1, h2⟩
      · exact ⟨w, k, hw, hk, h⟩
      · exact ih u h2 (hstep w k u hw hk h1)

/-- The loop ends only where no header comes next. -/
theorem walkLoop_done (f : Nat) (w v : Walker) (h : walkLoop f w = .ok v)
    (hp : w.pos ≤ w.buf.length) (hf : w.buf.length - w.pos < f) :
    v.next? = none := by
  induction f generalizing w with
  | zero => omega
  | succ f ih =>
    rw [walkLoop_succ] at h
    split at h
    · cases h; assumption
    · rename_i k hk
      obtain ⟨u, h1, h2⟩ := except_ok_bind h
      obtain ⟨ss, nx, l, hd, rfl⟩ := dispatch_ok h1
      obtain ⟨a, b, -⟩ := decInto_ok hd
      rw [List.length_drop] at b
      exact ih _ h2 (by dsimp only; omega) (by dsimp only; omega)

theorem nhDispatch_ok {k : Kind} {s : State} {w : Walker} (h : s.walker.dispatch k = .ok w) :
    nhDispatch k s = .next { s with walker := w } := by unfold nhDispatch; rw [h]

theorem nhDispatch_error {k : Kind} {s : State} {t : Trap} (h : s.walker.dispatch k = .error t) :
    nhDispatch k s = .next (State.raise t { s with walker := Walker.idle }) := by unfold nhDispatch; rw [h]

theorem nhDispatch_cases (k : Kind) (s : State) :
    (∃ w, s.walker.dispatch k = .ok w ∧ nhDispatch k s = .next { s with walker := w }) ∨
    (∃ off, s.walker.dispatch k = .error (.malformed (.ext k) off) ∧
      nhDispatch k s = .next (State.raise (.malformed (.ext k) off) { s with walker := Walker.idle })) := by
  cases h : s.walker.dispatch k with
  | ok w => left; exact ⟨w, rfl, nhDispatch_ok h⟩
  | error t => right; have := dispatch_error h; subst this; exact ⟨_, rfl, nhDispatch_error h⟩

end Sys2Proof.Machine
end

