-- ==== Sys2Proof/Laws/Checksum.lean ====
section
/-! SUPPORT. The checksum: the sum splits at an even offset; what a fix-up that writes has computed. -/

namespace Sys2Proof.Machine

theorem sumWords_append (x y : Bytes) (h : x.length % 2 = 0) :
    sumWords (x ++ y) = sumWords x + sumWords y := by
  induction x using sumWords.induct with
  | case1 => simp [sumWords]
  | case2 a => simp at h
  | case3 a b r ih =>
    simp only [List.cons_append, sumWords]
    rw [ih (by simp at h; omega)]; omega

theorem pseudo_length (src dst : Bytes16) (p : Byte) (n : Nat) :
    (pseudo src dst p n).length = 36 := by
  simp [pseudo, be16, src.property, dst.property]

theorem csumId_iff (p : Byte) : csumId p = true ↔ p = 6 ∨ p = 17 ∨ p = 58 := by
  simp [csumId, or_assoc]

/-- A fix-up that wrote a checksum computed it over a payload of at most 0xFFFF bytes. -/
theorem fixup_cases {u : Ulc} {p : Byte} {h : Obj} {src dst : Bytes16} {r : FixupResult} {c : Half}
    (hf : fixup u (some p) (.obj h) src dst = .ok r) (hc : r.csum = some c) :
    (u.serialize h).length ≤ 0xFFFF ∧ c = cksum (pseudo src dst p (u.serialize h).length ++ u.serialize h) := by
  unfold fixup at hf
  dsimp only at hf
  split_ifs at hf
  all_goals try (cases hf; cases hc)
  obtain ⟨x, hx, hf⟩ := except_ok_bind hf
  cases hf
  cases hc
  unfold needLen at hx
  split_ifs at hx with hl
  exact ⟨by omega, rfl⟩

end Sys2Proof.Machine
end

