-- ==== Sys2Proof/Laws/Packet.lean ====
section
/-! SUPPORT. The fixed header and the working payload region, read from IBUF. -/

namespace Sys2Proof.Machine

theorem needFixed_bind {α : Type} (o : Nat) (p : Prop) [Decidable p] (f : Unit → Except Trap α) :
    (needFixed o p >>= f) = if p then .error (.malformed .fixed o) else f () := by
  unfold needFixed; split <;> rfl

theorem decFixed_eq (b : Bytes) (o : Nat) : decFixed b o =
    if 40 ≤ b.length ∧ ((readFixed b).plen ≠ 0 → 40 + (readFixed b).plen.toNat ≤ b.length) then .ok (readFixed b)
    else .error (.malformed .fixed o) := by
  unfold decFixed
  simp only [needFixed_bind]
  by_cases h1 : b.length < 40
  · rw [if_pos h1, if_neg (by omega)]
  · rw [if_neg h1]
    by_cases h2 : (readFixed b).plen ≠ 0 ∧ 40 + (readFixed b).plen.toNat > b.length
    · rw [if_pos h2, if_neg (fun h => by have := h.2 h2.1; omega)]
    · rw [if_neg h2, if_pos ⟨by omega, fun h => by by_contra hh; exact h2 ⟨h, by omega⟩⟩]; rfl

theorem readFixed_ibuf (s : State) (o n : Nat) (h : 40 ≤ n) :
    readFixed (s.ibufBytes o n) = ibufFixed s o := by
  unfold readFixed ibufFixed
  rw [rd32_ibuf _ _ _ _ (by omega), rd16_ibuf _ _ _ _ (by omega), byteAt_ibuf _ _ _ _ (by omega), byteAt_ibuf _ _ _ _ (by omega), addrAt_ibuf _ _ _ _ (by omega), addrAt_ibuf _ _ _ _ (by omega)]; rfl

theorem decFixed_ibuf_ok (s : State) (o n p : Nat) (h : 40 ≤ n)
    (hp : (ibufFixed s o).plen ≠ 0 → 40 + (ibufFixed s o).plen.toNat ≤ n) :
    decFixed (s.ibufBytes o n) p = .ok (ibufFixed s o) := by
  rw [decFixed_eq, ibufBytes_length, readFixed_ibuf _ _ _ h, if_pos ⟨h, hp⟩]

theorem decFixed_ibuf_bad (s : State) (o n p : Nat)
    (h : n < 40 ∨ ((ibufFixed s o).plen ≠ 0 ∧ n < 40 + (ibufFixed s o).plen.toNat)) :
    decFixed (s.ibufBytes o n) p = .error (.malformed .fixed p) := by
  rw [decFixed_eq, ibufBytes_length]
  by_cases h1 : n < 40
  · rw [if_neg (by omega)]
  · obtain ⟨h2, h3⟩ := h.resolve_left h1
    rw [readFixed_ibuf _ _ _ (by omega), if_neg (fun hh => by have := hh.2 h2; omega)]

theorem workRegion_ibuf (s : State) (o n : Nat) (f : FixedHdr) (h : 40 ≤ n)
    (hp : f.plen ≠ 0 → 40 + f.plen.toNat ≤ n) :
    workRegion (s.ibufBytes o n) f = s.ibufBytes (o + 40) (workLen f n) := by
  unfold workRegion workLen
  by_cases h0 : f.plen = 0
  · rw [if_neg (by simp [h0]), if_pos h0]
    have := slice_ibuf s o n 40 n (le_refl _)
    rw [← this]
    unfold slice
    rw [List.take_of_length_le]
    simp [ibufBytes_length]
  · rw [if_pos h0, if_neg h0, slice_ibuf _ _ _ _ _ (hp h0)]
    congr 1; omega

end Sys2Proof.Machine
end

