-- ==== Sys2Proof/Laws/Exec.lean ====
section
/-! SUPPORT. What an instruction can do: every command is a body that is completed, and `exec_cases` says once
what any instruction can leave of a state. -/

namespace Sys2Proof.Machine

theorem isCommand_or_nh (i : Instr) : isCommand i = true ∨ ∃ k, i = nhInstr k := by
  cases i <;> first | exact Or.inl rfl | (right; first | exact ⟨.hop, rfl⟩ | exact ⟨.rt, rfl⟩ | exact ⟨.frag, rfl⟩ | exact ⟨.ah, rfl⟩ | exact ⟨.esp, rfl⟩ | exact ⟨.dst, rfl⟩)

theorem exec_nh (k : Kind) (s : State) : exec (nhInstr k) s = nhDispatch k s := by cases k <;> rfl

/-- What a command's own writes leave alone before it completes. -/
structure BodyFrame (i : Instr) (s t : State) (fl : DoneFlags) : Prop where
  cmd : t.cmd = s.cmd
  arg0 : t.arg0 = s.arg0
  arg1 : t.arg1 = s.arg1
  arg2 : t.arg2 = s.arg2
  arg3 : t.arg3 = s.arg3
  status : t.status = s.status
  ibuf : t.ibuf = s.ibuf
  walker : t.walker = s.walker
  host : t.host = s.host
  params : t.params = s.params
  resets : t.resets = s.resets
  out : (t.obuf = s.obuf ∧ t.olen = s.olen) ∨
    (writesObuf i = true ∧ ∃ e, s.olen.toNat + e.length ≤ s.params.obufSize ∧
      t.obuf = Memory.writeBytes s.obuf s.olen.toNat e ∧
      t.olen = BitVec.ofNat 32 (s.olen.toNat + e.length))
  scan : t.scan = s.scan ∨ t.scan = [] ∨ ∃ r, tlvScan r = .ok t.scan
  chain : t.chain = s.chain ∨ t.chain = [] ∨ ∃ f b o w, walk f b o = .ok w ∧ t.chain = w.chain
  ulpRaw : fl.ulpRaw = (fl.rawWhy != 0)
  pktDec : fl.ulpRaw = true ∨ fl.rawWhy ≠ 0 → i = .pktDec
  csum : fl.csumWritten = true ∨ fl.csumSkipped = true → i = .pktEnc ∨ i = .csumFixup

/-- Two IBUFs agree on the region an instruction names. -/
def agree (i : Instr) (s : State) (m : Memory) : Prop :=
  ∀ o n, regionOf i s = some (o, n) → ∀ a, o.toNat ≤ a → a < o.toNat + n.toNat →
      State.ibufByte { s with ibuf := m } a = s.ibufByte a

/-- `r` is what the command `i` does before it completes. -/
structure Body (i : Instr) (r : State → Except Trap (State × DoneFlags)) : Prop where
  exec : ∀ s, exec i s = complete s (r s)
  frame : ∀ s t fl, r s = .ok (t, fl) → BodyFrame i s t fl
  status : ∀ s w, r { s with status := w } = (r s).map (fun p => ({ p.1 with status := w }, p.2))
  ibuf : ∀ s m, agree i s m →
    r { s with ibuf := m } = (r s).map (fun p => ({ p.1 with ibuf := m }, p.2))

theorem region_ibuf {i : Instr} {s : State} {m : Memory} {o n : Word} (h : agree i s m)
    (hr : regionOf i s = some (o, n)) : region { s with ibuf := m } o n = region s o n := by
  have : State.ibufBytes { s with ibuf := m } o.toNat n.toNat = s.ibufBytes o.toNat n.toNat := by
    apply List.map_congr_left
    intro j hj
    exact h o n hr _ (by omega) (by have := List.mem_range.1 hj; omega)
  simp only [region, this]

/-- A command that only writes registers. -/
theorem body_pure (i : Instr) (f : State → State) (hx : ∀ s, exec i s = complete s (.ok (f s, {})))
    (hf : ∀ s, BodyFrame i s (f s) {})
    (hs : ∀ s w, f { s with status := w } = { f s with status := w })
    (hi : ∀ s w, f { s with ibuf := w } = { f s with ibuf := w }) :
    Body i (fun s => .ok (f s, {})) := by
  refine ⟨hx, ?_, ?_, ?_⟩
  · intro s t fl h; cases h; exact hf s
  · intro s w; show Except.ok (f _, _) = Except.ok (_, _); rw [hs]
  · intro s w _; show Except.ok (f _, _) = Except.ok (_, _); rw [hi]

/-- A command that reads one region of IBUF and goes on from its bytes. -/
theorem body_region (i : Instr) (o n : State → Word)
    (f : State → Bytes → Except Trap (State × DoneFlags))
    (hx : ∀ s, exec i s = complete s (region s (o s) (n s) >>= f s))
    (hr : ∀ s, regionOf i s = some (o s, n s))
    (hf : ∀ s b t fl, f s b = .ok (t, fl) → BodyFrame i s t fl)
    (ho : ∀ s w, o { s with status := w } = o s ∧ n { s with status := w } = n s)
    (hi : ∀ s m, o { s with ibuf := m } = o s ∧ n { s with ibuf := m } = n s)
    (hfs : ∀ s w b, f { s with status := w } b =
      (f s b).map (fun p => ({ p.1 with status := w }, p.2)))
    (hfi : ∀ s m b, f { s with ibuf := m } b =
      (f s b).map (fun p => ({ p.1 with ibuf := m }, p.2))) : ∃ r, Body i r := by
  refine ⟨_, hx, ?_, ?_, ?_⟩
  · intro s t fl h
    obtain ⟨b, -, h⟩ := except_ok_bind h
    exact hf s b t fl h
  · intro s w
    rw [except_map_bind, (ho s w).1, (ho s w).2]
    show region s (o s) (n s) >>= _ = _
    congr 1; funext b; exact hfs s w b
  · intro s m ha
    rw [except_map_bind, (hi s m).1, (hi s m).2, region_ibuf ha (hr s)]
    congr 1; funext b; exact hfi s m b

/-- A command that computes a result from the state, appends bytes to OBUF and then writes
registers. -/
theorem body_commit {α : Type} (i : Instr) (pre : State → Except Trap α) (e : State → α → Bytes)
    (g : State → α → State → State) (fl : α → DoneFlags)
    (hx : ∀ s, exec i s =
      complete s (pre s >>= fun a => commitOut (e s a) s >>= fun t => .ok (g s a t, fl a)))
    (hf : ∀ s a u, s.olen.toNat + (e s a).length ≤ s.params.obufSize → u = appended s (e s a) →
      BodyFrame i s (g s a u) (fl a))
    (hp : ∀ s w, pre { s with status := w } = pre s ∧ e { s with status := w } = e s)
    (hq : ∀ s m, pre { s with ibuf := m } = pre s ∧ e { s with ibuf := m } = e s)
    (hgs : ∀ s w a t, g { s with status := w } a { t with status := w } =
      { g s a t with status := w })
    (hgi : ∀ s m a t, g { s with ibuf := m } a { t with ibuf := m } = { g s a t with ibuf := m }) :
    ∃ r, Body i r := by
  refine ⟨_, hx, ?_, ?_, ?_⟩
  · intro s t fl' h
    obtain ⟨a, -, h⟩ := except_ok_bind h
    obtain ⟨u, hu, h⟩ := except_ok_bind h
    obtain ⟨hl, hu⟩ := commitOut_ok hu
    cases h
    exact hf s a u hl hu
  · intro s w
    rw [except_map_bind, (hp s w).1]
    congr 1; funext a
    rw [except_map_bind, (hp s w).2, commitOut_eq, commitOut_eq]
    show (if s.olen.toNat + (e s a).length ≤ s.params.obufSize then _ else _) >>= _ = _
    split_ifs
    · show Except.ok (g _ a { appended s (e s a) with status := w }, _) = _
      rw [hgs]; rfl
    · rfl
  · intro s m _
    rw [except_map_bind, (hq s m).1]
    congr 1; funext a
    rw [except_map_bind, (hq s m).2, commitOut_eq, commitOut_eq]
    show (if s.olen.toNat + (e s a).length ≤ s.params.obufSize then _ else _) >>= _ = _
    split_ifs
    · show Except.ok (g _ a { appended s (e s a) with ibuf := m }, _) = _
      rw [hgi]; rfl
    · rfl

/-- The system and field-bitpacking commands. -/
theorem exec_body_pure (i : Instr)
    (h : i ∈ [Instr.nop, .clear, .packW0, .unpackW0, .getVer, .getTc, .getFlow, .setVer, .setTc,
      .setFlow, .packFrag, .unpackFrag, .getFoff, .getMf, .setFoff, .setMf, .packRt, .unpackRt,
      .getSlbits, .setSlbits]) : ∃ r, Body i r := by
  simp only [List.mem_cons, List.not_mem_nil, or_false] at h
  rcases h with rfl | rfl | rfl | rfl | rfl | rfl | rfl | rfl | rfl | rfl | rfl | rfl | rfl | rfl |
    rfl | rfl | rfl | rfl | rfl | rfl <;>
  exact ⟨_, body_pure _ _ (fun s => rfl)
    (fun s => by
      constructor <;> first
        | rfl
        | exact Or.inl rfl
        | exact Or.inl ⟨rfl, rfl⟩
        | exact Or.inr (Or.inl rfl)
        | (intro h; exact absurd h (by decide)))
    (fun _ _ => rfl) (fun _ _ => rfl)⟩

/-- The six decode commands. -/
theorem body_dec (i : Instr) (k : Kind) (hx : ∀ s, exec i s = decCommand k s)
    (hr : ∀ s, regionOf i s = some (s.arg0, s.arg1)) : ∃ r, Body i r := by
  refine body_region i State.arg0 State.arg1 _ hx hr ?_ (fun _ _ => ⟨rfl, rfl⟩)
    (fun _ _ => ⟨rfl, rfl⟩) (fun s w b => ?_) (fun s w b => ?_)
  · intro s b t fl h
    obtain ⟨⟨ss, nx, l⟩, -, h⟩ := except_ok_bind h
    cases h
    constructor <;> first
      | rfl
      | exact Or.inl rfl
      | exact Or.inl ⟨rfl, rfl⟩
      | (intro h; exact absurd h (by decide))
  · rw [except_map_bind]; rfl
  · rw [except_map_bind]; rfl

/-- The six encode commands. -/
theorem body_enc (i : Instr) (k : Kind) (hx : ∀ s, exec i s = encCommand k s)
    (hw : writesObuf i = true) : ∃ r, Body i r := by
  refine body_commit i (fun _ => .ok ()) (fun s _ => encSlot k s.slots)
    (fun s _ t => { t with
      res0 := natRes (encSlot k s.slots).length
      res1 := natRes (blenSlot k s.slots) }) (fun _ => {}) hx ?_ (fun _ _ => ⟨rfl, rfl⟩)
    (fun _ _ => ⟨rfl, rfl⟩) (fun _ _ _ _ => rfl) (fun _ _ _ _ => rfl)
  intro s a u hl hu
  subst hu
  constructor <;> first
    | rfl
    | exact Or.inl rfl
    | exact Or.inr ⟨hw, _, hl, rfl, rfl⟩
    | (intro h; exact absurd h (by decide))

theorem body_fixEnc : ∃ r, Body .fixEnc r := by
  refine body_commit _ (fun _ => .ok ()) (fun s _ => encFixed s.fix)
    (fun _ _ t => { t with res0 := 40 }) (fun _ => {}) (fun _ => rfl) ?_ (fun _ _ => ⟨rfl, rfl⟩)
    (fun _ _ => ⟨rfl, rfl⟩) (fun _ _ _ _ => rfl) (fun _ _ _ _ => rfl)
  intro s a u hl hu
  subst hu
  constructor <;> first
    | rfl
    | exact Or.inl rfl
    | exact Or.inr ⟨rfl, _, hl, rfl, rfl⟩
    | (intro h; exact absurd h (by decide))

theorem body_pktEnc : ∃ r, Body .pktEnc r := by
  refine body_commit _ stateFixup (fun s r => pktBytes s r.payload)
    (fun s r t => { t with
      payload := r.payload
      res0 := natRes (pktBytes s r.payload).length
      res1 := csumRes r.csum }) fixupFlags (fun _ => rfl) ?_ (fun _ _ => ⟨rfl, rfl⟩)
    (fun _ _ => ⟨rfl, rfl⟩) (fun _ _ _ _ => rfl) (fun _ _ _ _ => rfl)
  intro s a u hl hu
  subst hu
  constructor <;> first
    | rfl
    | exact Or.inl rfl
    | exact Or.inr ⟨rfl, _, hl, rfl, rfl⟩
    | (intro _; exact Or.inl rfl)
    | (intro h; simp [fixupFlags] at h)

theorem body_csumFixup : ∃ r, Body .csumFixup r := by
  refine ⟨_, fun s => rfl, ?_, fun s w => ?_, fun s w _ => ?_⟩
  · intro s t fl h
    obtain ⟨r, -, h⟩ := except_ok_bind h
    cases h
    constructor <;> first
      | rfl
      | exact Or.inl rfl
      | exact Or.inl ⟨rfl, rfl⟩
      | (intro _; exact Or.inr rfl)
      | (intro h; simp [fixupFlags] at h)
  · rw [except_map_bind]; rfl
  · rw [except_map_bind]; rfl

theorem body_csumPseudo : ∃ r, Body .csumPseudo r := by
  refine ⟨_, fun s => rfl, ?_, fun s w => ?_, fun s w _ => ?_⟩
  · intro s t fl h
    obtain ⟨r, -, h⟩ := except_ok_bind h
    cases h
    constructor <;> first
      | rfl
      | exact Or.inl rfl
      | exact Or.inl ⟨rfl, rfl⟩
      | (intro h; exact absurd h (by decide))
  · rw [except_map_bind]; rfl
  · rw [except_map_bind]; rfl

theorem body_csumCompute : ∃ r, Body .csumCompute r := by
  refine body_region _ State.arg1 State.arg2 _ (fun _ => rfl) (fun _ => rfl) ?_
    (fun _ _ => ⟨rfl, rfl⟩) (fun _ _ => ⟨rfl, rfl⟩) (fun s w b => ?_) (fun s w b => ?_)
  · intro s b t fl h
    obtain ⟨_, -, h⟩ := except_ok_bind h
    cases h
    constructor <;> first
      | rfl
      | exact Or.inl rfl
      | exact Or.inl ⟨rfl, rfl⟩
      | (intro h; exact absurd h (by decide))
  · rw [except_map_bind]; rfl
  · rw [except_map_bind]; rfl

theorem body_tlvScan : ∃ r, Body .tlvScan r := by
  refine body_region _ State.arg0 State.arg1 _ (fun _ => rfl) (fun _ => rfl) ?_
    (fun _ _ => ⟨rfl, rfl⟩) (fun _ _ => ⟨rfl, rfl⟩) (fun s w b => ?_) (fun s w b => ?_)
  · intro s b t fl h
    obtain ⟨out, ho, h⟩ := except_ok_bind h
    cases h
    have : tlvScan b = .ok out := by
      unfold tlvScanAt at ho
      split at ho
      · cases ho; assumption
      · cases ho
    constructor <;> first
      | rfl
      | exact Or.inr (Or.inr ⟨b, this⟩)
      | exact Or.inl rfl
      | exact Or.inl ⟨rfl, rfl⟩
      | (intro h; exact absurd h (by decide))
  · rw [except_map_bind]; rfl
  · rw [except_map_bind]; rfl

theorem body_chainWalk : ∃ r, Body .chainWalk r := by
  refine body_region _ State.arg0 State.arg1 _ (fun _ => rfl) (fun _ => rfl) ?_
    (fun _ _ => ⟨rfl, rfl⟩) (fun _ _ => ⟨rfl, rfl⟩) (fun s w b => ?_) (fun s w b => ?_)
  · intro s b t fl h
    obtain ⟨w, hw, h⟩ := except_ok_bind h
    cases h
    constructor <;> first
      | rfl
      | exact Or.inr (Or.inr ⟨_, b, _, w, hw, rfl⟩)
      | exact Or.inl rfl
      | exact Or.inl ⟨rfl, rfl⟩
      | (intro h; exact absurd h (by decide))
  · rw [except_map_bind]; rfl
  · rw [except_map_bind]; rfl

theorem body_fixDec : ∃ r, Body .fixDec r := by
  refine body_region _ State.arg0 State.arg1 _ (fun _ => rfl) (fun _ => rfl) ?_
    (fun _ _ => ⟨rfl, rfl⟩) (fun _ _ => ⟨rfl, rfl⟩) (fun s w b => ?_) (fun s w b => ?_)
  · intro s b t fl h
    obtain ⟨f, -, h⟩ := except_ok_bind h
    cases h
    constructor <;> first
      | rfl
      | exact Or.inl rfl
      | exact Or.inl ⟨rfl, rfl⟩
      | (intro h; exact absurd h (by decide))
  · rw [except_map_bind]; rfl
  · rw [except_map_bind]; rfl

theorem body_pktDec : ∃ r, Body .pktDec r := by
  refine body_region _ State.arg0 State.arg1 _ (fun _ => rfl) (fun _ => rfl) ?_
    (fun _ _ => ⟨rfl, rfl⟩) (fun _ _ => ⟨rfl, rfl⟩) (fun s w b => ?_) (fun s w b => ?_)
  · intro s b t fl h
    obtain ⟨r, hr, h⟩ := except_ok_bind h
    cases h
    obtain ⟨f, -, hr⟩ := except_ok_bind hr
    obtain ⟨w, hw, hr⟩ := except_ok_bind hr
    cases hr
    constructor <;> first
      | rfl
      | exact Or.inr (Or.inr ⟨_, _, _, w, hw, rfl⟩)
      | exact Or.inl rfl
      | exact Or.inl ⟨rfl, rfl⟩
      | (intro _; rfl)
      | (intro h; simp at h)
  · rw [except_map_bind]; rfl
  · rw [except_map_bind]; rfl

/-- Every command has a body. -/
theorem exec_body (i : Instr) (h : isCommand i = true) : ∃ r, Body i r := by
  cases i with
  | decHop => exact body_dec _ .hop (fun _ => rfl) (fun _ => rfl)
  | decRt => exact body_dec _ .rt (fun _ => rfl) (fun _ => rfl)
  | decFrag => exact body_dec _ .frag (fun _ => rfl) (fun _ => rfl)
  | decAh => exact body_dec _ .ah (fun _ => rfl) (fun _ => rfl)
  | decEsp => exact body_dec _ .esp (fun _ => rfl) (fun _ => rfl)
  | decDst => exact body_dec _ .dst (fun _ => rfl) (fun _ => rfl)
  | encHop => exact body_enc _ .hop (fun _ => rfl) rfl
  | encRt => exact body_enc _ .rt (fun _ => rfl) rfl
  | encFrag => exact body_enc _ .frag (fun _ => rfl) rfl
  | encAh => exact body_enc _ .ah (fun _ => rfl) rfl
  | encEsp => exact body_enc _ .esp (fun _ => rfl) rfl
  | encDst => exact body_enc _ .dst (fun _ => rfl) rfl
  | tlvScan => exact body_tlvScan
  | chainWalk => exact body_chainWalk
  | fixDec => exact body_fixDec
  | fixEnc => exact body_fixEnc
  | pktDec => exact body_pktDec
  | pktEnc => exact body_pktEnc
  | csumPseudo => exact body_csumPseudo
  | csumCompute => exact body_csumCompute
  | csumFixup => exact body_csumFixup
  | nhHop => cases h
  | nhRt => cases h
  | nhFrag => cases h
  | nhEsp => cases h
  | nhAh => cases h
  | nhDst => cases h
  | _ => exact exec_body_pure _ (by simp)

/-- What any instruction can do to a state. -/
theorem exec_cases (i : Instr) (s : State) :
    (isCommand i = true ∧ ∃ k, exec i s = .next (s.raise k)) ∨
    (isCommand i = true ∧ ∃ t fl, exec i s = .next (t.done fl) ∧ BodyFrame i s t fl) ∨
    (isCommand i = false ∧ ∃ w, exec i s = .next { s with walker := w }) ∨
    (isCommand i = false ∧ ∃ k off, exec i s = .next (State.raise (.malformed (.ext k) off) { s with walker := Walker.idle })) := by
  rcases isCommand_or_nh i with h | ⟨k, rfl⟩
  · obtain ⟨r, hr⟩ := exec_body i h
    cases hb : r s with
    | error k => left; exact ⟨h, k, by rw [hr.exec, hb]; rfl⟩
    | ok p => right; left; exact ⟨h, p.1, p.2, by rw [hr.exec, hb]; rfl, hr.frame s _ _ hb⟩
  · have hk : isCommand (nhInstr k) = false := by cases k <;> rfl
    rcases nhDispatch_cases k s with ⟨w, -, hw⟩ | ⟨off, -, hw⟩
    · right; right; left; exact ⟨hk, w, by rw [exec_nh, hw]⟩
    · right; right; right; exact ⟨hk, k, off, by rw [exec_nh, hw]⟩

/-- A command that completes with a cause has raised a fault. -/
theorem command_fault {i : Instr} {s t : State} (hc : isCommand i = true)
    (h : exec i s = .next t) (hf : statusCause t.status ≠ 0) :
    ∃ k, t = s.raise k := by
  rcases exec_cases i s with ⟨-, k, h'⟩ | ⟨-, t', fl, h', hf'⟩ | ⟨h0, -⟩ | ⟨h0, -⟩
  · rw [h'] at h; cases h; exact ⟨k, rfl⟩
  · rw [h'] at h; cases h; exact absurd (done_cause ..) hf
  · rw [hc] at h0; cases h0
  · rw [hc] at h0; cases h0

end Sys2Proof.Machine
end

