-- ==== Sys2Proof/Laws/PerInstr.lean ====
section
/-! SUPPORT. Statements made per instruction, about the instruction as syntax. -/

namespace Sys2Proof.Laws.EncodingLegal

/-- The word the encoder writes for the instruction is one the spec's own lists of reserved and
illegal words (30_encoding.md R100, R105, R120) leave legal. -/
def Statement (i : Instr) : Prop := (encode i).wellFormed = true

theorem nop : Statement .nop := rfl
theorem clear : Statement .clear := rfl
theorem packW0 : Statement .packW0 := rfl
theorem unpackW0 : Statement .unpackW0 := rfl
theorem getVer : Statement .getVer := rfl
theorem getTc : Statement .getTc := rfl
theorem getFlow : Statement .getFlow := rfl
theorem setVer : Statement .setVer := rfl
theorem setTc : Statement .setTc := rfl
theorem setFlow : Statement .setFlow := rfl
theorem packFrag : Statement .packFrag := rfl
theorem unpackFrag : Statement .unpackFrag := rfl
theorem getFoff : Statement .getFoff := rfl
theorem getMf : Statement .getMf := rfl
theorem setFoff : Statement .setFoff := rfl
theorem setMf : Statement .setMf := rfl
theorem packRt : Statement .packRt := rfl
theorem unpackRt : Statement .unpackRt := rfl
theorem getSlbits : Statement .getSlbits := rfl
theorem setSlbits : Statement .setSlbits := rfl
theorem decHop : Statement .decHop := rfl
theorem decRt : Statement .decRt := rfl
theorem decFrag : Statement .decFrag := rfl
theorem decAh : Statement .decAh := rfl
theorem decEsp : Statement .decEsp := rfl
theorem decDst : Statement .decDst := rfl
theorem encHop : Statement .encHop := rfl
theorem encRt : Statement .encRt := rfl
theorem encFrag : Statement .encFrag := rfl
theorem encAh : Statement .encAh := rfl
theorem encEsp : Statement .encEsp := rfl
theorem encDst : Statement .encDst := rfl
theorem tlvScan : Statement .tlvScan := rfl
theorem chainWalk : Statement .chainWalk := rfl
theorem fixDec : Statement .fixDec := rfl
theorem fixEnc : Statement .fixEnc := rfl
theorem pktDec : Statement .pktDec := rfl
theorem pktEnc : Statement .pktEnc := rfl
theorem csumPseudo : Statement .csumPseudo := rfl
theorem csumCompute : Statement .csumCompute := rfl
theorem csumFixup : Statement .csumFixup := rfl
theorem nhHop : Statement .nhHop := rfl
theorem nhRt : Statement .nhRt := rfl
theorem nhFrag : Statement .nhFrag := rfl
theorem nhEsp : Statement .nhEsp := rfl
theorem nhAh : Statement .nhAh := rfl
theorem nhDst : Statement .nhDst := rfl

end Sys2Proof.Laws.EncodingLegal
end

