-- ==== Sys2Proof/Laws/Step.lean ====
section
/-! SUPPORT. What a step can do, and runs one step at a time. -/

namespace Sys2Proof.Machine

theorem fetch_none (s : State) (h : s.cmd = none)
    (hw : ∀ p, s.walker.cur = some p → kindOf p = none) :
    fetch s = none := by
  unfold fetch; rw [h]
  cases hc : s.walker.cur with
  | none => rfl
  | some p => simp [nhOk_kindOf, hw p hc]

/-- A step runs an instruction, refuses an illegal word, or is the host's turn. -/
theorem step_cases (s : State) :
    (∃ i, step s = exec i (afterFetch s)) ∨ (step s = illegalCommand (afterFetch s)) ∨
    (fetch s = none ∧ step s = hostTurn s) := by
  unfold step
  cases hf : fetch s with
  | none => exact Or.inr (Or.inr ⟨rfl, rfl⟩)
  | some f =>
    dsimp only
    cases decode f with
    | ok i => exact Or.inl ⟨i, rfl⟩
    | error e => exact Or.inr (Or.inl rfl)

theorem hostTurn_cases {s t : State} (h : hostTurn s = .next t) :
    t = s ∨ ∃ a rest, s.host = a :: rest ∧ hostAct { s with host := rest } a = .next t := by
  unfold hostTurn at h
  split at h
  · cases h; exact Or.inl rfl
  · rename_i a rest hh; exact Or.inr ⟨a, rest, hh, h⟩

/-- A host register write changes nothing but the register. -/
theorem hostWrite_frame (s : State) (a : Nat) (v : Word) :
    let t := hostWrite s a v
    t.status = s.status ∧ t.faultOff = s.faultOff ∧ t.scan = s.scan ∧ t.chain = s.chain ∧ t.ibuf = s.ibuf ∧
    t.obuf = s.obuf ∧ t.walker = s.walker ∧ t.host = s.host ∧ t.params = s.params ∧ t.resets = s.resets ∧
    t.res0 = s.res0 ∧ t.res1 = s.res1 ∧ t.res2 = s.res2 ∧ t.res3 = s.res3 ∧ t.payload = s.payload := by
  dsimp only
  unfold hostWrite
  split <;> exact ⟨rfl, rfl, rfl, rfl, rfl, rfl, rfl, rfl, rfl, rfl, rfl, rfl, rfl, rfl, rfl⟩

/-- A host read answers the state it reads, or stops. -/
theorem hostLook_next {s t : State} {l : HostLoc} (h : hostLook s l = .next t) : t = s := by
  unfold hostLook at h
  split at h
  · cases h
  · cases h; rfl

theorem hostAct_params {s t : State} {a : HostAct} (h : hostAct s a = .next t) :
    t.params = s.params := by
  by_cases hr : ∃ l, a = .read l
  · obtain ⟨l, rfl⟩ := hr; rw [hostLook_next h]
  cases a <;> simp only [hostAct, hostIbuf] at h <;> (try split_ifs at h) <;> first | exact absurd ⟨_, rfl⟩ hr | (cases h; first | rfl | exact (hostWrite_frame ..).2.2.2.2.2.2.2.2.1)

theorem hostAct_host {s t : State} {a : HostAct} (h : hostAct s a = .next t) : t.host = s.host := by
  by_cases hr : ∃ l, a = .read l
  · obtain ⟨l, rfl⟩ := hr; rw [hostLook_next h]
  cases a <;> simp only [hostAct, hostIbuf] at h <;> (try split_ifs at h) <;> first | exact absurd ⟨_, rfl⟩ hr | (cases h; first | rfl | exact (hostWrite_frame ..).2.2.2.2.2.2.2.1)

/-- The host's IBUF write keeps the canonical form and touches nothing else. -/
theorem hostIbuf_wf {s t : State} {off : Nat} {b : Bytes} (h : hostIbuf s off b = .next t)
    (hw : Memory.wf s.ibuf = true) : Memory.wf t.ibuf = true ∧ t = { s with ibuf := t.ibuf } := by
  unfold hostIbuf at h
  split_ifs at h
  cases h
  exact ⟨Memory.writeBytes_wf hw _ _, rfl⟩

/-- IBUF after a write inside it: the bytes written read back, every other byte as before. -/
theorem ibuf_writeBytes (s : State) (off : Nat) (b : Bytes) :
    State.ibufBytes { s with ibuf := Memory.writeBytes s.ibuf off b } off b.length = b ∧
    ∀ a, a < off ∨ off + b.length ≤ a →
      State.ibufByte { s with ibuf := Memory.writeBytes s.ibuf off b } a = s.ibufByte a := by
  refine ⟨?_, ?_⟩
  · apply List.ext_getElem
    · simp [State.ibufBytes]
    · intro i h1 h2
      simp only [State.ibufBytes, List.getElem_map, List.getElem_range, State.ibufByte,
        Memory.read?_writeBytes]
      rw [if_pos (by omega), Nat.add_sub_cancel_left, List.getElem?_eq_getElem h2]; rfl
  · intro a ha
    simp only [State.ibufByte, Memory.read?_writeBytes]
    rw [if_neg (by omega)]

/-- An address with word i replaced (10_state.md R54): four bytes new, the rest as they were. -/
theorem setAddrWord_val (a : Bytes16) (i : Nat) (v : Word) (h : i < 4) :
    (setAddrWord a i v).val = a.val.take (4 * i) ++ be32 v ++ a.val.drop (4 * i + 4) := by
  have ha := a.property
  apply List.ext_getElem
  · simp [setAddrWord, bytes16, be32, ha]; omega
  · intro j h1 h2
    have hj : j < 16 := by simpa [setAddrWord, bytes16] using h1
    simp only [setAddrWord, bytes16, List.getElem_map, List.getElem_range]
    by_cases c : 4 * i ≤ j ∧ j < 4 * i + 4
    · rw [if_pos c, List.getElem_append_left (by simp [be32, ha]; omega),
        List.getElem_append_right (by simp; omega)]
      rw [byteAt_of_lt (by simp [be32]; omega)]
      congr 1; simp [ha]; omega
    · rw [if_neg c, byteAt_of_lt (by omega)]
      by_cases d : j < 4 * i
      · rw [List.getElem_append_left (by simp [be32, ha]; omega),
          List.getElem_append_left (by simp [ha]; omega), List.getElem_take]
      · rw [List.getElem_append_right (by simp [be32, ha]; omega), List.getElem_drop]
        congr 1; simp [be32, ha]; omega

theorem run_succ (M : Host.Core) (n : Nat) (s t : M.State) (h : M.step s = .next t) :
    M.run (n + 1) s = M.run n t := by
  rw [Host.Core.run, h]

theorem run_cases (M : Host.Core) (n : Nat) (s t : M.State) (h : M.run (n + 1) s = .next t) :
    ∃ u, M.step s = .next u ∧ M.run n u = .next t := by
  rw [Host.Core.run] at h
  split at h
  · rename_i u hu; exact ⟨u, hu, h⟩
  · cases h
  · cases h

end Sys2Proof.Machine
end

