-- ==== Sys2Proof/Tests/Slice0.lean ====
section
/-! SUPPORT. The model's own tests: expected results are those of spec/95_test_vectors.md (the id in
each comment), and, after them, a witness for the hypotheses of every statement that has some. -/

namespace Sys2Proof.Tests

open Sys2Proof.Machine

/-! ### Helpers -/

/-- 2001:db8::n, the addresses of 95 section 0. -/
def addr (n : Byte) : Bytes16 :=
  bytes16 (fun i => if i = 0 then 0x20 else if i = 1 then 0x01 else if i = 2 then 0x0D
    else if i = 3 then 0xB8 else if i = 15 then n else 0)

/-- `FX(plen, nxt)` of 95 section 0. -/
def fx (plen : Half) (nxt : Byte) : Bytes :=
  [0x60, 0, 0, 0] ++ be16 plen ++ [nxt, 0x40] ++ (addr 1).val ++ (addr 2).val

/-- After reset, with the parameters of 95 section 0, TULC, and SRC and DST set. -/
def base : State :=
  { State.reset with
    params := ⟨256, 256, .tulc, 0⟩
    fix := { FixedHdr.reset with src := addr 1, dst := addr 2 } }

/-- The same with ULC0. -/
def base0 : State := { base with params := ⟨256, 256, .ulc0, 0⟩ }

/-- Bytes written into IBUF. -/
def put (s : State) (o : Nat) (b : Bytes) : State := { s with ibuf := Memory.writeBytes s.ibuf o b }

/-- The ARG registers written. -/
def args (s : State) (a b c : Word) : State := { s with arg0 := a, arg1 := b, arg2 := c }

/-- A field of the next state. -/
def got {α : Type} (o : Host.Outcome State Fault Refusal) (f : State → α) : Option α :=
  match o with
  | .next t => some (f t)
  | .fault _ => none
  | .refused _ => none

/-- RES0 to RES3. -/
def res (s : State) : List Nat := [s.res0.toNat, s.res1.toNat, s.res2.toNat, s.res3.toNat]

/-- STATUS and FAULT_OFF. -/
def stat (s : State) : Word × Nat := (s.status, s.faultOff.toNat)

/-- OBUF[0 .. OLEN). -/
def out (s : State) : Bytes := observedOut s

/-- V-PKT-1 (95 section 0.2). -/
def vPkt1 : Bytes := fx 24 0 ++ [0x2C, 0x00, 0x01, 0x04, 0, 0, 0, 0] ++
  [0x11, 0x00, 0x00, 0x01, 0xCA, 0xFE, 0xBA, 0xBE] ++ [0x04, 0xD2, 0x00, 0x35, 0x00, 0x08, 0, 0]

/-! ### WellFormed: an ill-formed word for each check (30_encoding.md R100, R105, R120) -/

theorem test_wf_reserved_bits : (Fetched.cmd 0x00000152).wellFormed = false := by decide
theorem test_wf_reserved_bits_only : CmdWord.rsvOk ⟨1, 0x52⟩ = false ∧ CmdWord.opcOk ⟨1, 0x52⟩ = true := by
  decide
theorem test_wf_illegal_opcode : CmdWord.rsvOk ⟨0, 0x36⟩ = true ∧ CmdWord.opcOk ⟨0, 0x36⟩ = false := by
  decide
theorem test_wf_zero_word : (Fetched.cmd 0x00000000).wellFormed = false := by decide
theorem test_wf_terminal_id : (Fetched.nh 6).wellFormed = false := by decide
theorem test_wf_legal : (Fetched.cmd 0x00000052).wellFormed = true ∧ (Fetched.nh 0).wellFormed = true := by
  decide

/-! ### Decode: words written out from R102 and R120 -/

theorem test_decode_system : decode (.cmd 0x00000001) = .ok .nop ∧ decode (.cmd 0x00000002) = .ok .clear := by
  decide
theorem test_decode_bitfield_w0 : [0x10, 0x11, 0x12, 0x13, 0x14, 0x15, 0x16, 0x17].map (decodeTableWord 32) =
    [some .packW0, some .unpackW0, some .getVer, some .getTc, some .getFlow, some .setVer, some .setTc,
      some .setFlow] := by decide
theorem test_decode_bitfield_frag : [0x18, 0x19, 0x1A, 0x1B, 0x1C, 0x1D].map (decodeTableWord 32) =
    [some .packFrag, some .unpackFrag, some .getFoff, some .getMf, some .setFoff, some .setMf] := by
  decide
theorem test_decode_bitfield_rt : [0x1E, 0x1F, 0x20, 0x21].map (decodeTableWord 32) =
    [some .packRt, some .unpackRt, some .getSlbits, some .setSlbits] := by decide
theorem test_decode_dec : [0x30, 0x31, 0x32, 0x33, 0x34, 0x35].map (decodeTableWord 32) =
    [some .decHop, some .decRt, some .decFrag, some .decAh, some .decEsp, some .decDst] := by decide
theorem test_decode_enc : [0x38, 0x39, 0x3A, 0x3B, 0x3C, 0x3D].map (decodeTableWord 32) =
    [some .encHop, some .encRt, some .encFrag, some .encAh, some .encEsp, some .encDst] := by decide
theorem test_decode_scan_walk : [0x40, 0x48].map (decodeTableWord 32) =
    [some .tlvScan, some .chainWalk] := by decide
theorem test_decode_packet : [0x50, 0x51, 0x52, 0x53].map (decodeTableWord 32) =
    [some .fixDec, some .fixEnc, some .pktDec, some .pktEnc] := by decide
theorem test_decode_checksum : [0x60, 0x61, 0x62].map (decodeTableWord 32) =
    [some .csumPseudo, some .csumCompute, some .csumFixup] := by decide
theorem test_decode_next_header : [0x00, 0x2B, 0x2C, 0x32, 0x33, 0x3C].map (decodeTableWord 8) =
    [some .nhHop, some .nhRt, some .nhFrag, some .nhEsp, some .nhAh, some .nhDst] := by decide
theorem test_decode_rejects : [0x00, 0x03, 0x3E, 0xFF, 0x152, 0x80000052].map (decodeTableWord 32) =
    [none, none, none, none, none, none] := by decide

/-! ### System and field-bitpacking commands (95 sections 2.7, 2.1) -/

/-- SY2 -/
theorem test_nop : got (exec .nop { base with status := 0x80000051, faultOff := 40 }) stat =
    some (0x80000000, 0) := by decide
/-- SY3 -/
theorem test_clear : got (exec .clear { base with ulp := some 17, chain := [0, 44], olen := 64 })
    (fun t => (t.fix, t.ulp, t.chain, t.olen)) = some (FixedHdr.reset, none, [], 64) := by decide
/-- BF2: every operand masked -/
theorem test_pack_w0 : got (exec .packW0 (args base 0x1F 0x1AB 0x112345)) State.res0 =
    some 0xFAB12345 := by decide
/-- BF24 -/
theorem test_pack_w0_sticky : got (exec .packW0 { args base 1 2 3 with status := 0x80000002 })
    (fun t => (t.res0, t.status)) = some (0x10200003, 0x80000000) := by decide
/-- BF4 -/
theorem test_unpack_w0 : got (exec .unpackW0 (args base 0x6AB12345 0 0)) res =
    some [6, 0xAB, 0x12345, 0] := by decide

/-- BF7's state. -/
def bf7 : State := { base with fix := { FixedHdr.reset with w0 := 0x6AB12345 } }

/-- BF7 -/
theorem test_get_ver : got (exec .getVer bf7) State.res0 = some 6 := by decide
/-- BF7 -/
theorem test_get_tc : got (exec .getTc bf7) State.res0 = some 0xAB := by decide
/-- BF7 -/
theorem test_get_flow : got (exec .getFlow bf7) State.res0 = some 0x12345 := by decide
/-- BF8 -/
theorem test_set_ver : got (exec .setVer (args bf7 0x10 0 0)) (fun t => t.fix.w0) =
    some 0x0AB12345 := by decide
/-- BF9 -/
theorem test_set_tc : got (exec .setTc (args bf7 0x1FF 0 0)) (fun t => t.fix.w0) =
    some 0x6FF12345 := by decide
/-- BF10 -/
theorem test_set_flow : got (exec .setFlow (args bf7 0x123456 0 0)) (fun t => t.fix.w0) =
    some 0x6AB23456 := by decide
/-- BF11 -/
theorem test_pack_frag : got (exec .packFrag (args base 185 0 1)) State.res0 = some 0x05C9 := by decide
/-- BF13: every operand masks to 0 -/
theorem test_pack_frag_masks : got (exec .packFrag (args base 0x2000 4 2)) State.res0 = some 0 := by
  decide
/-- BF14: ARG0[31:16] ignored -/
theorem test_unpack_frag : got (exec .unpackFrag (args base 0xFFFF05C9 0 0)) res =
    some [185, 0, 1, 0] := by decide

/-- The Fragment slot with a given word, invalid. -/
def fragSlot (w : Half) : State := withFrag base { FragSlot.reset with fragw := w }

/-- BF16: the slot is read although it is invalid -/
theorem test_get_foff : got (exec .getFoff (fragSlot 0x05C9)) State.res0 = some 185 := by decide
/-- BF16 -/
theorem test_get_mf : got (exec .getMf (fragSlot 0x05C9)) State.res0 = some 1 := by decide
/-- BF17 -/
theorem test_set_foff : got (exec .setFoff (args (fragSlot 0x05C9) 0x1FFF 0 0))
    (fun t => (t.slots.frag.fragw, t.slots.frag.valid)) = some (0xFFF9, false) := by decide
/-- BF18: only ARG0[0] is used -/
theorem test_set_mf : got (exec .setMf (args (fragSlot 0x05C9) 2 0 0)) (fun t => t.slots.frag.fragw) =
    some 0x05C8 := by decide
/-- BF20 -/
theorem test_pack_rt : got (exec .packRt (args base 0x1AA 0x1123456 0)) State.res0 =
    some 0xAA123456 := by decide
/-- BF21 -/
theorem test_unpack_rt : got (exec .unpackRt (args base 0xAA123456 0 0)) res =
    some [0xAA, 0x123456, 0, 0] := by decide
/-- BF22 -/
theorem test_get_slbits : got (exec .getSlbits (withRt base { RtSlot.reset with rtw := 0xAA123456 }))
    State.res0 = some 0x123456 := by decide
/-- BF23: 24 bits written -/
theorem test_set_slbits : got (exec .setSlbits
    (args (withRt base { RtSlot.reset with rtw := 0xAA000000 }) 0xFFFFFFFF 0 0))
    (fun t => t.slots.rt.rtw) = some 0xAAFFFFFF := by decide

/-! ### Extension headers (95 section 2.2) -/

/-- Bytes at offset 16 with their region named. -/
def eh (b : Bytes) (n : Word) : State := args (put base 16 b) 16 n 0

/-- EH1 -/
theorem test_dec_hop : got (exec .decHop (eh [0x3A, 0, 1, 4, 0, 0, 0, 0] 8))
    (fun t => (res t, t.slots.hop)) =
    some ([8, 58, 0, 0], ⟨true, 58, 0, [1, 4, 0, 0, 0, 0], []⟩) := by decide
/-- EH5: FAULT_OFF is the header's offset -/
theorem test_dec_hop_partial : got (exec .decHop (eh [6, 0, 5, 5, 0, 0, 0, 0] 8)) stat =
    some (0x80000021, 16) := by decide
/-- EH10 -/
theorem test_dec_rt : got (exec .decRt (eh ([6, 3, 0, 1, 0, 0, 0, 0] ++ List.replicate 16 0x11 ++
    List.replicate 8 0x22) 32)) (fun t => (res t, t.slots.rt)) =
    some ([32, 6, 0, 0], ⟨true, 6, 3, 0, 1, 0, [⟨List.replicate 16 0x11, rfl⟩],
      List.replicate 8 0x22⟩) := by decide
/-- EH12 -/
theorem test_dec_rt_short : got (exec .decRt (eh ([6, 4, 0, 2] ++ zeros 12) 16)) stat =
    some (0x80000031, 16) := by decide
/-- T7b: the reserved bits are accepted -/
theorem test_dec_frag : got (exec .decFrag (eh [6, 0xFF, 0xFF, 0xFF, 1, 2, 3, 4] 8))
    (fun t => (res t, t.slots.frag)) = some ([8, 6, 0, 0], ⟨true, 6, 0xFF, 0xFFFF, 0x01020304⟩) := by
  decide
/-- EH13 -/
theorem test_dec_frag_short : got (exec .decFrag (eh (zeros 7) 7)) stat = some (0x80000041, 16) := by
  decide
/-- EH15 -/
theorem test_dec_ah : got (exec .decAh (eh [6, 1, 0, 0, 0, 0, 0, 5, 0, 0, 0, 9] 12))
    (fun t => (res t, t.slots.ah)) = some ([12, 6, 0, 0], ⟨true, 6, 1, 0, 5, 9, []⟩) := by decide
/-- EH14: payload_len 0 -/
theorem test_dec_ah_zero : got (exec .decAh (eh ([6, 0] ++ zeros 10) 12)) stat =
    some (0x80000051, 16) := by decide
/-- EH21 -/
theorem test_dec_esp : got (exec .decEsp (eh [0, 0, 1, 0, 0, 0, 0, 1, 0xDE, 0xAD, 0xBE, 0xEF, 0x99] 13))
    (fun t => (res t, t.slots.esp)) =
    some ([13, 0xFFFFFFFF, 0, 0], ⟨true, 0x100, 1, [0xDE, 0xAD, 0xBE, 0xEF, 0x99]⟩) := by decide
/-- EH19 -/
theorem test_dec_esp_short : got (exec .decEsp (eh (zeros 7) 7)) stat = some (0x80000061, 16) := by
  decide
/-- T3b -/
theorem test_dec_dst : got (exec .decDst (eh [0x3B, 1, 0, 1, 2, 0, 0, 5, 4, 0xDE, 0xAD, 0xBE, 0xEF, 0, 0, 0]
    16)) (fun t => (res t, t.slots.dst.opts)) =
    some ([16, 59, 0, 0], [⟨5, 4, [0xDE, 0xAD, 0xBE, 0xEF]⟩]) := by decide
/-- EH7 -/
theorem test_dec_dst_short : got (exec .decDst (eh [6, 1, 0, 0, 0, 0, 0, 0] 8)) stat =
    some (0x80000071, 16) := by decide
/-- EE5: an inconsistent slot is emitted as it stands -/
theorem test_enc_hop : got (exec .encHop (withHop base ⟨true, 6, 1, [1, 4, 0, 0, 0, 0], []⟩))
    (fun t => (res t, out t)) = some ([8, 16, 0, 0], [6, 1, 1, 4, 0, 0, 0, 0]) := by decide
/-- EE3: an empty output fits a full OBUF -/
theorem test_enc_hop_full : got (exec .encHop { base with olen := 256 }) (fun t => (res t, t.status)) =
    some ([0, 8, 0, 0], 0) := by decide
/-- EE1 -/
theorem test_enc_rt_invalid : got (exec .encRt base) (fun t => (res t, t.olen, t.status)) =
    some ([0, 8, 0, 0], 0, 0) := by decide
/-- EH9's re-encode -/
theorem test_enc_rt : got (exec .encRt (withRt base ⟨true, 6, 1, 0, 0, 0, [], [0, 1, 2, 3, 4, 5, 6, 7]⟩))
    (fun t => (res t, out t)) =
    some ([16, 16, 0, 0], [6, 1, 0, 0, 0, 0, 0, 0, 0, 1, 2, 3, 4, 5, 6, 7]) := by decide
/-- P1's ENC_FRAG -/
theorem test_enc_frag : got (exec .encFrag (withFrag base ⟨true, 59, 0, 0x0321, 0xCAFEBABE⟩))
    (fun t => (res t, out t)) =
    some ([8, 8, 0, 0], [0x3B, 0x00, 0x03, 0x21, 0xCA, 0xFE, 0xBA, 0xBE]) := by decide
/-- EE2 -/
theorem test_enc_frag_overflow : got (exec .encFrag
    { withFrag base ⟨true, 59, 0, 0, 0⟩ with olen := 250 }) (fun t => (stat t, t.olen, res t)) =
    some ((0x80000004, 0), 250, [0, 0, 0, 0]) := by decide
/-- EE4 -/
theorem test_enc_ah : got (exec .encAh (withAh base ⟨true, 6, 0, 0, 1, 2, []⟩))
    (fun t => (res t, out t)) = some ([12, 8, 0, 0], [6, 0, 0, 0, 0, 0, 0, 1, 0, 0, 0, 2]) := by decide
/-- EH20's re-encode -/
theorem test_enc_esp : got (exec .encEsp (withEsp base ⟨true, 1, 2, []⟩)) (fun t => (res t, out t)) =
    some ([8, 8, 0, 0], [0, 0, 0, 1, 0, 0, 0, 2]) := by decide
/-- EH6's bytes, re-encoded from SLOT[5] -/
theorem test_enc_dst : got (exec .encDst (withDst base ⟨true, 6, 0, zeros 6, []⟩))
    (fun t => (res t, out t)) = some ([8, 8, 0, 0], [6, 0, 0, 0, 0, 0, 0, 0]) := by decide

/-! ### Scanner and walker (95 sections 2.3, 2.4, 2.8) -/

/-- T3a, TL9's bytes. -/
def tlvBytes : Bytes := [0, 1, 2, 0, 0, 5, 4, 0xDE, 0xAD, 0xBE, 0xEF]

/-- T3a -/
theorem test_tlv_scan : got (exec .tlvScan (args (put base 0 tlvBytes) 0 11 0))
    (fun t => (res t, t.scan, t.status)) =
    some ([1, 11, 0, 0], [⟨5, 4, [0xDE, 0xAD, 0xBE, 0xEF]⟩], 0) := by decide
/-- TL9: the region ends inside the option -/
theorem test_tlv_scan_partial : got (exec .tlvScan (args (put base 10 tlvBytes) 10 8 0)) stat =
    some (0x80000081, 15) := by decide
/-- CW2: the latest header of a kind wins -/
theorem test_chain_walk : got (exec .chainWalk (args (put base 16 ([0x3C, 0, 1, 4, 0, 0, 0, 0] ++
    [0x3C, 0, 5, 2, 0xAA, 0xBB, 1, 0] ++ [6, 0, 5, 2, 0xCC, 0xDD, 1, 0] ++
    [0xFE, 0xFE, 0xFE, 0xFE])) 16 28 0)) (fun t => (res t, t.chain, t.slots.dst.opts)) =
    some ([6, 40, 4, 3], [0, 60, 60], [⟨5, 2, [0xCC, 0xDD]⟩]) := by decide
/-- CW6: ESP ends the walk with no terminal id -/
theorem test_chain_walk_esp : got (exec .chainWalk (args (put base 16 ([0x32, 0, 1, 4, 0, 0, 0, 0] ++
    [0, 0, 0, 9, 0, 0, 0, 1, 0xAB])) 16 17 0)) (fun t => (res t, t.chain)) =
    some ([0xFFFFFFFF, 33, 0, 2], [0, 50]) := by decide

/-! ### Packet codec (95 sections 2.5 and part 1) -/

/-- PC8 -/
theorem test_fix_dec : got (exec .fixDec (args (put base0 0 (fx 8 44 ++ [0x3B, 0, 0, 0, 0, 0, 0, 7, 0xEE, 0xEE]))
    0 50 0)) (fun t => (res t, t.fix.w0, t.fix.plen, t.fix.nxt, t.fix.hlim)) =
    some ([40, 8, 0, 0], 0x60000000, 8, 44, 64) := by decide
/-- PC11 -/
theorem test_fix_dec_short : got (exec .fixDec (args (put base0 0 (fx 9 59 ++ zeros 8)) 0 48 0)) stat =
    some (0x80000011, 0) := by decide
/-- PC19 -/
theorem test_fix_enc : got (exec .fixEnc { base with fix := ⟨0x6AB12345, 0, 59, 255, zeros16, zeros16⟩ })
    (fun t => (res t, out t)) =
    some ([40, 0, 0, 0], [0x6A, 0xB1, 0x23, 0x45, 0, 0, 0x3B, 0xFF] ++ zeros 32) := by decide
/-- PC21: exactly full -/
theorem test_fix_enc_full : got (exec .fixEnc { base with olen := 216 }) (fun t => (stat t, t.olen)) =
    some ((0, 0), 256) := by decide
/-- PC2 -/
theorem test_pkt_dec : got (exec .pktDec (args (put base 0 vPkt1) 0 64 0))
    (fun t => (res t, t.status, t.chain, t.ulp, t.payload)) =
    some ([17, 56, 8, 2], 0, [0, 44], some 17,
      .obj ⟨17, [0x04, 0xD2, 0x00, 0x35, 0x00, 0x08, 0, 0]⟩) := by decide
/-- P5 -/
theorem test_pkt_dec_fault : got (exec .pktDec (args (put base0 0 (fx 8 51 ++ [6, 4, 0, 0, 0, 0, 1, 0]))
    0 48 0)) (fun t => (stat t, t.fix.w0, t.slots.ah.valid, res t)) =
    some ((0x80000051, 40), 0, false, [0, 0, 0, 0]) := by decide
/-- T4c then PKT_ENC (PC12's packet, built by the host) -/
theorem test_pkt_enc_raw : got (exec .pktEnc { base0 with
    fix := ⟨0x60000000, 0, 59, 0x40, addr 1, addr 2⟩, ulp := some 59 })
    (fun t => (res t, t.status, out t)) = some ([40, 0, 0, 0], 0, fx 0 59) := by decide
/-- T1c's fix-up: the UDP checksum 0x9F62 is written -/
theorem test_pkt_enc_fixup : got (exec .pktEnc { base with
    ulp := some 17, payload := .obj ⟨17, [0x04, 0xD2, 0x00, 0x35, 0x00, 0x08, 0, 0]⟩ })
    (fun t => ([t.res0.toNat, t.res1.toNat], t.status, t.payload)) =
    some ([48, 0x9F62], 0x00000800, .obj ⟨17, [0x04, 0xD2, 0x00, 0x35, 0x00, 0x08, 0x9F, 0x62]⟩) := by
  decide

/-! ### Checksum combiner (95 section 2.6) -/

/-- CS2: ARG0[31:8] ignored -/
theorem test_csum_pseudo : got (exec .csumPseudo (args base 0x111 10 0)) State.res0 = some 0x5B90 := by
  decide
/-- CS6 -/
theorem test_csum_pseudo_range : got (exec .csumPseudo (args base 17 0x10000 0)) stat =
    some (0x80000005, 0) := by decide
/-- CS7 -/
theorem test_csum_compute : got (exec .csumCompute (args (put base 0
    [0x12, 0x34, 0x00, 0x35, 0x00, 0x0A, 0x00, 0x00, 0x68, 0x69]) 17 0 10)) State.res0 =
    some 0x2993 := by decide
/-- CS11: the region is checked before the length -/
theorem test_csum_compute_region : got (exec .csumCompute (args base 17 0 0x10000)) stat =
    some (0x80000003, 0) := by decide
/-- CS12 -/
theorem test_csum_fixup : got (exec .csumFixup { base with
    ulp := some 17, payload := .obj ⟨17, [0x12, 0x34, 0x00, 0x35, 0x00, 0x0A, 0, 0, 0x68, 0x69]⟩ })
    (fun t => (t.res0, t.status, t.payload)) =
    some (0x2993, 0x00000800, .obj ⟨17, [0x12, 0x34, 0x00, 0x35, 0x00, 0x0A, 0x29, 0x93, 0x68, 0x69]⟩) := by
  decide
/-- CS15 -/
theorem test_csum_fixup_skipped : got (exec .csumFixup { base with ulp := some 58, payload := .raw [0x78] })
    (fun t => (t.res0, t.status)) = some (0, 0x00001000) := by decide
/-- 95 section 2.6's arithmetic table -/
theorem test_ocsum_table : [[], [0x01], [0x01, 0x02, 0x03], [0xFF, 0xFF], [0xFF, 0xFF, 0x00, 0x01],
    [0x80, 0x00, 0x80, 0x00]].map ocsum = [0, 0x0100, 0x0402, 0xFFFF, 0x0001, 0x0001] := by decide

/-! ### Next-header rows (R271's loop, log 3; the bytes and results of 95 section 2.4) -/

/-- A walk at its start. -/
def walking (p : Byte) (b : Bytes) : State := { base with walker := Walker.start p b 16 }

/-- CW2's first header -/
theorem test_nh_hop : got (exec .nhHop (walking 0 [0x3C, 0, 1, 4, 0, 0, 0, 0]))
    (fun t => (t.walker.pos, t.walker.cur, t.walker.chain)) = some (8, some 60, [0]) := by decide
/-- EH8's header -/
theorem test_nh_rt : got (exec .nhRt (walking 43 [6, 0, 0, 0, 0xAA, 0x12, 0x34, 0x56]))
    (fun t => (t.walker.cur, t.walker.slots.rt.rtw)) = some (some 6, 0xAA123456) := by decide
/-- CW1's header -/
theorem test_nh_frag : got (exec .nhFrag (walking 44 [0x11, 0, 0x05, 0xC9, 0x12, 0x34, 0x56, 0x78]))
    (fun t => (t.walker.cur, t.walker.slots.frag.fragw)) = some (some 17, 0x05C9) := by decide
/-- CW3's fault, reported at the header's own offset -/
theorem test_nh_frag_short : got (exec .nhFrag (walking 44 [6, 0, 0, 0])) (fun t => (stat t, t.walker)) =
    some ((0x80000041, 16), Walker.idle) := by decide
/-- CW6's last header -/
theorem test_nh_esp : got (exec .nhEsp (walking 50 [0, 0, 0, 9, 0, 0, 0, 1, 0xAB]))
    (fun t => (t.walker.pos, t.walker.cur, t.walker.slots.esp.data)) = some (9, none, [0xAB]) := by
  decide
/-- EH15's header -/
theorem test_nh_ah : got (exec .nhAh (walking 51 [6, 1, 0, 0, 0, 0, 0, 5, 0, 0, 0, 9]))
    (fun t => (t.walker.pos, t.walker.cur, t.walker.slots.ah.spi)) = some (12, some 6, 5) := by decide
/-- CW2's last header -/
theorem test_nh_dst : got (exec .nhDst (walking 60 [6, 0, 5, 2, 0xCC, 0xDD, 1, 0]))
    (fun t => (t.walker.cur, t.walker.slots.dst.opts)) = some (some 6, [⟨5, 2, [0xCC, 0xDD]⟩]) := by
  decide

/-! ### Steps (95 section 2.8) -/

/-- FA5: reserved bits set, nothing done -/
theorem test_step_illegal : got (step { put base 0 vPkt1 with cmd := some 0x00000152 })
    (fun t => (stat t, t.cmd, t.fix.w0)) = some ((0x80000002, 0), none, 0) := by decide
/-- FA8: the sum is not taken modulo 2^32 -/
theorem test_step_bad_region : got (step { args base 0xFFFFFFFF 2 0 with cmd := some 0x00000052 }) stat =
    some (0x80000003, 0) := by decide
/-- A host write of CMD leaves it pending (log 2) -/
theorem test_step_host_cmd : got (step { base with host := scriptCmd .nop })
    (fun t => (t.cmd, t.host)) = some (some 0x00000001, []) := by decide
/-- A host write past IBUF_SIZE stops (log 10) -/
theorem test_step_host_outside : (match step { base with host := [.ibuf 255 [1, 2]] } with
    | .fault r => some r
    | .next _ => none
    | .refused _ => none) = some (.hostOutsideIbuf 255 2) := by decide

/-! ### Witnesses: states and operands that meet the hypotheses of each statement -/

/-- Whether an outcome is a next state. -/
def isNext (o : Host.Outcome State Fault Refusal) : Bool := (got o (fun _ => ())).isSome

/-- The next state of an outcome that has one. -/
def after (o : Host.Outcome State Fault Refusal) : State :=
  match o with
  | .next t => t
  | .fault _ => base
  | .refused _ => base

theorem next_after {o : Host.Outcome State Fault Refusal} (h : isNext o = true) : o = .next (after o) := by
  cases o with
  | next t => rfl
  | fault r => cases h
  | refused r => cases h

/-- A command pending. -/
def cmd (s : State) (w : Word) : State := { s with cmd := some w }

/-- Both ends of every illegal range of R105, and the reserved field's lowest and highest bit. -/
theorem witness_IllegalCommandWords_illegal :
    (∀ w, (cmd base w).cmd = some w) ∧
    [(0x00 : Word), 0x03, 0x0F, 0x22, 0x2F, 0x36, 0x37, 0x3E, 0x3F, 0x41, 0x47, 0x49, 0x4F, 0x54, 0x5F,
      0x63, 0xFF, 0x101, 0x80000001].map (fun w => got (step (cmd base w)) stat) =
      List.replicate 19 (some (0x80000002, 0)) := ⟨fun _ => rfl, by decide⟩

/-- Both ends of every run of legal opcodes. -/
theorem witness_IllegalCommandWords_legal :
    [0x01, 0x02, 0x10, 0x21, 0x30, 0x35, 0x38, 0x3D, 0x40, 0x48, 0x50, 0x53, 0x60, 0x62].map
      (fun w => (decodeTableWord 32 w).isSome) = List.replicate 14 true := by decide

theorem witness_NextHeaderDispatch_terminal :
    ∀ p ∈ [(1 : Byte), 42, 45, 49, 52, 59, 61, 255],
    (p.toNat ≠ 0 ∧ p.toNat ≠ 43 ∧ p.toNat ≠ 44 ∧ p.toNat ≠ 50 ∧ p.toNat ≠ 51 ∧ p.toNat ≠ 60) ∧
      kindOf p = none := by decide

theorem witness_StepRunsFetchedInstruction_cmd :
    (cmd base 0x52).cmd = some 0x52 ∧ decode (.cmd 0x52) = .ok .pktDec := by decide

theorem witness_StepRunsFetchedInstruction_nh :
    (walking 60 []).cmd = none ∧ (walking 60 []).walker.cur = some 60 ∧ decode (.nh 60) = .ok .nhDst := by
  decide

/-- The premises of HostTurnAndCommandIssue, with a walker at rest and with one at a terminal id, and
each of its first three clauses; buffer bytes up to the last that exists, and one past it. -/
theorem witness_HostTurnAndCommandIssue :
    (base.cmd = none ∧ base.walker.cur = none ∧ base.host = []) ∧
    ((walking 59 []).cmd = none ∧ (walking 59 []).walker.cur = some 59 ∧ kindOf 59 = none) ∧
    { base with host := [.ibuf 0 [1]] }.host = .ibuf 0 [1] :: [] ∧
    { base with host := scriptCmd .nop }.host = .write 0x000 0x00000001 :: [] ∧
    (254 + [(1 : Byte), 2].length ≤ base.params.ibufSize ∧
      base.params.ibufSize < 255 + [(1 : Byte), 2].length) ∧
    (256 + 0 ≤ base.params.obufSize ∧ base.params.obufSize < 256 + 1) := by decide

/-- A host read of any state: what it shows, and that it changes nothing (R55). -/
theorem test_host_read : hostView { base with chain := [0, 44], scan := [⟨5, 0, []⟩] } .chain = .ids [0, 44] ∧
    hostView { base with scan := [⟨5, 0, []⟩] } .scan = .recs [⟨5, 0, []⟩] ∧
    hostView (put base 7 [1, 2, 3]) (.ibuf 8 2) = .bytes [2, 3] ∧
    got (step { base with host := [.read .payload] }) (fun t => (t.host, t.payload)) =
      some ([], .raw []) := by decide

/-- A host read of OBUF past OBUF_SIZE (log 10) -/
theorem test_host_read_outside : (match step { base with host := [.read (.obuf 255 2)] } with
    | .fault r => some r
    | .next _ => none
    | .refused _ => none) = some (.hostOutsideObuf 255 2) := by decide

theorem witness_EveryCommandCompletesAtOnce : (cmd base 0x01).cmd = some 0x01 := by decide

theorem witness_ResetEventRestoresReset :
    let s := { base with host := [.reset, .read (.reg 4)], status := 0x80000002 }
    s.cmd = none ∧ s.walker.cur = none ∧ s.host = .reset :: [.read (.reg 4)] ∧
      got (step s) (fun t => (t.status, t.host, t.resets)) = some (0, [.read (.reg 4)], 1) := by decide

/-- A command that faults (CS6). -/
def faulting : State := args base 17 0x10000 0

theorem witness_StickyFaultRecordsEveryFault_fault :
    (cmd faulting 0x60).cmd = some 0x60 ∧
      step (cmd faulting 0x60) = .next (after (step (cmd faulting 0x60))) ∧
      statusCause (after (step (cmd faulting 0x60))).status ≠ 0 :=
  ⟨rfl, next_after (by decide), by decide⟩

/-- A state with the sticky fault set and a host action to come. -/
def sticky : State := { base with status := 0x80000002, host := [.read (.reg 4)] }

theorem witness_StickyFaultRecordsEveryFault_step :
    step sticky = .next (after (step sticky)) ∧ statusSticky sticky.status = true ∧
      (∀ rest, fetch sticky = none → sticky.host ≠ .reset :: rest) :=
  ⟨next_after (by decide), by decide, fun rest _ h => by cases h⟩

theorem witness_StickyFaultRecordsEveryFault_run :
    HostAct.reset ∉ (cmd base 0x01).host ∧
      core.run 1 (cmd base 0x01) = .next (after (core.run 1 (cmd base 0x01))) ∧
      statusSticky (after (core.run 1 (cmd base 0x01))).status = false ∧ (1 : Nat) ≤ 1 :=
  ⟨by decide, next_after (by decide), by decide, le_refl 1⟩

/-- The invariant holds of a state that is not the reset state, and a step leads on from it. -/
theorem witness_InvKeptByEveryStep :
    Inv (cmd base 0x01) ∧ step (cmd base 0x01) = .next (after (step (cmd base 0x01))) := by
  refine ⟨⟨rfl, rfl, rfl, rfl, by decide, by decide, by decide, by decide, by decide, by decide,
    by decide, by decide, fun _ => rfl, ?_, ?_⟩, next_after (by decide)⟩
  · intro r hr; cases hr
  · intro p hp; cases hp

theorem witness_ParametersNeverChange :
    step (cmd base 0x02) = .next (after (step (cmd base 0x02))) := next_after (by decide)

theorem witness_OperandsAndInputsKept :
    exec .packW0 (args base 1 2 3) = .next (after (exec .packW0 (args base 1 2 3))) :=
  next_after (by decide)

/-- IBUF differs at the first address past the region, and nowhere in it. -/
theorem witness_IbufReadOnlyInsideRegion :
    let s := eh [6, 0, 0, 0, 0, 0, 0, 1, 0xEE] 8
    let m := Memory.write s.ibuf 24 0xDD
    (∀ o n, regionOf .decFrag s = some (o, n) → ∀ a, o.toNat ≤ a → a < o.toNat + n.toNat →
      State.ibufByte { s with ibuf := m } a = s.ibufByte a) ∧
    exec .decFrag s = .next (after (exec .decFrag s)) ∧
    State.ibufByte { s with ibuf := m } 24 ≠ s.ibufByte 24 := by
  refine ⟨?_, next_after (by decide), by decide⟩
  intro o n h a h1 h2
  cases h
  have h2 : a < 24 := h2
  simp only [State.ibufByte, Memory.read?_write]
  rw [if_neg (by omega)]

/-- An instruction that names no region. -/
theorem witness_IbufReadOnlyInsideRegion_none : regionOf .encHop base = none := by decide

/-- The pending-command clause, with a word that is no command. -/
theorem witness_FaultWritesOnlyStatus_cmd :
    (cmd base 0x152).cmd = some 0x152 ∧
      step (cmd base 0x152) = .next (after (step (cmd base 0x152))) ∧
      statusCause (after (step (cmd base 0x152))).status ≠ 0 :=
  ⟨rfl, next_after (by decide), by decide⟩

theorem witness_FaultWritesOnlyStatus :
    isCommand .csumPseudo = true ∧
      exec .csumPseudo faulting = .next (after (exec .csumPseudo faulting)) ∧
      statusCause (after (exec .csumPseudo faulting)).status ≠ 0 :=
  ⟨by decide, next_after (by decide), by decide⟩

/-- Each premise of StatusFlagsAreWriteOnly: a raw payload, a skipped checksum, a malformed header. -/
theorem witness_StatusFlagsAreWriteOnly :
    got (step (cmd (args (put base0 0 (fx 0 59)) 0 40 0) 0x52)) (fun t => statusUlpRaw t.status) =
      some true ∧
    got (step (cmd { base with ulp := some 58 } 0x62)) (fun t => statusCsumSkipped t.status) =
      some true ∧
    got (step (cmd (eh [] 7) 0x32)) (fun t => (statusCause t.status, statusFkind t.status)) =
      some (1, 4) := by
  decide

/-- OBUF_SIZE is legal; NOP writes no output, and FIX_ENC leaves addresses on both sides. -/
theorem witness_OutputBytesFrame :
    base.params.obufSize < 2 ^ 32 ∧ writesObuf .nop = false ∧ isNext (exec .nop base) = true ∧
    got (exec .fixEnc { base with olen := 8 }) (fun t => t.olen.toNat) = some 48 ∧
    (7 < 8 ∨ 48 ≤ 7) ∧ (48 < 8 ∨ 48 ≤ 48) := by decide

/-- Exactly full, and one byte too many. -/
theorem witness_AppendedOutputReadsBack :
    base.params.obufSize < 2 ^ 32 ∧
    { base with olen := 254 }.olen.toNat + [(1 : Byte), 2].length ≤ base.params.obufSize ∧
    base.params.obufSize < { base with olen := 255 }.olen.toNat + [(1 : Byte), 2].length := by decide

/-- One byte past IBUF_SIZE, for a first and a second operand pair. -/
theorem witness_BadRegionFaults :
    regionOf .decHop (args base 249 8 0) = some (249, 8) ∧
    regionOf .csumCompute (args base 17 249 8) = some (249, 8) ∧
    base.params.ibufSize < (249 : Word).toNat + (8 : Word).toNat := by decide

/-- Valid slots and a full OBUF. -/
def full : State := { base with olen := 256, slots := ⟨⟨true, 0, 0, [], []⟩, ⟨true, 0, 0, 0, 0, 0, [], []⟩,
  ⟨true, 0, 0, 0, 0⟩, ⟨true, 0, 0, 0, 0, 0, []⟩, ⟨true, 0, 0, []⟩, ⟨true, 0, 0, [], []⟩⟩ }

theorem witness_ObufOverflowFaults :
    (∀ k ∈ [Kind.hop, .rt, .frag, .ah, .esp, .dst],
      full.params.obufSize < full.olen.toNat + (encSlot k full.slots).length) ∧
    base.params.obufSize < { base with olen := 217 }.olen.toNat + 40 ∧
    fixup full.codec full.ulp full.payload full.fix.src full.fix.dst =
      .ok ⟨.raw [], none, false, false⟩ ∧
    full.params.obufSize < full.olen.toNat + (pktBytes full (.raw [])).length := by decide

/-- The operand bits SettersIsolateFields's premises name, at both ends. -/
theorem witness_SettersIsolateFields : (0 < 28 ∧ 27 < 28) ∧ ((19 < 20 ∨ 28 ≤ 19) ∧ (28 < 20 ∨ 28 ≤ 28)) ∧
    20 ≤ 20 ∧ (0 < 3 ∧ 2 < 3) ∧ 1 ≤ 1 ∧ 24 ≤ 24 := by decide

/-- A header that exactly fills its region, which ends at IBUF_SIZE. -/
theorem witness_DecOptionsResult :
    let s := args (put base 248 [6, 0, 0, 0, 5, 2, 7, 8]) 248 8 0
    s.arg0.toNat + s.arg1.toNat ≤ s.params.ibufSize ∧ 2 ≤ s.arg1.toNat ∧
    ((s.ibufByte 249).toNat + 1) * 8 ≤ s.arg1.toNat ∧
    tlvScan (s.ibufBytes 250 6) = .ok [⟨5, 2, [7, 8]⟩] := by decide

theorem witness_DecRoutingResult :
    let s := eh ([6, 3] ++ zeros 30) 32
    16 + s.arg1.toNat ≤ s.params.ibufSize ∧ 8 ≤ s.arg1.toNat ∧
    (s.ibufByte 17).toNat * 8 + 8 ≤ s.arg1.toNat := by decide

/-- DecFragmentResult and DecEspResult: exactly 8 bytes. -/
theorem witness_DecFragmentResult :
    let s := eh (zeros 8) 8
    s.arg0.toNat + s.arg1.toNat ≤ s.params.ibufSize ∧ 8 ≤ s.arg1.toNat := by decide

theorem witness_DecEspResult :
    let s := eh (zeros 8) 8
    s.arg0.toNat + s.arg1.toNat ≤ s.params.ibufSize ∧ 8 ≤ s.arg1.toNat := by decide

/-- The shortest Authentication header. -/
theorem witness_DecAuthResult :
    let s := eh ([6, 1] ++ zeros 10) 12
    16 + s.arg1.toNat ≤ s.params.ibufSize ∧ 2 ≤ s.arg1.toNat ∧ s.ibufByte 17 ≠ 0 ∧
    ((s.ibufByte 17).toNat + 2) * 4 ≤ s.arg1.toNat := by decide

/-- One byte too few for each header, a PLEN one too large, a partial option, payload_len 0. -/
theorem witness_MalformedHeaderFaults :
    (39 < 40 ∧ (ibufFixed (put base 0 (fx 9 59)) 0).plen ≠ 0 ∧
      48 < 40 + (ibufFixed (put base 0 (fx 9 59)) 0).plen.toNat) ∧
    (1 < 2 ∧ 15 < (((eh [6, 1] 15).ibufByte 17).toNat + 1) * 8 ∧
      tlvScan ((eh [6, 0, 0, 0, 0, 0, 0, 5] 8).ibufBytes 18 6) = .error 5) ∧
    (7 < 8 ∧ 15 < ((eh [6, 1] 15).ibufByte 17).toNat * 8 + 8) ∧
    (((eh [6, 0] 12).ibufByte 17).toNat = 0 ∧ 11 < (((eh [6, 1] 11).ibufByte 17).toNat + 2) * 4) ∧
    tlvScan ((args (put base 10 tlvBytes) 10 8 0).ibufBytes 10 8) = .error 5 ∧
    (eh [6, 1] 15).arg0.toNat + (eh [6, 1] 15).arg1.toNat ≤ base.params.ibufSize := by decide

/-- Each valid slot exactly fits. -/
theorem witness_EncodeCommandsResult :
    let s := { full with olen := 240 }
    ∀ k ∈ [Kind.hop, .rt, .frag, .ah, .esp, .dst],
      s.params.obufSize < 2 ^ 32 ∧ s.olen.toNat + (encSlot k s.slots).length ≤ s.params.obufSize ∧
      s.params.obufSize < { s with olen := 256 }.olen.toNat + (encSlot k s.slots).length := by decide

/-- Each decoder succeeds on a header that fills its region. -/
theorem witness_ConsumptionLaw :
    (decOpts .dst [6, 0, 0, 0, 0, 0, 0, 0] 16 = .ok (⟨true, 6, 0, zeros 6, []⟩, 8)) ∧
    (decRt [6, 0, 1, 2, 0, 0, 0, 9] 16 = .ok (⟨true, 6, 0, 1, 2, 9, [], []⟩, 8)) ∧
    (decFrag [6, 0, 0, 8, 0, 0, 0, 9] 16 = .ok (⟨true, 6, 0, 8, 9⟩, 8)) ∧
    (decAh [6, 1, 0, 0, 0, 0, 0, 5, 0, 0, 0, 9] 16 = .ok (⟨true, 6, 1, 0, 5, 9, []⟩, 12)) ∧
    (decEsp [0, 0, 0, 1, 0, 0, 0, 2, 7] 16 = .ok (⟨true, 1, 2, [7]⟩, 9)) := by decide

/-- Consistent slots of each kind the law names. -/
theorem witness_ConsistentSlotsRoundTrip :
    consistentOpts ⟨false, 6, 0, zeros 6, []⟩ ∧ consistentRt ⟨false, 6, 1, 0, 0, 0, [], zeros 8⟩ ∧
      consistentAh ⟨false, 6, 1, 0, 5, 9, []⟩ := by
  unfold consistentOpts consistentRt consistentAh
  decide

/-- Each premise of TlvScanByCases, at its boundary. -/
theorem witness_TlvScanByCases : (1 : Byte) ≠ 0 ∧ ([7] : Bytes).length < (2 : Byte).toNat ∧
    ([] : Bytes).length = (0 : Byte).toNat ∧ ([7, 8] : Bytes).length = (2 : Byte).toNat ∧
    (2 : Byte) ≠ 0 ∧ (2 : Byte) ≠ 1 := by decide

theorem witness_TlvScanRecords : tlvScan tlvBytes = .ok [⟨5, 4, [0xDE, 0xAD, 0xBE, 0xEF]⟩] := by decide

theorem witness_TlvScanCommandResult :
    let s := args (put base 10 tlvBytes) 10 11 0
    s.arg0.toNat + s.arg1.toNat ≤ s.params.ibufSize ∧
    tlvScan (s.ibufBytes 10 11) = .ok [⟨5, 4, [0xDE, 0xAD, 0xBE, 0xEF]⟩] ∧
    tlvScan (s.ibufBytes 10 8) = .error 5 ∧
    s.params.ibufSize < (args s 246 11 0).arg0.toNat + (args s 246 11 0).arg1.toNat := by decide

/-- A header that decodes and one that does not, for NextHeaderRowsResult and DispatchTouchesOneSlot. -/
theorem witness_NextHeaderRowsResult :
    decInto .frag Slots.reset [6, 0, 0, 8, 0, 0, 0, 9] 16 =
      .ok ({ Slots.reset with frag := ⟨true, 6, 0, 8, 9⟩ }, some 6, 8) ∧
    decInto .esp Slots.reset [0, 0, 0, 1, 0, 0, 0, 2] 16 =
      .ok ({ Slots.reset with esp := ⟨true, 1, 2, []⟩ }, none, 8) ∧
    decInto .frag Slots.reset [6, 0, 0, 8, 0, 0, 0] 16 = .error (.malformed (.ext .frag) 16) := by decide

theorem witness_DispatchTouchesOneSlot :
    decInto .rt Slots.reset [6, 0, 1, 2, 0, 0, 0, 9] 16 =
      .ok ({ Slots.reset with rt := ⟨true, 6, 0, 1, 2, 9, [], []⟩ }, some 6, 8) ∧
    decInto .rt Slots.reset [] 16 = .error (.malformed (.ext .rt) 16) := by decide

/-- A walk that ends at a terminal id, one that ends at ESP, and one that faults. -/
theorem witness_WalkEndsInsideRegion :
    walk 44 [6, 0, 0, 8, 0, 0, 0, 9] 16 = .ok ⟨[6, 0, 0, 8, 0, 0, 0, 9], 16, 8, some 6,
      { Slots.reset with frag := ⟨true, 6, 0, 8, 9⟩ }, [44]⟩ ∧
    walk 50 [0, 0, 0, 1, 0, 0, 0, 2] 16 = .ok ⟨[0, 0, 0, 1, 0, 0, 0, 2], 16, 8, none,
      { Slots.reset with esp := ⟨true, 1, 2, []⟩ }, [50]⟩ ∧
    walk 0 [] 16 = .error (.malformed (.ext .hop) 16) := by decide

theorem witness_TerminalFirstIdEndsWalk : (59 : Byte) ∉ extIds ∧ (1 : Byte) ∉ extIds ∧ (61 : Byte) ∉ extIds := by
  decide

theorem witness_ChainWalkResult :
    let s := args (put base 16 [6, 0, 0, 8, 0, 0, 0, 9]) 16 8 44
    s.arg0.toNat + s.arg1.toNat ≤ s.params.ibufSize ∧
    walk (BitVec.ofNat 8 s.arg2.toNat) (s.ibufBytes 16 8) 16 = .ok ⟨[6, 0, 0, 8, 0, 0, 0, 9], 16, 8, some 6,
      { Slots.reset with frag := ⟨true, 6, 0, 8, 9⟩ }, [44]⟩ ∧
    walk (BitVec.ofNat 8 s.arg2.toNat) (s.ibufBytes 16 7) 16 = .error (.malformed (.ext .frag) 16) ∧
    s.params.ibufSize < (args s 257 0 44).arg0.toNat + (args s 257 0 44).arg1.toNat := by decide

/-- A walk whose second header does not decode. -/
theorem witness_WalkIsRepeatedDispatch_fault :
    base.cmd = none ∧
    walk 44 [0, 0, 0, 8, 0, 0, 0, 9, 6] 16 = .error (.malformed (.ext .hop) 24) := by decide

theorem witness_WalkIsRepeatedDispatch :
    base.cmd = none ∧ walk 44 [6, 0, 0, 8, 0, 0, 0, 9] 16 = .ok ⟨[6, 0, 0, 8, 0, 0, 0, 9], 16, 8, some 6,
      { Slots.reset with frag := ⟨true, 6, 0, 8, 9⟩ }, [44]⟩ := by decide

/-- A fixed header whose PLEN exactly fills its region, and one with PLEN = 0. -/
theorem witness_FixedHeaderCommandsResult :
    let s := args (put base0 0 (fx 8 59)) 0 48 0
    let z := args (put base0 0 (fx 0 59)) 0 40 0
    (s.arg0.toNat + s.arg1.toNat ≤ s.params.ibufSize ∧ 40 ≤ s.arg1.toNat ∧
      (ibufFixed s 0).plen ≠ 0 ∧ 40 + (ibufFixed s 0).plen.toNat ≤ s.arg1.toNat) ∧
    ((ibufFixed z 0).plen = 0 ∧ 40 ≤ z.arg1.toNat) ∧
    { base with olen := 216 }.olen.toNat + 40 ≤ base.params.obufSize ∧
    base.params.obufSize < { base with olen := 217 }.olen.toNat + 40 ∧
    s.params.ibufSize < (args s 217 40 0).arg0.toNat + (args s 217 40 0).arg1.toNat ∧
    (args s 0 39 0).arg1.toNat < 40 ∧ (args s 0 47 0).arg1.toNat < 40 + (ibufFixed s 0).plen.toNat := by
  decide

/-- A packet of a fixed header and `b`, in IBUF, its region named. -/
def packet (s : State) (nxt : Byte) (b : Bytes) : State :=
  args (put s 0 (fx (BitVec.ofNat 16 b.length) nxt ++ b)) 0 (BitVec.ofNat 32 (40 + b.length)) 0

/-- The region and header premises of PacketDecodeResult, for each of the four outcomes. -/
theorem witness_PacketDecodeResult_region :
    ∀ s ∈ [packet base 50 [0, 0, 0, 1, 0, 0, 0, 2], packet base 59 [7], packet base 17 [7],
      packet base 17 (zeros 8)],
    s.arg0.toNat + s.arg1.toNat ≤ s.params.ibufSize ∧ 40 ≤ s.arg1.toNat ∧ (ibufFixed s 0).plen ≠ 0 ∧
      40 + (ibufFixed s 0).plen.toNat ≤ s.arg1.toNat := by decide

/-- No terminal id; a registry miss; a decoder that fails; a payload decoded. -/
theorem witness_PacketDecodeResult_upper :
    (walk 50 [0, 0, 0, 1, 0, 0, 0, 2] 40).toOption.map Walker.cur = some none ∧
    ((walk 59 [7] 40).toOption.map Walker.cur = some (some 59) ∧ base.codec.lookup 59 = false) ∧
    ((walk 17 [7] 40).toOption.map Walker.cur = some (some 17) ∧ base.codec.lookup 17 = true ∧
      base.codec.decode 17 [7] = none) ∧
    (base.codec.lookup 17 = true ∧ base.codec.decode 17 (zeros 8) = some ⟨17, zeros 8⟩) := by decide

theorem witness_PacketDecodeFaultKeepsPacket :
    let s := packet base 44 (zeros 7)
    s.arg0.toNat + s.arg1.toNat ≤ s.params.ibufSize ∧ 40 ≤ s.arg1.toNat ∧
    ((ibufFixed s 0).plen ≠ 0 → 40 + (ibufFixed s 0).plen.toNat ≤ s.arg1.toNat) ∧
    walk (ibufFixed s 0).nxt (s.ibufBytes 40 (workLen (ibufFixed s 0) s.arg1.toNat)) 40 =
      .error (.malformed (.ext .frag) 40) := by decide

/-- Exactly full, with a payload object and with a raw one. -/
theorem witness_PacketEncodeResult :
    let s := { base with ulp := some 59, payload := .raw [7], olen := 215 }
    fixup s.codec s.ulp s.payload s.fix.src s.fix.dst = .ok ⟨.raw [7], none, false, false⟩ ∧
    s.olen.toNat + (pktBytes s (.raw [7])).length ≤ s.params.obufSize := by decide

/-- All premises of PacketRoundTrip together: T1a's packet shape, a Fragment header before raw
bytes. -/
theorem witness_PacketRoundTrip :
    let s := packet base0 44 [59, 0, 0, 8, 0, 0, 0, 9, 7]
    let t := after (exec .pktDec s)
    exec .pktDec s = .next t ∧ statusCause t.status = 0 ∧ s.params.ibufSize < 2 ^ 32 ∧
    (t.fix.plen = 0 ∨ s.arg1.toNat = 40 + t.fix.plen.toNat) ∧
    ((t.chain.filterMap kindOf).map kindIndex).Pairwise (· < ·) ∧
    payloadBytes t.codec t.payload = s.ibufBytes t.res1.toNat t.res2.toNat ∧
    fixup t.codec t.ulp t.payload t.fix.src t.fix.dst = .ok ⟨.raw [7], none, false, false⟩ ∧
    payloadBytes t.codec (.raw [7]) = s.ibufBytes t.res1.toNat t.res2.toNat ∧
    s.arg1.toNat ≤ t.params.obufSize :=
  ⟨next_after (by decide), by decide, by decide, by decide, by decide, by decide, by decide, by decide,
    by decide⟩

/-- The longest length the 16 bits hold and the first they do not, inside a large enough IBUF. -/
theorem witness_ChecksumCommandsResult :
    let s := { base with params := ⟨70000, 256, .tulc, 0⟩ }
    (args s 17 0xFFFF 0).arg1.toNat ≤ 0xFFFF ∧ 0xFFFF < (args s 17 0x10000 0).arg1.toNat ∧
    ((args s 17 1 0xFFFF).arg1.toNat + (args s 17 1 0xFFFF).arg2.toNat ≤ s.params.ibufSize ∧
      (args s 17 1 0xFFFF).arg2.toNat ≤ 0xFFFF) ∧
    ((args s 17 1 0x10000).arg1.toNat + (args s 17 1 0x10000).arg2.toNat ≤ s.params.ibufSize ∧
      0xFFFF < (args s 17 1 0x10000).arg2.toNat) ∧
    s.params.ibufSize < (args s 17 70000 1).arg1.toNat + (args s 17 70000 1).arg2.toNat := by decide

/-- Every case of CSUM_FIXUP: another id, no id, a raw payload, no checksum field, a field that is
not zero, a field that is zero. -/
theorem witness_ChecksumFixupResult :
    ((59 : Byte) ≠ 6 ∧ (59 : Byte) ≠ 17 ∧ (59 : Byte) ≠ 58) ∧ base.ulp = none ∧
    base.payload = .raw [] ∧ base0.codec.hasCsum ⟨17, zeros 8⟩ = false ∧
    (base.codec.hasCsum ⟨17, [0, 0, 0, 0, 0, 0, 0, 1]⟩ = true ∧
      base.codec.getCsum ⟨17, [0, 0, 0, 0, 0, 0, 0, 1]⟩ ≠ 0) ∧
    (base.codec.hasCsum ⟨17, zeros 8⟩ = true ∧ base.codec.getCsum ⟨17, zeros 8⟩ = 0 ∧
      (base.codec.serialize ⟨17, zeros 8⟩).length ≤ 0xFFFF) := by decide

theorem tulc_getCsum (h : Obj) (k : tulcHolds h = true) :
    ulcTest.getCsum h = rd16 h.body (tulcCsumOff h) := by simp [ulcTest, k]

/-- An object whose serialization is one byte too long (after CS20); also ChecksumFixupResult's case. -/
theorem witness_ChecksumLengthRangeFaults :
    let h : Obj := ⟨17, zeros 0x10000⟩
    let s := { base with ulp := some 17, payload := .obj h }
    s.ulp = some 17 ∧ s.payload = .obj h ∧ s.codec.hasCsum h = true ∧ s.codec.getCsum h = 0 ∧
      0xFFFF < (s.codec.serialize h).length := by
  refine ⟨rfl, rfl, rfl, ?_, ?_⟩
  · have e : ∀ n i, i < n → byteAt (zeros n) i = 0 := by
      intro n i hi
      simp [byteAt, zeros, List.getD, hi]
    have k : tulcHolds ⟨17, zeros 0x10000⟩ = true := by
      show (true && decide (8 ≤ (List.replicate 0x10000 (0 : Byte)).length)) = true
      rw [List.length_replicate]; decide
    refine (tulc_getCsum _ k).trans ?_
    show rd16 (zeros 0x10000) 6 = 0
    rw [rd16, e _ 6 (by decide), e _ (6 + 1) (by decide)]; rfl
  · show 0xFFFF < (List.replicate 0x10000 (0 : Byte)).length
    rw [List.length_replicate]; decide

theorem witness_ChecksumCombiningLaw : ([] : Bytes).length % 2 = 0 ∧ ([1, 2] : Bytes).length % 2 = 0 := by
  decide

theorem witness_PseudoHeaderEquivalence : (0 : Nat) ≤ 0xFFFF ∧ 0xFFFF ≤ 0xFFFF := by decide

/-- All premises of FixupVerifies together, with TULC and CS12's datagram. -/
theorem witness_FixupVerifies :
    let h : Obj := ⟨17, [0x12, 0x34, 0x00, 0x35, 0x00, 0x0A, 0, 0, 0x68, 0x69]⟩
    let r : FixupResult := ⟨.obj ⟨17, [0x12, 0x34, 0x00, 0x35, 0x00, 0x0A, 0x29, 0x93, 0x68, 0x69]⟩,
      some 0x2993, true, false⟩
    fixup ulcTest (some 17) (.obj h) (addr 1) (addr 2) = .ok r ∧ r.csum = some 0x2993 ∧
    2 * 3 + 2 ≤ (ulcTest.serialize h).length ∧ rd16 (ulcTest.serialize h) (2 * 3) = 0 ∧
    ulcTest.serialize (ulcTest.setCsum h 0x2993) = putBe16 (ulcTest.serialize h) (2 * 3) 0x2993 := by
  decide

/-- Addresses the map does not list: below, between, past its end. -/
theorem witness_HostRegisterAccess : ∀ a ∈ [0x001, 0x030, 0x24C, 0x400],
    a ∉ [0x000, 0x004, 0x008, 0x00C, 0x010, 0x014, 0x018, 0x01C, 0x020, 0x024, 0x028, 0x02C, 0x040,
      0x044, 0x048, 0x04C, 0x050, 0x060, 0x064, 0x068, 0x06C, 0x070, 0x074, 0x078, 0x07C, 0x100, 0x104,
      0x108, 0x140, 0x144, 0x148, 0x14C, 0x150, 0x154, 0x180, 0x184, 0x188, 0x18C, 0x190, 0x1C0, 0x1C4,
      0x1C8, 0x1CC, 0x1D0, 0x1D4, 0x200, 0x210, 0x214, 0x240, 0x244, 0x248] := by decide

/-- Two instances; the first takes a step. -/
theorem witness_InstancesAreIndependent :
    let b := { base with params := ⟨256, 256, .tulc, 1⟩ }
    (systemStep [cmd base 0x01, b] 0).isSome = true ∧ sharedCodec [cmd base 0x01, b] ∧
      unitsApart [cmd base 0x01, b] := by
  refine ⟨by decide, ?_, ?_⟩
  · unfold sharedCodec; decide
  · unfold unitsApart; decide

end Sys2Proof.Tests
end

section
/-! PROOFS. The family 10_state.md: the invariant (R35, R36, R47, R50, R70), at reset and over every step. -/

namespace Sys2Proof.Machine

/-! ### At reset -/

/-- Settles O11: the free buffer sizes at reset are legal by their type (00_scope.md R7), and the rest
are reset values. -/
theorem invAtReset : Obligations.InvAtReset where
  ibufWf := rfl
  obufWf := rfl
  ibufBelow := rfl
  obufBelow := rfl
  ibufSize := by have := Config.ibufExtra.isLt; simp only [State.reset, Params.reset]; omega
  obufSize := by have := Config.obufExtra.isLt; simp only [State.reset, Params.reset]; omega
  reserved := by decide
  cause := by decide
  fkind := by decide
  fkindCause := by decide
  faultFlags := by decide
  rawWhy := by decide
  faultOff := fun _ => rfl
  scan := by simp [State.reset]
  chain := by simp [State.reset]

/-! ### What the scanner and the walker record -/

/-- A record the scanner may emit (R50, 43_tlv_scanner.md R254): it carries its own length and is no
pad. -/
def OptRec.Legal (r : OptRec) : Prop := r.value.length = r.len.toNat ∧ 2 ≤ r.typ.toNat

/-- The record of one option that is neither Pad1 nor PadN and lies inside the region. -/
theorem optRec_legal {r : Bytes} {pos : Nat} (h0 : byteAt r pos ≠ 0) (h1 : byteAt r pos ≠ 1)
    (hl : pos + 2 + (byteAt r (pos + 1)).toNat ≤ r.length) :
    OptRec.Legal ⟨byteAt r pos, byteAt r (pos + 1),
      slice r (pos + 2) (pos + 2 + (byteAt r (pos + 1)).toNat)⟩ := by
  refine ⟨(slice_length hl).trans (Nat.add_sub_cancel_left ..), ?_⟩
  have n0 : (byteAt r pos).toNat ≠ 0 := fun e => h0 (BitVec.eq_of_toNat_eq e)
  have n1 : (byteAt r pos).toNat ≠ 1 := fun e => h1 (BitVec.eq_of_toNat_eq e)
  show 2 ≤ (byteAt r pos).toNat
  omega

theorem tlvLoop_legal {r : Bytes} {f pos : Nat} {out res : List OptRec}
    (h : tlvLoop r f pos out = .ok res) (ho : ∀ x ∈ out, x.Legal) : ∀ x ∈ res, x.Legal := by
  induction f generalizing pos out with
  | zero => cases h; exact ho
  | succ f ih =>
    rw [tlvLoop_succ] at h
    split_ifs at h with hend hpad hlen hval hpadN
    · cases h; exact ho
    · exact ih h ho
    · exact ih h ho
    · refine ih h fun x hx => ?_
      rcases List.mem_append.1 hx with hx | hx
      · exact ho x hx
      · rw [List.mem_singleton.1 hx]
        exact optRec_legal hpad hpadN (by omega)

theorem tlvScan_legal {r : Bytes} {out : List OptRec} (h : tlvScan r = .ok out) :
    ∀ x ∈ out, x.Legal :=
  tlvLoop_legal h (by simp)

/-- A walk records only ids it has dispatched on, and those are recognized (R47, R273). -/
theorem walk_chain_ext {first : Byte} {b : Bytes} {o : Nat} {w : Walker}
    (h : walk first b o = .ok w) : ∀ p ∈ w.chain, p ∈ extIds := by
  refine walkLoop_ind (P := fun v => ∀ p ∈ v.chain, p ∈ extIds) ?_ _ _ _ h (by simp [Walker.start])
  intro v k u hv _ hd p hp
  obtain ⟨ss, nx, l, -, rfl⟩ := dispatch_ok hd
  rcases List.mem_append.1 hp with hp | hp
  · exact hv p hp
  · rw [List.mem_singleton.1 hp]; exact idOf_mem k

/-! ### The invariant through a command -/

section Frame
variable {i : Instr} {s t : State} {fl : DoneFlags}

/-- A command's output keeps OBUF canonical and inside its size (R70, R76). -/
theorem BodyFrame.obuf_ok (f : BodyFrame i s t fl) (h : Inv s) :
    Memory.wf t.obuf = true ∧ Memory.below s.params.obufSize t.obuf = true := by
  rcases f.out with ⟨ho, -⟩ | ⟨-, e, hfit, ho, -⟩ <;> rw [ho]
  · exact ⟨h.obufWf, h.obufBelow⟩
  · exact ⟨Memory.writeBytes_wf h.obufWf _ _, Memory.writeBytes_below h.obufBelow _ _ hfit⟩

theorem BodyFrame.scan_legal (f : BodyFrame i s t fl) (h : Inv s) : ∀ r ∈ t.scan, r.Legal := by
  rcases f.scan with e | e | ⟨b, hb⟩
  · rw [e]; exact h.scan
  · simp [e]
  · exact tlvScan_legal hb

theorem BodyFrame.chain_ext (f : BodyFrame i s t fl) (h : Inv s) : ∀ p ∈ t.chain, p ∈ extIds := by
  rcases f.chain with e | e | ⟨_, _, _, w, hw, e⟩
  · rw [e]; exact h.chain
  · simp [e]
  · rw [e]; exact walk_chain_ext hw

/-- The invariant reads the memories, the parameters, the report and the two lists, and nothing
else. -/
theorem Inv.congr (h : Inv s) (hi : t.ibuf = s.ibuf) (ho : t.obuf = s.obuf)
    (hp : t.params = s.params) (hst : t.status = s.status) (hfo : t.faultOff = s.faultOff)
    (hsc : t.scan = s.scan) (hch : t.chain = s.chain) : Inv t := by
  cases t
  subst hi ho hp hst hfo hsc hch
  exact { h with }

/-- A fault's report is a legal one (R35, R36, R404), and a fault writes nothing else. -/
theorem Inv.after_raise (h : Inv s) (k : Trap) : Inv (s.raise k) := by
  obtain ⟨-, hc, hf, hcf, hoff⟩ := trap_codes k
  have hcf' : trapFkind k ≠ 0 ↔ causeCode k = 1 := by
    simpa [← BitVec.toNat_inj] using hcf.symm
  exact { h with
    reserved := by simp
    cause := by simpa using hc
    fkind := by simpa using hf
    fkindCause := by simpa using hcf'
    faultFlags := by simp
    rawWhy := by simp
    faultOff := by
      intro hne
      rw [raise_cause] at hne
      simp [hoff fun e => hne (BitVec.eq_of_toNat_eq e)] }

/-- A command that completes keeps the invariant: its own writes do, and its report is legal. -/
theorem Inv.after_done (h : Inv s) (f : BodyFrame i s t fl) : Inv (t.done fl) where
  ibufWf := by rw [done_ibuf, f.ibuf]; exact h.ibufWf
  obufWf := (f.obuf_ok h).1
  ibufBelow := by rw [done_ibuf, done_params, f.ibuf, f.params]; exact h.ibufBelow
  obufBelow := by rw [done_params, f.params]; exact (f.obuf_ok h).2
  ibufSize := by rw [done_params, f.params]; exact h.ibufSize
  obufSize := by rw [done_params, f.params]; exact h.obufSize
  reserved := by simp
  cause := by simp
  fkind := by simp
  fkindCause := by simp
  faultFlags := by simp
  rawWhy := by simp [f.ulpRaw]
  faultOff := by simp
  scan := f.scan_legal h
  chain := f.chain_ext h

theorem Inv.after_exec (h : Inv s) (hx : exec i s = .next t) : Inv t := by
  rcases exec_cases i s with ⟨-, k, e⟩ | ⟨-, u, fl, e, f⟩ | ⟨-, w, e⟩ | ⟨-, k, off, e⟩ <;>
    rw [e] at hx <;> cases hx
  · exact h.after_raise k
  · exact h.after_done f
  · exact h.congr rfl rfl rfl rfl rfl rfl rfl
  · have hw : Inv { s with walker := Walker.idle } := h.congr rfl rfl rfl rfl rfl rfl rfl
    exact hw.after_raise _

end Frame

/-! ### The invariant through the host's turn -/

/-- The reset event keeps the parameters and empties everything else the invariant reads (R450). -/
theorem Inv.after_resetEvent {s : State} (h : Inv s) : Inv (resetEvent s) :=
  { invAtReset with
    ibufBelow := rfl
    obufBelow := rfl
    ibufSize := h.ibufSize
    obufSize := h.obufSize }

theorem Inv.after_hostWrite {s : State} (h : Inv s) (a : Nat) (v : Word) : Inv (hostWrite s a v) := by
  obtain ⟨hst, hfo, hsc, hch, hi, ho, -, -, hp, -⟩ := hostWrite_frame s a v
  exact h.congr hi ho hp hst hfo hsc hch

/-- The host writes only IBUF bytes that exist (R70). -/
theorem Inv.after_hostIbuf {s t : State} {off : Nat} {b : Bytes} (h : Inv s)
    (hx : hostIbuf s off b = .next t) : Inv t := by
  unfold hostIbuf at hx
  split_ifs at hx with hfit
  cases hx
  exact { h with
    ibufWf := Memory.writeBytes_wf h.ibufWf _ _
    ibufBelow := Memory.writeBytes_below h.ibufBelow _ _ (by omega) }

theorem Inv.after_hostAct {s t : State} {a : HostAct} (h : Inv s) (hx : hostAct s a = .next t) :
    Inv t := by
  cases a with
  | write a v => cases hx; exact h.after_hostWrite a v
  | read l => rw [hostLook_next hx]; exact h
  | ibuf off b => exact h.after_hostIbuf hx
  | reset => cases hx; exact h.after_resetEvent
  | _ => cases hx; exact h.congr rfl rfl rfl rfl rfl rfl rfl

theorem Inv.after_hostTurn {s t : State} (h : Inv s) (hx : hostTurn s = .next t) : Inv t := by
  rcases hostTurn_cases hx with rfl | ⟨a, rest, -, ha⟩
  · exact h
  · have hr : Inv { s with host := rest } := h.congr rfl rfl rfl rfl rfl rfl rfl
    exact hr.after_hostAct ha

/-! ### The invariant over a step -/

/-- Settles O12: a step runs an instruction, completes an illegal word with a fault, or is the host's
turn, and each keeps the invariant. -/
theorem invKeptByEveryStep : Obligations.InvKeptByEveryStep := by
  intro s t h hs
  have hf : Inv (afterFetch s) := h.congr rfl rfl rfl rfl rfl rfl rfl
  rcases step_cases s with ⟨i, e⟩ | e | ⟨-, e⟩ <;> rw [e] at hs
  · exact hf.after_exec hs
  · cases hs; exact hf.after_raise .illegalCommand
  · exact h.after_hostTurn hs

end Sys2Proof.Machine
end

section
/-! PROOFS. The family 10_state.md: what an instruction leaves alone (R33, R52, R71, R458), what it does with
STATUS (R56), and blocks beside each other (R31, R417). -/

namespace Sys2Proof.Machine

/-! ### Operands and inputs -/

/-- Settles O14: each of the four things an instruction can do is a frame for the inputs. -/
theorem operandsAndInputsKept : Obligations.OperandsAndInputsKept := by
  intro i s t h
  rcases exec_cases i s with ⟨-, k, e⟩ | ⟨-, u, fl, e, f⟩ | ⟨-, w, e⟩ | ⟨-, k, off, e⟩ <;>
    rw [e] at h <;> cases h
  · exact ⟨rfl, rfl, rfl, rfl, rfl, rfl, rfl, rfl, rfl⟩
  · exact ⟨f.arg0, f.arg1, f.arg2, f.arg3, f.ibuf, f.host, f.cmd, f.resets, f.params⟩
  · exact ⟨rfl, rfl, rfl, rfl, rfl, rfl, rfl, rfl, rfl⟩
  · exact ⟨rfl, rfl, rfl, rfl, rfl, rfl, rfl, rfl, rfl⟩

/-! ### A command's step -/

/-- An opcode of R102 is the one its instruction is encoded with. -/
theorem encode_of_decodeOpcode (opc : Byte) :
    ∀ i ∈ decodeOpcode opc, encode i = .cmd (opc.setWidth 32) := by
  revert opc; decide

/-- A command word whose reserved bits are 0 is its opcode (R100). -/
theorem word_of_rsv_zero {w : Word} (h : (CmdWord.ofWord w).rsv = 0) :
    (CmdWord.ofWord w).opc.setWidth 32 = w := by
  have h' : w.toNat / 2 ^ 8 % 2 ^ 24 = 0 := by
    rw [← ext_toNat]; exact congrArg BitVec.toNat h
  apply BitVec.eq_of_toNat_eq
  have := w.isLt
  simp only [CmdWord.ofWord, BitVec.toNat_setWidth, ext_toNat]
  omega

/-- A command word decodes only to the instruction it encodes (R101). -/
theorem encode_of_decodeCmd {w : Word} {i : Instr} (h : decodeCmd w = .ok i) :
    encode i = .cmd w := by
  simp only [decodeCmd] at h
  split_ifs at h with hr
  split at h
  · rename_i j hj
    cases h
    rw [encode_of_decodeOpcode _ i hj, word_of_rsv_zero (not_not.1 hr)]
  · cases h

/-- The step of a pending command either completes with a fault or completes its instruction's own
writes. -/
theorem step_command_cases {s t : State} {w : Word} (hc : s.cmd = some w) (hs : step s = .next t) :
    (∃ k, t = (afterFetch s).raise k) ∨
    ∃ i u fl, encode i = .cmd w ∧ BodyFrame i (afterFetch s) u fl ∧ t = u.done fl := by
  have hf : fetch s = some (.cmd w) := by rw [fetch, hc]
  simp only [step, hf, decode] at hs
  split at hs
  · rename_i i hi
    have he := encode_of_decodeCmd hi
    have hcmd : isCommand i = true := by rw [isCommand, he]
    rcases exec_cases i (afterFetch s) with ⟨-, k, e⟩ | ⟨-, u, fl, e, f⟩ | ⟨h0, -⟩ | ⟨h0, -⟩
    · rw [e] at hs; cases hs; exact Or.inl ⟨k, rfl⟩
    · rw [e] at hs; cases hs; exact Or.inr ⟨i, u, fl, he, f, rfl⟩
    · rw [hcmd] at h0; cases h0
    · rw [hcmd] at h0; cases h0
  · cases hs; exact Or.inl ⟨.illegalCommand, rfl⟩

/-! ### STATUS is written and never read -/

/-- A fault records FKIND only with CAUSE 1 (R35). -/
theorem trap_fkind_cause {k : Trap} (h : trapFkind k ≠ 0) : causeCode k = 1 := by
  obtain ⟨-, -, -, hcf, -⟩ := trap_codes k
  exact BitVec.eq_of_toNat_eq (hcf.2 fun e => h (BitVec.eq_of_toNat_eq e))

/-- Without STICKY_FAULT a packed STATUS stays below bit 31. -/
theorem packStatus_lt_of_not_sticky (c f : BitVec 4) (fl : DoneFlags) :
    (packStatus c f fl false).toNat < 2 ^ 31 := by
  have hc := c.isLt
  have hf := f.isLt
  have h8 := fl.ulpRaw.toNat_le
  have h9 := fl.rawWhy.isLt
  have h11 := fl.csumWritten.toNat_le
  have h12 := fl.csumSkipped.toNat_le
  rw [packStatus_toNat, Bool.toNat_false]
  omega

/-- STICKY_FAULT stands in bit 31 of STATUS and in no other (R35). -/
theorem packStatus_low_bit (c f : BitVec 4) (fl : DoneFlags) (st : Bool) {k : Nat} (hk : k < 31) :
    (packStatus c f fl st).getLsbD k = (packStatus c f fl false).getLsbD k := by
  have hsum : (packStatus c f fl st).toNat =
      2 ^ 31 * st.toNat + (packStatus c f fl false).toNat := by
    simp only [packStatus_toNat, Bool.toNat_false]
    omega
  rw [BitVec.getLsbD, hsum,
    Nat.testBit_two_pow_mul_add _ (packStatus_lt_of_not_sticky c f fl), if_pos hk, BitVec.getLsbD]

/-- The report of a command's step (R56): its flags are those of its own instruction, and with a
cause there are none. -/
theorem step_command_flags {s t : State} {w : Word} (hc : s.cmd = some w) (hs : step s = .next t) :
    (statusUlpRaw t.status = true ∨ statusRawWhy t.status ≠ 0 → w = 0x52) ∧
    (statusCsumWritten t.status = true ∨ statusCsumSkipped t.status = true → w = 0x53 ∨ w = 0x62) ∧
    (statusCause t.status ≠ 0 → statusSticky t.status = true ∧ statusUlpRaw t.status = false ∧
      statusRawWhy t.status = 0 ∧ statusCsumWritten t.status = false ∧
      statusCsumSkipped t.status = false ∧
      (statusFkind t.status ≠ 0 → statusCause t.status = 1)) := by
  rcases step_command_cases hc hs with ⟨k, rfl⟩ | ⟨i, u, fl, he, f, rfl⟩
  · simpa using fun _ => trap_fkind_cause
  · simp only [done_status, statusUlpRaw_pack, statusRawWhy_pack, statusCsumWritten_pack,
      statusCsumSkipped_pack, statusCause_pack]
    refine ⟨fun h => ?_, fun h => ?_, fun h => absurd rfl h⟩
    · rw [f.pktDec h] at he
      cases he; rfl
    · rcases f.csum h with rfl | rfl <;> cases he
      · exact Or.inl rfl
      · exact Or.inr rfl

/-- With another STATUS a command leaves the same state but for STATUS, and there but for bit 31. -/
theorem exec_command_status {i : Instr} {s t : State} (hc : isCommand i = true) (w : Word)
    (h : exec i s = .next t) :
    ∃ u, exec i { s with status := w } = .next u ∧ { u with status := t.status } = t ∧
      ∀ k, k < 31 → u.status.getLsbD k = t.status.getLsbD k := by
  obtain ⟨r, hr⟩ := exec_body i hc
  rw [hr.exec] at h ⊢
  rw [hr.status]
  rcases complete_next h with ⟨k, e, rfl⟩ | ⟨p, fl, e, rfl⟩ <;> rw [e]
  · exact ⟨_, rfl, rfl, fun _ _ => rfl⟩
  · exact ⟨_, rfl, rfl, fun _ hk =>
      (packStatus_low_bit _ _ _ _ hk).trans (packStatus_low_bit _ _ _ _ hk).symm⟩

/-- A next-header dispatch reads no STATUS (log 18). -/
theorem exec_nh_status {k : Kind} {s t : State} (w : Word) (h : exec (nhInstr k) s = .next t) :
    ∃ u, exec (nhInstr k) { s with status := w } = .next u ∧ { u with status := t.status } = t := by
  rw [exec_nh] at h ⊢
  cases hd : s.walker.dispatch k with
  | ok v =>
    rw [nhDispatch_ok hd] at h
    cases h
    exact ⟨_, nhDispatch_ok (s := { s with status := w }) hd, rfl⟩
  | error e =>
    rw [nhDispatch_error hd] at h
    cases h
    exact ⟨_, nhDispatch_error (s := { s with status := w }) hd, rfl⟩

/-- Settles O17: the flags by the two ways a command completes, the independence by command and
next-header row. -/
theorem statusFlagsAreWriteOnly : Obligations.StatusFlagsAreWriteOnly := by
  refine ⟨fun s t w => step_command_flags, fun i s t w h => ?_⟩
  rcases isCommand_or_nh i with hc | ⟨k, rfl⟩
  · obtain ⟨u, hu, ht, hbits⟩ := exec_command_status hc w h
    exact ⟨u, hu, ht, fun _ => hbits⟩
  · obtain ⟨u, hu, ht⟩ := exec_nh_status w h
    have hk : isCommand (nhInstr k) = false := by cases k <;> rfl
    exact ⟨u, hu, ht, fun hc => by rw [hk] at hc; cases hc⟩

/-! ### Blocks beside each other -/

/-- No step changes the parameters (R53, R458). -/
theorem step_params {s t : State} (h : step s = .next t) : t.params = s.params := by
  rcases step_cases s with ⟨i, e⟩ | e | ⟨-, e⟩ <;> rw [e] at h
  · obtain ⟨-, -, -, -, -, -, -, -, hp⟩ := operandsAndInputsKept i _ t h
    exact hp
  · cases h; rfl
  · rcases hostTurn_cases h with rfl | ⟨a, rest, -, ha⟩
    · rfl
    · have hp := hostAct_params ha
      exact hp

theorem systemStep_eq_set {sys sys' : System} {j : Nat} (h : systemStep sys j = some sys') :
    ∃ s t, sys[j]? = some s ∧ step s = .next t ∧ sys' = sys.set j t := by
  unfold systemStep at h
  split at h
  · cases h
  · rename_i s hj
    split at h <;> cases h
    exact ⟨s, _, hj, by assumption, rfl⟩

/-- A step of one block changes no block's parameters. -/
theorem systemStep_params {sys sys' : System} {j : Nat} (h : systemStep sys j = some sys') :
    sys'.map State.params = sys.map State.params := by
  obtain ⟨s, t, hj, hst, rfl⟩ := systemStep_eq_set h
  obtain ⟨hlt, rfl⟩ := List.getElem?_eq_some_iff.1 hj
  rw [List.map_set, step_params hst, ← List.getElem_map State.params (h := by simpa using hlt),
    List.set_getElem_self]

theorem sharedCodec_iff (sys : System) :
    sharedCodec sys ↔ ∀ p ∈ sys.map State.params, ∀ q ∈ sys.map State.params, p.ulc = q.ulc := by
  simp [sharedCodec]

theorem unitsApart_iff (sys : System) :
    unitsApart sys ↔ ((sys.map State.params).map Params.unit).Nodup := by
  simp [unitsApart, Function.comp_def]

/-- Settles O60: the step replaces the j-th state alone, and what the blocks share or hold apart are
parameters, which no step changes. -/
theorem instancesAreIndependent : Obligations.InstancesAreIndependent := by
  intro sys sys' j h
  rw [sharedCodec_iff, sharedCodec_iff, unitsApart_iff, unitsApart_iff, systemStep_params h]
  refine ⟨fun k hk => ?_, id, id⟩
  obtain ⟨s, t, -, -, rfl⟩ := systemStep_eq_set h
  exact List.getElem?_set_ne hk.symm

end Sys2Proof.Machine
end

section
/-! PROOFS. The family 10_state.md: reset values (R58), the host's turn (R32, R55, 20_memory.md R70 and R71) and
the register map (R54). -/

namespace Sys2Proof.Machine

/-! ### Reset -/

/-- Settles O8: nothing has been written, so every buffer byte is its free value. -/
theorem resetValues : Obligations.ResetValues := by
  unfold Obligations.ResetValues
  and_intros
  on_goal -1 => exact fun _ => ⟨rfl, rfl⟩
  all_goals rfl

/-! ### The host's turn -/

/-- With nothing to fetch a step is the host's turn (60_exceptions.md R419). -/
theorem step_hostTurn {s : State} (h : fetch s = none) : step s = hostTurn s := by
  rw [step, h]

/-- A host write of IBUF bytes that exist. -/
theorem hostIbuf_ok {s : State} {off : Nat} {b : Bytes} (h : off + b.length ≤ s.params.ibufSize) :
    hostIbuf s off b = .next { s with ibuf := Memory.writeBytes s.ibuf off b } := by
  rw [hostIbuf, if_neg (by omega)]

/-- A host write of IBUF bytes that do not exist. -/
theorem hostIbuf_bad {s : State} {off : Nat} {b : Bytes} (h : s.params.ibufSize < off + b.length) :
    hostIbuf s off b = .fault (.hostOutsideIbuf off b.length) := by
  rw [hostIbuf, if_pos h]

theorem hostReadFault_none {s : State} {l : HostLoc}
    (hi : ∀ off n, l = .ibuf off n → off + n ≤ s.params.ibufSize)
    (ho : ∀ off n, l = .obuf off n → off + n ≤ s.params.obufSize) : hostReadFault s l = none := by
  cases l with
  | ibuf off n => exact if_neg (Nat.not_lt.2 (hi off n rfl))
  | obuf off n => exact if_neg (Nat.not_lt.2 (ho off n rfl))
  | _ => rfl

theorem hostLook_ok {s : State} {l : HostLoc} (h : hostReadFault s l = none) :
    hostLook s l = .next s := by
  rw [hostLook, h]

theorem hostLook_bad {s : State} {l : HostLoc} {e : Fault} (h : hostReadFault s l = some e) :
    hostLook s l = .fault e := by
  rw [hostLook, h]

/-- Settles O6: with nothing to fetch the step is `hostTurn`; each action's effect is its line of
`hostAct`, and a buffer access goes by whether its bytes exist. -/
theorem hostTurnAndCommandIssue : Obligations.HostTurnAndCommandIssue := by
  refine ⟨fun s hc hw => ?_, fun s => ?_, fun s => ?_⟩
  · rw [step_hostTurn (fetch_none s hc hw)]
    refine ⟨fun h => ?_, fun a rest h => ?_, fun w rest h => ?_⟩ <;> rw [hostTurn, h]
    rfl
  · refine ⟨fun _ _ => rfl, fun _ => rfl, fun _ => rfl, fun _ => rfl, fun _ => rfl, fun _ => rfl,
      fun _ => rfl, fun _ => rfl, fun _ => rfl, fun _ => rfl, fun off b h => ?_, fun off b h => ?_⟩
    · exact ⟨_, hostIbuf_ok h, rfl, ibuf_writeBytes s off b⟩
    · exact hostIbuf_bad h
  · refine ⟨fun l hi ho => ?_, fun off n h => ?_, fun off n h => ?_, fun _ => rfl,
      fun _ _ => ⟨rfl, rfl⟩, rfl, rfl, rfl, rfl, rfl, rfl, rfl, rfl, rfl, rfl, rfl⟩
    · exact hostLook_ok (hostReadFault_none hi ho)
    · exact hostLook_bad (if_pos h)
    · exact hostLook_bad (if_pos h)

/-! ### Fields as registers -/

theorem lowHalf_eq (w : Word) : lowHalf w = BitVec.ofNat 16 w.toNat := by
  apply BitVec.eq_of_toNat_eq; simp [lowHalf]

/-- Bit i of a word, by numbers. -/
theorem getLsbD_eq_decide {w : Nat} (x : BitVec w) (i : Nat) :
    x.getLsbD i = decide (x.toNat / 2 ^ i % 2 = 1) := by
  rw [BitVec.getLsbD, Nat.testBit_eq_decide_div_mod_eq]

theorem getLsbD_zero_eq_decide {w : Nat} (x : BitVec w) :
    x.getLsbD 0 = decide (x.toNat % 2 = 1) := by
  rw [getLsbD_eq_decide, Nat.pow_zero, Nat.div_one]

theorem ulpOfWord_eq (v : Word) : ulpOfWord v =
    if v.toNat / 2 ^ 8 % 2 = 1 then some (lowByte v) else none := by
  rw [ulpOfWord, getLsbD_eq_decide]
  simp only [decide_eq_true_eq]

/-- A 16-bit field of a written word, read as a register. -/
theorem lowHalf_setWidth (v : Word) : (lowHalf v).setWidth 32 = BitVec.ofNat 32 (v.toNat % 2 ^ 16) := by
  rw [lowHalf_eq, ← BitVec.ofNat_toNat, BitVec.toNat_ofNat]

/-- An 8-bit field of a written word, read as a register. -/
theorem lowByte_setWidth (v : Word) : (lowByte v).setWidth 32 = BitVec.ofNat 32 (v.toNat % 2 ^ 8) := by
  rw [lowByte_eq, ← BitVec.ofNat_toNat, BitVec.toNat_ofNat]

/-- A valid bit of a written word, read as a register. -/
theorem bitWord_getLsbD (v : Word) : bitWord (v.getLsbD 0) = BitVec.ofNat 32 (v.toNat % 2) := by
  rw [getLsbD_zero_eq_decide]
  rcases Nat.mod_two_eq_zero_or_one v.toNat with h | h <;> rw [h] <;> rfl

theorem ulpWord_ulpOfWord (v : Word) : ulpWord (ulpOfWord v) =
    if v.getLsbD 8 then BitVec.ofNat 32 (2 ^ 8 + v.toNat % 2 ^ 8) else 0 := by
  unfold ulpOfWord
  split
  · rw [ulpWord, lowByte_eq, BitVec.toNat_ofNat]
  · rfl

/-- The word of an address just written. -/
theorem addrWord_setAddrWord (a : Bytes16) {i : Nat} (v : Word) (h : i < 4) :
    addrWord (setAddrWord a i v) i = v := by
  rw [addrWord, setAddrWord_val a i v h]
  exact rd32_be32 v _ _ _ (by simp [a.property]; omega)

/-! ### The register map -/

/-- The addresses the map lists (R54). -/
def hostRegs : List Nat :=
  [0x000, 0x004, 0x008, 0x00C, 0x010, 0x014, 0x018, 0x01C, 0x020, 0x024, 0x028, 0x02C, 0x040,
    0x044, 0x048, 0x04C, 0x050, 0x060, 0x064, 0x068, 0x06C, 0x070, 0x074, 0x078, 0x07C, 0x100, 0x104,
    0x108, 0x140, 0x144, 0x148, 0x14C, 0x150, 0x154, 0x180, 0x184, 0x188, 0x18C, 0x190, 0x1C0, 0x1C4,
    0x1C8, 0x1CC, 0x1D0, 0x1D4, 0x200, 0x210, 0x214, 0x240, 0x244, 0x248]

/-- An address that reads anything is listed. -/
theorem hostRead_zero_or_listed (s : State) (a : Nat) : hostRead s a = 0 ∨ a ∈ hostRegs := by
  unfold hostRead
  split <;> simp [hostRegs]

/-- An address whose write does anything is listed. -/
theorem hostWrite_self_or_listed (s : State) (a : Nat) (v : Word) :
    hostWrite s a v = s ∨ a ∈ hostRegs := by
  unfold hostWrite
  split <;> simp [hostRegs]

section Words
variable (s : State) (v : Word) {i : Nat} (h : i < 4)
include h

theorem hostRead_src : hostRead s (0x060 + 4 * i) = addrWord s.fix.src i := by
  interval_cases i <;> rfl

theorem hostRead_dst : hostRead s (0x070 + 4 * i) = addrWord s.fix.dst i := by
  interval_cases i <;> rfl

theorem hostWrite_src : hostWrite s (0x060 + 4 * i) v =
    { s with fix := { s.fix with src := setAddrWord s.fix.src i v } } := by
  interval_cases i <;> rfl

theorem hostWrite_dst : hostWrite s (0x070 + 4 * i) v =
    { s with fix := { s.fix with dst := setAddrWord s.fix.dst i v } } := by
  interval_cases i <;> rfl

theorem hostRead_hostWrite_src :
    hostRead (hostWrite s (0x060 + 4 * i) v) (0x060 + 4 * i) = v := by
  rw [hostWrite_src s v h, hostRead_src _ h, addrWord_setAddrWord _ v h]

theorem hostRead_hostWrite_dst :
    hostRead (hostWrite s (0x070 + 4 * i) v) (0x070 + 4 * i) = v := by
  rw [hostWrite_dst s v h, hostRead_dst _ h, addrWord_setAddrWord _ v h]

theorem setAddrWord_val_beWord (a : Bytes16) :
    (setAddrWord a i v).val = a.val.take (4 * i) ++ beWord v ++ a.val.drop (4 * i + 4) := by
  rw [setAddrWord_val a i v h, be32_eq]

end Words

/-- The registers as wide as the word read back what was written. -/
theorem hostRead_hostWrite_word (s : State) (v : Word) :
    ∀ a ∈ [0x00C, 0x010, 0x014, 0x018, 0x01C, 0x040, 0x060, 0x064, 0x068, 0x06C, 0x070, 0x074, 0x078,
      0x07C, 0x154, 0x190, 0x1D0, 0x1D4, 0x210, 0x214], hostRead (hostWrite s a v) a = v := by
  simp only [List.forall_mem_cons, List.not_mem_nil,
    false_implies, implies_true, and_true]
  exact ⟨rfl, rfl, rfl, rfl, rfl, rfl, hostRead_hostWrite_src s v (i := 0) (by decide),
    hostRead_hostWrite_src s v (i := 1) (by decide), hostRead_hostWrite_src s v (i := 2) (by decide),
    hostRead_hostWrite_src s v (i := 3) (by decide), hostRead_hostWrite_dst s v (i := 0) (by decide),
    hostRead_hostWrite_dst s v (i := 1) (by decide), hostRead_hostWrite_dst s v (i := 2) (by decide),
    hostRead_hostWrite_dst s v (i := 3) (by decide), rfl, rfl, rfl, rfl, rfl, rfl⟩

/-- The 16-bit registers read back the low half. -/
theorem hostRead_hostWrite_half (s : State) (v : Word) :
    ∀ a ∈ [0x044, 0x18C, 0x1CC],
      hostRead (hostWrite s a v) a = BitVec.ofNat 32 (v.toNat % 2 ^ 16) := by
  simp only [← lowHalf_setWidth, List.forall_mem_cons, List.not_mem_nil,
    false_implies, implies_true, and_true]
  and_intros <;> rfl

/-- The 8-bit registers read back the low byte. -/
theorem hostRead_hostWrite_byte (s : State) (v : Word) :
    ∀ a ∈ [0x048, 0x04C, 0x104, 0x108, 0x144, 0x148, 0x14C, 0x150, 0x184, 0x188, 0x1C4, 0x1C8, 0x244,
      0x248], hostRead (hostWrite s a v) a = BitVec.ofNat 32 (v.toNat % 2 ^ 8) := by
  simp only [← lowByte_setWidth, List.forall_mem_cons, List.not_mem_nil,
    false_implies, implies_true, and_true]
  and_intros <;> rfl

/-- The valid bits read back bit 0. -/
theorem hostRead_hostWrite_bit (s : State) (v : Word) :
    ∀ a ∈ [0x100, 0x140, 0x180, 0x1C0, 0x200, 0x240],
      hostRead (hostWrite s a v) a = BitVec.ofNat 32 (v.toNat % 2) := by
  simp only [← bitWord_getLsbD, List.forall_mem_cons, List.not_mem_nil,
    false_implies, implies_true, and_true]
  and_intros <;> rfl

/-- STATUS, FAULT_OFF and RES ignore a write. -/
theorem hostWrite_readOnly (s : State) (v : Word) :
    ∀ a ∈ [0x004, 0x008, 0x020, 0x024, 0x028, 0x02C], hostWrite s a v = s := by
  simp only [List.forall_mem_cons, List.not_mem_nil,
    false_implies, implies_true, and_true]
  and_intros <;> rfl

/-- Settles O59: each address by its line of the map, SRC and DST by word, an unlisted address by the
map's last line. -/
theorem hostRegisterAccess : Obligations.HostRegisterAccess := by
  refine ⟨fun s => ?_, fun s v => ?_, fun s v => ?_, fun s v a ha => ?_⟩
  · simp only [BitVec.ofNat_toNat]
    and_intros
    on_goal -1 => exact fun i h => ⟨hostRead_src s h, hostRead_dst s h⟩
    all_goals rfl
  · simp only [← lowByte_eq, ← lowHalf_eq, ← getLsbD_zero_eq_decide, ← ulpOfWord_eq]
    and_intros
    on_goal -2 => exact fun i h => ⟨_, hostWrite_src s v h, setAddrWord_val_beWord v h _⟩
    on_goal -1 => exact fun i h => ⟨_, hostWrite_dst s v h, setAddrWord_val_beWord v h _⟩
    all_goals rfl
  · exact ⟨hostRead_hostWrite_word s v, hostRead_hostWrite_half s v, hostRead_hostWrite_byte s v,
      hostRead_hostWrite_bit s v, ulpWord_ulpOfWord v, hostWrite_readOnly s v, rfl⟩
  · exact ⟨(hostWrite_self_or_listed s a v).resolve_right ha,
      (hostRead_zero_or_listed s a).resolve_right ha⟩

end Sys2Proof.Machine
end

section
/-! PROOFS. The family 20_memory.md: IBUF is read inside the region alone (R71, R73, R74), and OBUF is written by
the commit alone (R72, R76, R77). -/

namespace Sys2Proof.Machine

/-! ### IBUF through the region -/

/-- A command does not tell apart two IBUFs that agree on its region. -/
theorem exec_command_ibuf {i : Instr} {s t : State} {m : Memory} (hc : isCommand i = true)
    (ha : agree i s m) (h : exec i s = .next t) :
    exec i { s with ibuf := m } = .next { t with ibuf := m } := by
  obtain ⟨r, hr⟩ := exec_body i hc
  rw [hr.exec] at h ⊢
  rw [hr.ibuf s m ha]
  rcases complete_next h with ⟨k, e, rfl⟩ | ⟨p, fl, e, rfl⟩ <;> rw [e] <;> rfl

/-- A next-header dispatch reads the walker's own bytes and no IBUF (log 3). -/
theorem exec_nh_ibuf {k : Kind} {s t : State} (m : Memory) (h : exec (nhInstr k) s = .next t) :
    exec (nhInstr k) { s with ibuf := m } = .next { t with ibuf := m } := by
  rw [exec_nh] at h ⊢
  cases hd : s.walker.dispatch k with
  | ok v =>
    rw [nhDispatch_ok hd] at h
    cases h
    exact nhDispatch_ok (s := { s with ibuf := m }) hd
  | error e =>
    rw [nhDispatch_error hd] at h
    cases h
    exact nhDispatch_error (s := { s with ibuf := m }) hd

/-- Settles O15: a command sees IBUF through `region` alone, and a next-header row not at all. -/
theorem ibufReadOnlyInsideRegion : Obligations.IbufReadOnlyInsideRegion := by
  intro i s m ha t h
  obtain ⟨-, -, -, -, hibuf, -⟩ := operandsAndInputsKept i s t h
  refine ⟨hibuf, ?_⟩
  rcases isCommand_or_nh i with hc | ⟨k, rfl⟩
  · exact exec_command_ibuf hc ha h
  · exact exec_nh_ibuf m h

/-! ### Committed output -/

/-- Output that fits advances OLEN without wrap-around (R70: OBUF_SIZE is less than 2^32). -/
theorem olen_add_toNat {s : State} {e : Bytes} (hsz : s.params.obufSize < 2 ^ 32)
    (hfit : s.olen.toNat + e.length ≤ s.params.obufSize) :
    (BitVec.ofNat 32 (s.olen.toNat + e.length)).toNat = s.olen.toNat + e.length := by
  rw [BitVec.toNat_ofNat, Nat.mod_eq_of_lt (by omega)]

/-- Appended output reads back at the old OLEN. -/
theorem appended_obufBytes (s : State) (e : Bytes) :
    (appended s e).obufBytes s.olen.toNat e.length = e := by
  apply List.ext_getElem
  · simp [State.obufBytes]
  · intro j _ hj
    simp only [State.obufBytes, List.getElem_map, List.getElem_range, State.obufByte, appended,
      Memory.read?_writeBytes]
    rw [if_pos (by omega), Nat.add_sub_cancel_left, List.getElem?_eq_getElem hj, Option.getD_some]

/-- Settles O19: a commit that fits is `appended`, and one that does not is the fault. -/
theorem appendedOutputReadsBack : Obligations.AppendedOutputReadsBack := by
  intro s e hsz
  rw [commitOut_eq]
  refine ⟨fun hfit => ?_, fun hfull => if_neg (by omega)⟩
  exact ⟨appended s e, if_pos hfit, rfl, olen_add_toNat hsz hfit, appended_obufBytes s e,
    fun a ha => obufByte_write s e a _ _ ha⟩

/-! ### The frame of OBUF -/

/-- An OBUF byte is read from OBUF, the parameters and the reset counter alone. -/
theorem obufByte_congr {s t : State} (ho : t.obuf = s.obuf) (hp : t.params = s.params)
    (hr : t.resets = s.resets) (a : Nat) : t.obufByte a = s.obufByte a := by
  rw [State.obufByte, State.obufByte, ho, hp, hr]

section Frame
variable {i : Instr} {s t : State} {fl : DoneFlags}

/-- A command that is no encode command leaves the output alone (R72). -/
theorem BodyFrame.out_kept (f : BodyFrame i s t fl) (h : writesObuf i = false) :
    t.obuf = s.obuf ∧ t.olen = s.olen := by
  rcases f.out with hkept | ⟨hw, -⟩
  · exact hkept
  · rw [h] at hw; cases hw

/-- A command's own writes keep every OBUF byte outside those it commits (R77). -/
theorem BodyFrame.obufByte (f : BodyFrame i s t fl) (hsz : s.params.obufSize < 2 ^ 32) {a : Nat}
    (ha : a < s.olen.toNat ∨ t.olen.toNat ≤ a) : t.obufByte a = s.obufByte a := by
  rcases f.out with ⟨ho, -⟩ | ⟨-, e, hfit, ho, hn⟩
  · exact obufByte_congr ho f.params f.resets a
  · rw [hn, olen_add_toNat hsz hfit] at ha
    calc t.obufByte a = (appended s e).obufByte a :=
        obufByte_congr (s := appended s e) ho f.params f.resets a
      _ = s.obufByte a := obufByte_write s e a _ _ ha

end Frame

/-- Settles O18: a fault and a next-header row write no output, and a command that completes writes what
it commits. -/
theorem outputBytesFrame : Obligations.OutputBytesFrame := by
  intro i s t hsz h
  rcases exec_cases i s with ⟨-, k, e⟩ | ⟨-, u, fl, e, f⟩ | ⟨-, w, e⟩ | ⟨-, k, off, e⟩ <;>
    rw [e] at h <;> cases h
  · exact ⟨fun _ => ⟨rfl, rfl⟩, fun _ _ => rfl⟩
  · exact ⟨f.out_kept, fun _ => f.obufByte hsz⟩
  · exact ⟨fun _ => ⟨rfl, rfl⟩, fun _ _ => rfl⟩
  · exact ⟨fun _ => ⟨rfl, rfl⟩, fun _ _ => rfl⟩

end Sys2Proof.Machine
end

section
/-! PROOFS. The family 30_encoding.md: the decoder is the inverse of the encoder (R100 to R102, R105, R120), a step
runs what it decodes (R101, R405), and the next-header rows (R120, 44_chain_walker.md R271). -/

namespace Sys2Proof.Machine

/-! ### The next-header table -/

theorem idOf_of_kindOf (p : Byte) : ∀ k ∈ kindOf p, idOf k = p := by
  revert p; decide

theorem encode_nhInstr (k : Kind) : encode (nhInstr k) = .nh (idOf k) := by
  cases k <;> rfl

/-- A next-header id decodes only to the dispatch row it encodes (R120). -/
theorem encode_of_decodeNh {p : Byte} {i : Instr} (h : decodeNh p = .ok i) : encode i = .nh p := by
  unfold decodeNh at h
  split at h
  · rename_i k hk
    cases h
    rw [encode_nhInstr, idOf_of_kindOf p k hk]
  · cases h

theorem decodeNh_terminal {p : Byte} (h : kindOf p = none) : decodeNh p = .error (.terminalId p) := by
  rw [decodeNh, h]

/-- The ids of EXT, by numbers (R120). -/
theorem not_mem_extIds {p : Byte} (h : p.toNat ≠ 0 ∧ p.toNat ≠ 43 ∧ p.toNat ≠ 44 ∧ p.toNat ≠ 50 ∧
    p.toNat ≠ 51 ∧ p.toNat ≠ 60) : p ∉ extIds := by
  simpa [extIds, ← BitVec.toNat_inj] using h

/-- Settles O4: `kindOf` answers each kind at its own id, and nothing outside EXT. -/
theorem nextHeaderDispatch : Obligations.NextHeaderDispatch := by
  refine ⟨kindOf_idOf .hop, kindOf_idOf .rt, kindOf_idOf .frag, kindOf_idOf .esp, kindOf_idOf .ah,
    kindOf_idOf .dst, rfl, rfl, rfl, rfl, rfl, rfl, fun p hp => ?_⟩
  have hk : kindOf p = none := (kindOf_none p).2 (not_mem_extIds hp)
  exact ⟨hk, decodeNh_terminal hk⟩

/-! ### Decode and encode -/

theorem decode_encode (i : Instr) : decode (encode i) = .ok i := by
  cases i <;> rfl

theorem encode_of_decode {f : Fetched} {i : Instr} (h : decode f = .ok i) : encode i = f := by
  cases f with
  | cmd w => exact encode_of_decodeCmd h
  | nh p => exact encode_of_decodeNh h

/-- Settles O1: what decodes to an instruction is its encoding, and every encoding decodes. -/
theorem decodeIsInverseOfEncode : Obligations.DecodeIsInverseOfEncode := by
  refine fun f i => ⟨fun h => (encode_of_decode h).symm, ?_⟩
  rintro rfl
  exact decode_encode i

/-- Settles O3: the ten legal words are encodings; the other two are refused by the opcode map and by the
reserved field. -/
theorem sampleWordsDecode : Obligations.SampleWordsDecode :=
  ⟨decode_encode .nop, decode_encode .packW0, decode_encode .setMf, decode_encode .decAh,
    decode_encode .encEsp, decode_encode .tlvScan, decode_encode .chainWalk, decode_encode .pktEnc,
    decode_encode .csumCompute, decode_encode .nhDst, rfl, rfl⟩

/-! ### Legal command words -/

/-- The opcode map is defined exactly outside R105's illegal ranges. -/
theorem decodeOpcode_isSome (opc : Byte) (rsv : BitVec 24) :
    (decodeOpcode opc).isSome = CmdWord.opcOk ⟨rsv, opc⟩ := by
  show _ = CmdWord.opcOk ⟨0, opc⟩
  revert opc; decide

/-- A legal command word is performed (R101). -/
theorem decodeCmd_of_wellFormed {w : Word} (h : (CmdWord.ofWord w).wellFormed = true) :
    ∃ i, decodeCmd w = .ok i := by
  obtain ⟨hr, ho⟩ := Bool.and_eq_true_iff.1 h
  rw [← decodeOpcode_isSome] at ho
  obtain ⟨i, hi⟩ := Option.isSome_iff_exists.1 ho
  refine ⟨i, ?_⟩
  simp only [decodeCmd]
  rw [if_neg (not_not.2 (beq_iff_eq.1 hr)), hi]

/-- Every other command word is refused (R105). -/
theorem decodeCmd_of_not_wellFormed {w : Word} (h : (CmdWord.ofWord w).wellFormed = false) :
    ∃ e, decodeCmd w = .error e := by
  simp only [decodeCmd]
  split_ifs with hr
  · exact ⟨_, rfl⟩
  · have ho : (CmdWord.ofWord w).opcOk = false := by
      simpa [CmdWord.wellFormed, CmdWord.rsvOk, not_not.1 hr] using h
    rw [← decodeOpcode_isSome, Option.isSome_eq_false_iff, Option.isNone_iff_eq_none] at ho
    exact ⟨_, by rw [ho]⟩

theorem rsvOk_ofWord (w : Word) : (CmdWord.ofWord w).rsvOk = true ↔ w.toNat / 256 = 0 := by
  have := w.isLt
  rw [CmdWord.rsvOk, beq_iff_eq, ← BitVec.toNat_inj, CmdWord.ofWord, ext_toNat]
  show w.toNat / 2 ^ 8 % 2 ^ 24 = 0 ↔ _
  omega

theorem opc_ofWord_toNat (w : Word) : (CmdWord.ofWord w).opc.toNat = w.toNat % 256 := by
  simp [CmdWord.ofWord]

/-- The opcode check of R105, by the word's number. -/
theorem opcOk_ofWord (w : Word) : (CmdWord.ofWord w).opcOk = true ↔
    let n := w.toNat % 256
    ¬ (n = 0x00 ∨ (0x03 ≤ n ∧ n ≤ 0x0F) ∨ (0x22 ≤ n ∧ n ≤ 0x2F) ∨ (0x36 ≤ n ∧ n ≤ 0x37) ∨
      (0x3E ≤ n ∧ n ≤ 0x3F) ∨ (0x41 ≤ n ∧ n ≤ 0x47) ∨ (0x49 ≤ n ∧ n ≤ 0x4F) ∨
      (0x54 ≤ n ∧ n ≤ 0x5F) ∨ (0x63 ≤ n ∧ n ≤ 0xFF)) := by
  simp only [CmdWord.opcOk, opc_ofWord_toNat, Bool.not_eq_true', ← Bool.not_eq_true, Bool.or_eq_true,
    Bool.and_eq_true, decide_eq_true_eq, beq_iff_eq, or_assoc]

/-! ### A step runs what it decodes -/

theorem fetch_cmd {s : State} {w : Word} (h : s.cmd = some w) : fetch s = some (.cmd w) := by
  rw [fetch, h]

theorem fetch_nh {s : State} {p : Byte} (hc : s.cmd = none) (hp : s.walker.cur = some p)
    (hk : nhOk p = true) : fetch s = some (.nh p) := by
  simp only [fetch, hc, hp, hk, if_true]

theorem afterFetch_of_cmd_none {s : State} (h : s.cmd = none) : afterFetch s = s := by
  rw [afterFetch, ← h]

theorem step_of_decode_ok {s : State} {f : Fetched} {i : Instr} (hf : fetch s = some f)
    (hd : decode f = .ok i) : step s = exec i (afterFetch s) := by
  simp only [step, hf, hd]

/-- A word with no instruction completes with IllegalCommand (R405). -/
theorem step_of_decode_error {s : State} {f : Fetched} {e : DecodeError} (hf : fetch s = some f)
    (hd : decode f = .error e) : step s = .next (faulted (afterFetch s) 0 2 0) := by
  simp only [step, hf, hd]
  exact complete_error _ .illegalCommand

theorem nhOk_of_decode {p : Byte} {i : Instr} (h : decode (.nh p) = .ok i) : nhOk p = true := by
  rw [nhOk_kindOf]
  cases hk : kindOf p with
  | some k => rfl
  | none => rw [decode, decodeNh_terminal hk] at h; cases h

/-- Settles O5: what `fetch` finds is decoded and run. -/
theorem stepRunsFetchedInstruction : Obligations.StepRunsFetchedInstruction := by
  refine ⟨fun s w i hc hd => step_of_decode_ok (fetch_cmd hc) hd, fun s p i hc hp hd => ?_⟩
  rw [step_of_decode_ok (fetch_nh hc hp (nhOk_of_decode hd)) hd, afterFetch_of_cmd_none hc]

/-- Settles O2: R105's ranges are the well-formedness check read by numbers, and the decoder refuses
exactly what fails it. -/
theorem illegalCommandWords : Obligations.IllegalCommandWords := by
  intro s w hc n illegal
  have hlegal : (CmdWord.ofWord w).wellFormed = true ↔ ¬ illegal := by
    rw [CmdWord.wellFormed, Bool.and_eq_true, rsvOk_ofWord, opcOk_ofWord, ← not_ne_iff, ← not_or]
  refine ⟨fun h => ?_, fun h => ?_⟩
  · obtain ⟨e, he⟩ := decodeCmd_of_not_wellFormed (Bool.eq_false_iff.2 fun hw => hlegal.1 hw h)
    exact step_of_decode_error (fetch_cmd hc) he
  · obtain ⟨i, hi⟩ := decodeCmd_of_wellFormed (hlegal.2 h)
    exact ⟨i, hi, step_of_decode_ok (fetch_cmd hc) hi⟩

/-! ### The next-header rows -/

theorem dispatch_of_decInto_ok {k : Kind} {w : Walker} {ss : Slots} {nx : Option Byte} {l : Nat}
    (h : decInto k w.slots (w.buf.drop w.pos) (w.off + w.pos) = .ok (ss, nx, l)) :
    w.dispatch k =
      .ok { w with slots := ss, chain := w.chain ++ [idOf k], pos := w.pos + l, cur := nx } := by
  rw [Walker.dispatch, h]; rfl

theorem dispatch_of_decInto_error {k : Kind} {w : Walker} {t : Trap}
    (h : decInto k w.slots (w.buf.drop w.pos) (w.off + w.pos) = .error t) :
    w.dispatch k = .error t := by
  rw [Walker.dispatch, h]; rfl

/-- A header's MalformedHeader in the words of the claims (R404). -/
theorem raise_badHeader (s : State) (k : Kind) (o : Nat) :
    s.raise (badHeader k o) = faulted s (kindIndex k + 2) 1 o := by
  rw [raise_eq_faulted]
  cases k <;> rfl

/-- Settles O41: each row is one dispatch of the walker, whose outcome is its decoder's. -/
theorem nextHeaderRowsResult : Obligations.NextHeaderRowsResult := by
  intro s k i b at'
  have hx : exec i s = nhDispatch k s := by cases k <;> rfl
  rw [hx]
  refine ⟨fun ss nx l h => nhDispatch_ok (dispatch_of_decInto_ok h), fun t h => ?_⟩
  rw [nhDispatch_error (dispatch_of_decInto_error h), decInto_error h, raise_badHeader]

end Sys2Proof.Machine
end

section
/-! PROOFS. The family 41_bitfield.md: the packed words, their fields and their setters by numbers
(R150 to R157), and the commands that read and write them (R158, R160 to R177). -/

namespace Sys2Proof.Machine

/-! ### The fields of a word, by numbers (R151, R153, R155) -/

@[simp] theorem w0Ver_toNat (w : Word) : (w0Ver w).toNat = w.toNat / 2 ^ 28 := by
  rw [w0Ver, ext_toNat]; omega

@[simp] theorem w0Tc_toNat (w : Word) : (w0Tc w).toNat = w.toNat / 2 ^ 20 % 2 ^ 8 := ext_toNat w 20 8

@[simp] theorem w0Flow_toNat (w : Word) : (w0Flow w).toNat = w.toNat % 2 ^ 20 := by
  rw [w0Flow, ext_toNat]; omega

@[simp] theorem fragOff_toNat (w : Half) : (fragOff w).toNat = w.toNat / 2 ^ 3 := by
  rw [fragOff, ext_toNat]; omega

@[simp] theorem fragRsvd2_toNat (w : Half) : (fragRsvd2 w).toNat = w.toNat / 2 % 2 ^ 2 := ext_toNat w 1 2

@[simp] theorem fragMf_toNat (w : Half) : (fragMf w).toNat = w.toNat % 2 := by
  rw [fragMf, ext_toNat]; omega

@[simp] theorem rtRsvd_toNat (w : Word) : (rtRsvd w).toNat = w.toNat / 2 ^ 24 := by
  rw [rtRsvd, ext_toNat]; omega

@[simp] theorem rtBits_toNat (w : Word) : (rtBits w).toNat = w.toNat % 2 ^ 24 := by
  rw [rtBits, ext_toNat]; omega

/-! ### The packed words, by numbers (R150, R152, R154): the sum of the fields never wraps around -/

@[simp] theorem packW0_toNat (v c f : Word) : (packW0 v c f).toNat =
    2 ^ 28 * (v.toNat % 2 ^ 4) + 2 ^ 20 * (c.toNat % 2 ^ 8) + f.toNat % 2 ^ 20 := by
  rw [packW0, BitVec.toNat_ofNat, mask, mask, mask]; omega

@[simp] theorem packFrag_toNat (o r m : Word) : (packFrag o r m).toNat =
    2 ^ 3 * (o.toNat % 2 ^ 13) + 2 * (r.toNat % 2 ^ 2) + m.toNat % 2 := by
  rw [packFrag, BitVec.toNat_ofNat, mask, mask, mask]; omega

@[simp] theorem packRt_toNat (r b : Word) : (packRt r b).toNat =
    2 ^ 24 * (r.toNat % 2 ^ 8) + b.toNat % 2 ^ 24 := by
  rw [packRt, BitVec.toNat_ofNat, mask, mask]; omega

/-! ### The words set, by numbers (R165 to R167, R172, R173, R177) -/

@[simp] theorem setVer_toNat (w v : Word) : (setVer w v).toNat =
    2 ^ 28 * (v.toNat % 2 ^ 4) + w.toNat % 2 ^ 28 := by
  rw [setVer, BitVec.toNat_ofNat, ext_toNat, mask]; omega

@[simp] theorem setTc_toNat (w c : Word) : (setTc w c).toNat =
    2 ^ 28 * (w.toNat / 2 ^ 28) + 2 ^ 20 * (c.toNat % 2 ^ 8) + w.toNat % 2 ^ 20 := by
  rw [setTc, BitVec.toNat_ofNat, w0Ver_toNat, w0Flow_toNat, mask]; omega

@[simp] theorem setFlow_toNat (w f : Word) : (setFlow w f).toNat =
    2 ^ 20 * (w.toNat / 2 ^ 20) + f.toNat % 2 ^ 20 := by
  rw [setFlow, BitVec.toNat_ofNat, ext_toNat, mask]; omega

@[simp] theorem setFoff_toNat (w : Half) (o : Word) : (setFoff w o).toNat =
    2 ^ 3 * (o.toNat % 2 ^ 13) + w.toNat % 2 ^ 3 := by
  rw [setFoff, BitVec.toNat_ofNat, ext_toNat, mask]; omega

@[simp] theorem setMf_toNat (w : Half) (m : Word) : (setMf w m).toNat =
    2 * (w.toNat / 2) + m.toNat % 2 := by
  rw [setMf, BitVec.toNat_ofNat, ext_toNat, mask]; omega

@[simp] theorem setBits_toNat (w b : Word) : (setBits w b).toNat =
    2 ^ 24 * (w.toNat / 2 ^ 24) + b.toNat % 2 ^ 24 := by
  rw [setBits, BitVec.toNat_ofNat, rtRsvd_toNat, mask]; omega

/-! ### Unpack after pack masks, pack after unpack gives the word back (R156) -/

@[simp] theorem w0Ver_packW0 (v c f : Word) : w0Ver (packW0 v c f) = v.setWidth 4 := by
  rw [← BitVec.toNat_inj, w0Ver_toNat, packW0_toNat, BitVec.toNat_setWidth]; omega

@[simp] theorem w0Tc_packW0 (v c f : Word) : w0Tc (packW0 v c f) = c.setWidth 8 := by
  rw [← BitVec.toNat_inj, w0Tc_toNat, packW0_toNat, BitVec.toNat_setWidth]; omega

@[simp] theorem w0Flow_packW0 (v c f : Word) : w0Flow (packW0 v c f) = f.setWidth 20 := by
  rw [← BitVec.toNat_inj, w0Flow_toNat, packW0_toNat, BitVec.toNat_setWidth]; omega

/-- A word with the masked operands as its fields is their packed word. -/
theorem eq_packW0 {w v c f : Word} (hv : w0Ver w = v.setWidth 4) (hc : w0Tc w = c.setWidth 8)
    (hf : w0Flow w = f.setWidth 20) : w = packW0 v c f := by
  rw [← BitVec.toNat_inj, w0Ver_toNat, BitVec.toNat_setWidth] at hv
  rw [← BitVec.toNat_inj, w0Tc_toNat, BitVec.toNat_setWidth] at hc
  rw [← BitVec.toNat_inj, w0Flow_toNat, BitVec.toNat_setWidth] at hf
  rw [← BitVec.toNat_inj, packW0_toNat]; omega

@[simp] theorem fragOff_packFrag (o r m : Word) : fragOff (packFrag o r m) = o.setWidth 13 := by
  rw [← BitVec.toNat_inj, fragOff_toNat, packFrag_toNat, BitVec.toNat_setWidth]; omega

@[simp] theorem fragRsvd2_packFrag (o r m : Word) : fragRsvd2 (packFrag o r m) = r.setWidth 2 := by
  rw [← BitVec.toNat_inj, fragRsvd2_toNat, packFrag_toNat, BitVec.toNat_setWidth]; omega

@[simp] theorem fragMf_packFrag (o r m : Word) : fragMf (packFrag o r m) = m.setWidth 1 := by
  rw [← BitVec.toNat_inj, fragMf_toNat, packFrag_toNat, BitVec.toNat_setWidth]; omega

theorem packFrag_fields (w : Half) :
    packFrag ((fragOff w).setWidth 32) ((fragRsvd2 w).setWidth 32) ((fragMf w).setWidth 32) = w := by
  simp only [← BitVec.toNat_inj, packFrag_toNat, BitVec.toNat_setWidth, fragOff_toNat, fragRsvd2_toNat,
    fragMf_toNat]
  omega

@[simp] theorem rtRsvd_packRt (r b : Word) : rtRsvd (packRt r b) = r.setWidth 8 := by
  rw [← BitVec.toNat_inj, rtRsvd_toNat, packRt_toNat, BitVec.toNat_setWidth]; omega

@[simp] theorem rtBits_packRt (r b : Word) : rtBits (packRt r b) = b.setWidth 24 := by
  rw [← BitVec.toNat_inj, rtBits_toNat, packRt_toNat, BitVec.toNat_setWidth]; omega

theorem packRt_fields (w : Word) : packRt ((rtRsvd w).setWidth 32) ((rtBits w).setWidth 32) = w := by
  simp only [← BitVec.toNat_inj, packRt_toNat, BitVec.toNat_setWidth, rtRsvd_toNat, rtBits_toNat]
  omega

/-- Settles O27: each word's fields and its sum are inverse as numbers. -/
theorem packUnpackInverse : Obligations.PackUnpackInverse :=
  ⟨fun v c f => ⟨w0Ver_packW0 v c f, w0Tc_packW0 v c f, w0Flow_packW0 v c f⟩,
    fun _ => (eq_packW0 (by simp) (by simp) (by simp)).symm,
    fun o r m => ⟨fragOff_packFrag o r m, fragRsvd2_packFrag o r m, fragMf_packFrag o r m⟩,
    packFrag_fields, fun r b => ⟨rtRsvd_packRt r b, rtBits_packRt r b⟩, packRt_fields⟩

/-! ### A setter keeps the bits outside its field (R157) -/

section Bits
variable {n k i : Nat} {x y : BitVec n}

theorem getLsbD_eq_of_mod_eq (h : x.toNat % 2 ^ k = y.toNat % 2 ^ k) (hi : i < k) :
    x.getLsbD i = y.getLsbD i := by
  simpa [BitVec.getLsbD, hi] using congrArg (Nat.testBit · i) h

theorem getLsbD_eq_of_div_eq (h : x.toNat / 2 ^ k = y.toNat / 2 ^ k) (hi : k ≤ i) :
    x.getLsbD i = y.getLsbD i := by
  simpa [BitVec.getLsbD, Nat.testBit_div_two_pow, hi] using congrArg (Nat.testBit · (i - k)) h

theorem extractLsb'_eq_of_getLsbD_eq {a l : Nat} (h : ∀ i < l, x.getLsbD (a + i) = y.getLsbD (a + i)) :
    x.extractLsb' a l = y.extractLsb' a l := by
  ext i hi
  simpa [hi] using h i hi

end Bits

theorem setVer_getLsbD (w v : Word) {i : Nat} (h : i < 28) : (setVer w v).getLsbD i = w.getLsbD i :=
  getLsbD_eq_of_mod_eq (by rw [setVer_toNat]; omega) h

theorem setTc_getLsbD (w c : Word) {i : Nat} (h : i < 20 ∨ 28 ≤ i) :
    (setTc w c).getLsbD i = w.getLsbD i := by
  rcases h with hlow | hhigh
  · exact getLsbD_eq_of_mod_eq (by rw [setTc_toNat]; omega) hlow
  · exact getLsbD_eq_of_div_eq (by rw [setTc_toNat]; omega) hhigh

theorem setFlow_getLsbD (w f : Word) {i : Nat} (h : 20 ≤ i) : (setFlow w f).getLsbD i = w.getLsbD i :=
  getLsbD_eq_of_div_eq (by rw [setFlow_toNat]; omega) h

theorem setFoff_getLsbD (w : Half) (o : Word) {i : Nat} (h : i < 3) :
    (setFoff w o).getLsbD i = w.getLsbD i :=
  getLsbD_eq_of_mod_eq (by rw [setFoff_toNat]; omega) h

theorem setMf_getLsbD (w : Half) (m : Word) {i : Nat} (h : 1 ≤ i) :
    (setMf w m).getLsbD i = w.getLsbD i :=
  getLsbD_eq_of_div_eq (by rw [setMf_toNat]; omega) h

theorem setBits_getLsbD (w b : Word) {i : Nat} (h : 24 ≤ i) : (setBits w b).getLsbD i = w.getLsbD i :=
  getLsbD_eq_of_div_eq (by rw [setBits_toNat]; omega) h

/-! ### A setter's own field is the masked operand (R157) -/

@[simp] theorem w0Ver_setVer (w v : Word) : w0Ver (setVer w v) = v.setWidth 4 := by
  rw [← BitVec.toNat_inj, w0Ver_toNat, setVer_toNat, BitVec.toNat_setWidth]; omega

@[simp] theorem w0Tc_setTc (w c : Word) : w0Tc (setTc w c) = c.setWidth 8 := by
  rw [← BitVec.toNat_inj, w0Tc_toNat, setTc_toNat, BitVec.toNat_setWidth]; omega

@[simp] theorem w0Flow_setFlow (w f : Word) : w0Flow (setFlow w f) = f.setWidth 20 := by
  rw [← BitVec.toNat_inj, w0Flow_toNat, setFlow_toNat, BitVec.toNat_setWidth]; omega

@[simp] theorem fragOff_setFoff (w : Half) (o : Word) : fragOff (setFoff w o) = o.setWidth 13 := by
  rw [← BitVec.toNat_inj, fragOff_toNat, setFoff_toNat, BitVec.toNat_setWidth]; omega

@[simp] theorem fragMf_setMf (w : Half) (m : Word) : fragMf (setMf w m) = m.setWidth 1 := by
  rw [← BitVec.toNat_inj, fragMf_toNat, setMf_toNat, BitVec.toNat_setWidth]; omega

@[simp] theorem rtBits_setBits (w b : Word) : rtBits (setBits w b) = b.setWidth 24 := by
  rw [← BitVec.toNat_inj, rtBits_toNat, setBits_toNat, BitVec.toNat_setWidth]; omega

/-! ### A W0 setter keeps the other two fields: they lie in the bits it keeps -/

@[simp] theorem w0Tc_setVer (w v : Word) : w0Tc (setVer w v) = w0Tc w :=
  extractLsb'_eq_of_getLsbD_eq fun _ _ => setVer_getLsbD w v (by omega)

@[simp] theorem w0Flow_setVer (w v : Word) : w0Flow (setVer w v) = w0Flow w :=
  extractLsb'_eq_of_getLsbD_eq fun _ _ => setVer_getLsbD w v (by omega)

@[simp] theorem w0Ver_setTc (w c : Word) : w0Ver (setTc w c) = w0Ver w :=
  extractLsb'_eq_of_getLsbD_eq fun _ _ => setTc_getLsbD w c (by omega)

@[simp] theorem w0Flow_setTc (w c : Word) : w0Flow (setTc w c) = w0Flow w :=
  extractLsb'_eq_of_getLsbD_eq fun _ _ => setTc_getLsbD w c (by omega)

@[simp] theorem w0Ver_setFlow (w f : Word) : w0Ver (setFlow w f) = w0Ver w :=
  extractLsb'_eq_of_getLsbD_eq fun _ _ => setFlow_getLsbD w f (by omega)

@[simp] theorem w0Tc_setFlow (w f : Word) : w0Tc (setFlow w f) = w0Tc w :=
  extractLsb'_eq_of_getLsbD_eq fun _ _ => setFlow_getLsbD w f (by omega)

/-- Settles O28: a setter keeps the bits outside its field, so after all three W0 setters, in any order,
each field is its own setter's operand. -/
theorem settersIsolateFields : Obligations.SettersIsolateFields := by
  refine ⟨fun w v _ => setVer_getLsbD w v, w0Ver_setVer, fun w c _ => setTc_getLsbD w c, w0Tc_setTc,
    fun w f _ => setFlow_getLsbD w f, w0Flow_setFlow, fun w o _ => setFoff_getLsbD w o, fragOff_setFoff,
    fun w m _ => setMf_getLsbD w m, fragMf_setMf, fun w b _ => setBits_getLsbD w b, rtBits_setBits,
    fun w v c f => ?_⟩
  and_intros <;> exact eq_packW0 (by simp) (by simp) (by simp)

/-! ### The commands -/

/-- A command of this family completes with its own writes and no flag (R158). -/
theorem bitfieldDone_eq {s t : State} (h : t.status = s.status) :
    bitfieldDone s t = .next (completed s t 0) :=
  complete_ok s t {} h

/-- Settles O23: RES0 is the packed word, read as a number. -/
theorem packCommandsResult : Obligations.PackCommandsResult := by
  refine ⟨rfl, rfl, rfl, fun s => ?_⟩
  simp only [← packW0_toNat, ← packFrag_toNat, ← packRt_toNat, BitVec.ofNat_toNat, BitVec.setWidth_eq]
  exact ⟨bitfieldDone_eq rfl, bitfieldDone_eq rfl, bitfieldDone_eq rfl⟩

/-! ### The fragment word in ARG0: UNPACK_FRAG uses the low half alone (R169) -/

theorem fragOff_lowHalf_toNat (w : Word) : (fragOff (lowHalf w)).toNat = w.toNat % 2 ^ 16 / 2 ^ 3 := by
  rw [fragOff_toNat, lowHalf_eq, BitVec.toNat_ofNat]

theorem fragRsvd2_lowHalf_toNat (w : Word) : (fragRsvd2 (lowHalf w)).toNat = w.toNat / 2 % 2 ^ 2 := by
  rw [fragRsvd2_toNat, lowHalf_eq, BitVec.toNat_ofNat]; omega

theorem fragMf_lowHalf_toNat (w : Word) : (fragMf (lowHalf w)).toNat = w.toNat % 2 := by
  rw [fragMf_toNat, lowHalf_eq, BitVec.toNat_ofNat]; omega

/-- Settles O24: the RES registers are the fields of ARG0, read as numbers. -/
theorem unpackCommandsResult : Obligations.UnpackCommandsResult := by
  refine ⟨rfl, rfl, rfl, fun s => ?_⟩
  simp only [← w0Ver_toNat, ← w0Tc_toNat, ← w0Flow_toNat, ← fragOff_lowHalf_toNat,
    ← fragRsvd2_lowHalf_toNat, ← fragMf_lowHalf_toNat, ← rtRsvd_toNat, ← rtBits_toNat,
    BitVec.ofNat_toNat]
  exact ⟨bitfieldDone_eq rfl, bitfieldDone_eq rfl, bitfieldDone_eq rfl⟩

/-- Settles O25: RES0 is the field, read as a number; the slot's valid bit is not looked at. -/
theorem getCommandsResult : Obligations.GetCommandsResult := by
  refine ⟨rfl, rfl, rfl, rfl, rfl, rfl, fun s => ?_⟩
  simp only [← w0Ver_toNat, ← w0Tc_toNat, ← w0Flow_toNat, ← fragOff_toNat, ← fragMf_toNat,
    ← rtBits_toNat, BitVec.ofNat_toNat]
  exact ⟨bitfieldDone_eq rfl, bitfieldDone_eq rfl, bitfieldDone_eq rfl, bitfieldDone_eq rfl,
    bitfieldDone_eq rfl, bitfieldDone_eq rfl⟩

/-- Settles O26: the word written is the setter's, read as a number. -/
theorem setCommandsResult : Obligations.SetCommandsResult := by
  refine ⟨rfl, rfl, rfl, rfl, rfl, rfl, fun s => ?_⟩
  simp only [← setVer_toNat, ← setTc_toNat, ← setFlow_toNat, ← setFoff_toNat, ← setMf_toNat,
    ← setBits_toNat, BitVec.ofNat_toNat, BitVec.setWidth_eq]
  exact ⟨bitfieldDone_eq rfl, bitfieldDone_eq rfl, bitfieldDone_eq rfl, bitfieldDone_eq rfl,
    bitfieldDone_eq rfl, bitfieldDone_eq rfl⟩

end Sys2Proof.Machine
end

section
/-! PROOFS. The family 42_ext_headers.md: what a decoder that returns has found (R201 to R205), that its
encoder gives the consumed bytes back (R212), that a consistent slot decodes back from its encoding
(R214), and the twelve commands (R220 to R231). -/

namespace Sys2Proof.Machine

/-! ### Slices and addresses inside a longer sequence -/

/-- A slice that is the middle of three parts. -/
theorem slice_middle (x y z : Bytes) {i j : Nat} (hi : x.length = i) (hj : x.length + y.length = j) :
    slice (x ++ y ++ z) i j = y := by
  subst hi hj
  simp [slice]

theorem addrsOf_succ (b : Bytes) (m : Nat) : addrsOf b (m + 1) = addrsOf b m ++ [addrAt b (8 + 16 * m)] := by
  simp [addrsOf, List.range_succ]

/-- The addresses a Routing decoder reads are the bytes they stand in (R202). -/
theorem addrsOf_flatten {b : Bytes} {m : Nat} (h : 8 + 16 * m ≤ b.length) :
    ((addrsOf b m).map Subtype.val).flatten = slice b 8 (8 + 16 * m) := by
  induction m with
  | zero => rw [Nat.mul_zero, slice_self]; rfl
  | succ m ih =>
    rw [addrsOf_succ, List.map_append, List.flatten_append, ih (by omega), List.map_singleton,
      List.flatten_singleton, addrAt_val (by omega)]
    exact slice_append (by omega) (by omega)

theorem addrs_flatten_length (as : List Bytes16) :
    (as.map Subtype.val).flatten.length = 16 * as.length := by
  induction as with
  | nil => rfl
  | cons a as ih =>
    rw [List.map_cons, List.flatten_cons, List.length_append, a.property, ih, List.length_cons]; omega

/-- Addresses written one after the other are read back, wherever they stand. -/
theorem map_addrAt_flatten (as : List Bytes16) (x y : Bytes) :
    (List.range as.length).map
      (fun i => addrAt (x ++ (as.map Subtype.val).flatten ++ y) (x.length + 16 * i)) = as := by
  induction as generalizing x with
  | nil => rfl
  | cons a as ih =>
    have hrest := ih (x ++ a.val)
    have ha : (x ++ a.val).length = x.length + 16 := by simp [a.property]
    rw [ha] at hrest
    rw [List.length_cons, List.range_succ_eq_map, List.map_cons, List.map_map]
    congr 1
    · simpa using addrAt_eq a x ((as.map Subtype.val).flatten ++ y) x.length rfl
    · simpa [Function.comp_def, Nat.mul_add, Nat.add_assoc, Nat.add_comm 16] using hrest

theorem addrsOf_append (as : List Bytes16) {x : Bytes} (y : Bytes) (hx : x.length = 8) :
    addrsOf (x ++ (as.map Subtype.val).flatten ++ y) as.length = as := by
  rw [addrsOf, ← hx]
  exact map_addrAt_flatten as x y

/-! ### What a decoder that returns has found (R201 to R205)

The minimum each decoder asks for first follows from the length it computes then. -/

section Found
variable {b : Bytes} {o l : Nat}

theorem decOpts_ok_iff {k : Kind} {h : OptSlot} : decOpts k b o = .ok (h, l) ↔
    l = ((byteAt b 1).toNat + 1) * 8 ∧ l ≤ b.length ∧ tlvScan (slice b 2 l) = .ok h.opts ∧
      h = ⟨true, byteAt b 0, byteAt b 1, slice b 2 l, h.opts⟩ := by
  rw [decOpts_eq]
  constructor
  · intro hd
    split_ifs at hd with hc
    split at hd
    · cases hd; exact ⟨rfl, hc.2, ‹_›, rfl⟩
    · cases hd
  · rintro ⟨rfl, hl, hs, hh⟩
    rw [if_pos ⟨by omega, hl⟩, hs, hh]

theorem decRt_ok_iff {h : RtSlot} : decRt b o = .ok (h, l) ↔
    l = (byteAt b 1).toNat * 8 + 8 ∧ l ≤ b.length ∧
      h = ⟨true, byteAt b 0, byteAt b 1, byteAt b 2, byteAt b 3, rd32 b 4,
        addrsOf b ((byteAt b 1).toNat / 2), slice b (8 + 16 * ((byteAt b 1).toNat / 2)) l⟩ := by
  rw [decRt_eq]
  constructor
  · intro hd
    split_ifs at hd with hc
    cases hd; exact ⟨rfl, hc.2, rfl⟩
  · rintro ⟨rfl, hl, rfl⟩
    rw [if_pos ⟨by omega, hl⟩]

theorem decFrag_ok_iff {h : FragSlot} : decFrag b o = .ok (h, l) ↔
    l = 8 ∧ l ≤ b.length ∧ h = ⟨true, byteAt b 0, byteAt b 1, rd16 b 2, rd32 b 4⟩ := by
  rw [decFrag_eq]
  constructor
  · intro hd
    split_ifs at hd with hc
    cases hd; exact ⟨rfl, hc, rfl⟩
  · rintro ⟨rfl, hl, rfl⟩
    rw [if_pos hl]

theorem decAh_ok_iff {h : AhSlot} : decAh b o = .ok (h, l) ↔
    byteAt b 1 ≠ 0 ∧ l = ((byteAt b 1).toNat + 2) * 4 ∧ l ≤ b.length ∧
      h = ⟨true, byteAt b 0, byteAt b 1, rd16 b 2, rd32 b 4, rd32 b 8, slice b 12 l⟩ := by
  rw [decAh_eq]
  constructor
  · intro hd
    split_ifs at hd with hc
    cases hd; exact ⟨hc.2.1, rfl, hc.2.2, rfl⟩
  · rintro ⟨hp, rfl, hl, rfl⟩
    rw [if_pos ⟨by omega, hp, hl⟩]

theorem decEsp_ok_iff {h : EspSlot} : decEsp b o = .ok (h, l) ↔
    l = b.length ∧ 8 ≤ l ∧ h = ⟨true, rd32 b 0, rd32 b 4, slice b 8 l⟩ := by
  rw [decEsp_eq]
  constructor
  · intro hd
    split_ifs at hd with hc
    cases hd; exact ⟨rfl, hc, rfl⟩
  · rintro ⟨rfl, hl, rfl⟩
    rw [if_pos hl]

end Found

/-! ### The consumption law (R212) -/

/-- What a header that decodes from `b` with length `l` leaves: a valid slot, whose encoding `e` is the
consumed bytes and whose `byte_length` (R213) is their number. -/
structure Consumed (b e : Bytes) (valid : Bool) (blen l : Nat) : Prop where
  valid : valid = true
  eight_le : 8 ≤ l
  le_length : l ≤ b.length
  enc : e = b.take l
  blen : blen = l

section Consumed
variable {b e : Bytes} {v : Bool} {n o l : Nat}

theorem Consumed.length (c : Consumed b e v n l) : e.length = l := by
  rw [c.enc, List.length_take, Nat.min_eq_left c.le_length]

theorem Consumed.law (c : Consumed b e v n l) : 8 ≤ l ∧ l ≤ b.length ∧ e.length = l ∧ e = b.take l :=
  ⟨c.eight_le, c.le_length, c.length, c.enc⟩

/-- What an encode command emits for the slot, and the `byte_length` it gives (R226 to R231). -/
theorem Consumed.slot (c : Consumed b e v n l) : (if v then e else []) = b.take l ∧ n = l :=
  ⟨(if_pos c.valid).trans c.enc, c.blen⟩

theorem byteAt_toNat_pos {i : Nat} (h : byteAt b i ≠ 0) : 1 ≤ (byteAt b i).toNat :=
  Nat.pos_of_ne_zero fun e => h (BitVec.eq_of_toNat_eq e)

theorem decOpts_consumed {k : Kind} {h : OptSlot} (hd : decOpts k b o = .ok (h, l)) :
    Consumed b (encOpts h) h.valid (blenOpts h) l := by
  obtain ⟨hl, hb, -, hh⟩ := decOpts_ok_iff.1 hd
  rw [hh]
  refine ⟨rfl, by omega, hb, ?_, hl.symm⟩
  rw [encOpts, head2 (by omega), slice_append (by omega) (by omega), slice_zero]

theorem decRt_consumed {h : RtSlot} (hd : decRt b o = .ok (h, l)) :
    Consumed b (encRt h) h.valid (blenRt h) l := by
  obtain ⟨hl, hb, rfl⟩ := decRt_ok_iff.1 hd
  refine ⟨rfl, by omega, hb, ?_, hl.symm⟩
  rw [encRt, head4 (by omega), be32_rd32_slice (by omega), addrsOf_flatten (by omega),
    slice_append (by omega) (by omega), slice_append (by omega) (by omega),
    slice_append (by omega) (by omega), slice_zero]

theorem decFrag_consumed {h : FragSlot} (hd : decFrag b o = .ok (h, l)) :
    Consumed b (encFrag h) h.valid (blenFrag h) l := by
  obtain ⟨hl, hb, rfl⟩ := decFrag_ok_iff.1 hd
  refine ⟨rfl, by omega, hb, ?_, hl.symm⟩
  rw [encFrag, head2 (by omega), be16_rd16_slice (by omega), be32_rd32_slice (by omega),
    slice_append (by omega) (by omega), slice_append (by omega) (by omega), slice_zero, hl]

theorem decAh_consumed {h : AhSlot} (hd : decAh b o = .ok (h, l)) :
    Consumed b (encAh h) h.valid (blenAh h) l := by
  obtain ⟨hp, hl, hb, rfl⟩ := decAh_ok_iff.1 hd
  have hp := byteAt_toNat_pos hp
  refine ⟨rfl, by omega, hb, ?_, hl.symm⟩
  rw [encAh, head2 (by omega), be16_rd16_slice (by omega), be32_rd32_slice (by omega),
    be32_rd32_slice (by omega), slice_append (by omega) (by omega), slice_append (by omega) (by omega),
    slice_append (by omega) (by omega), slice_append (by omega) (by omega), slice_zero]

theorem decEsp_consumed {h : EspSlot} (hd : decEsp b o = .ok (h, l)) :
    Consumed b (encEsp h) h.valid (blenEsp h) l := by
  obtain ⟨hl, hb, rfl⟩ := decEsp_ok_iff.1 hd
  refine ⟨rfl, hb, hl.le, ?_, ?_⟩
  · rw [encEsp, be32_rd32_slice (by omega), be32_rd32_slice (by omega),
      slice_append (by omega) (by omega), slice_append (by omega) (by omega), slice_zero]
  · rw [blenEsp, slice_length hl.le, Nat.add_sub_cancel' hb]

end Consumed

/-- Settles O36: the parts a decoder reads are slices that join to the consumed bytes. -/
theorem consumptionLaw : Obligations.ConsumptionLaw := by
  intro b o
  exact ⟨fun _ _ _ hd => (decOpts_consumed hd).law, fun _ _ hd => (decRt_consumed hd).law,
    fun _ _ hd => (decFrag_consumed hd).law, fun _ _ hd => (decAh_consumed hd).law,
    fun _ _ hd => (decEsp_consumed hd).law⟩

/-- The consumption law for the slot a header is decoded into. -/
theorem decInto_consumed {k : Kind} {ss ss' : Slots} {b : Bytes} {o l : Nat} {nx : Option Byte}
    (hd : decInto k ss b o = .ok (ss', nx, l)) :
    encSlot k ss' = b.take l ∧ blenSlot k ss' = l := by
  cases k <;> obtain ⟨⟨h, m⟩, hx, hd⟩ := except_ok_bind hd <;> cases hd
  case hop => exact (decOpts_consumed hx).slot
  case rt => exact (decRt_consumed hx).slot
  case frag => exact (decFrag_consumed hx).slot
  case ah => exact (decAh_consumed hx).slot
  case esp => exact (decEsp_consumed hx).slot
  case dst => exact (decOpts_consumed hx).slot

/-- Settles O42: the frame and the fault of `decInto`, with the consumption law. -/
theorem dispatchTouchesOneSlot : Obligations.DispatchTouchesOneSlot := by
  intro k ss b o
  refine ⟨fun ss' nx l hd => ?_, fun t hd => decInto_error hd⟩
  obtain ⟨h8, hl, hnx, -, hframe⟩ := decInto_ok hd
  obtain ⟨henc, hblen⟩ := decInto_consumed hd
  exact ⟨h8, hl, hnx, henc, hblen, hframe⟩

/-! ### The decode commands (R220 to R225), from the bytes of IBUF -/

section DecodeCommands
variable {s : State}

theorem decOpts_ibuf {k : Kind} {n : Nat} {opts : List OptRec} (o p : Nat)
    (hn : ((s.ibufByte (o + 1)).toNat + 1) * 8 ≤ n)
    (hs : tlvScan (s.ibufBytes (o + 2) (((s.ibufByte (o + 1)).toNat + 1) * 8 - 2)) = .ok opts) :
    decOpts k (s.ibufBytes o n) p = .ok (⟨true, s.ibufByte o, s.ibufByte (o + 1),
      s.ibufBytes (o + 2) (((s.ibufByte (o + 1)).toNat + 1) * 8 - 2), opts⟩,
      ((s.ibufByte (o + 1)).toNat + 1) * 8) := by
  rw [decOpts_ok_iff, ibufBytes_length, byteAt_ibuf _ _ _ _ (by omega), byteAt_ibuf _ _ _ _ (by omega),
    slice_ibuf _ _ _ _ _ hn]
  exact ⟨rfl, hn, hs, rfl⟩

theorem decRt_ibuf {n : Nat} (o p : Nat) (hn : (s.ibufByte (o + 1)).toNat * 8 + 8 ≤ n) :
    decRt (s.ibufBytes o n) p = .ok (⟨true, s.ibufByte o, s.ibufByte (o + 1), s.ibufByte (o + 2),
      s.ibufByte (o + 3), ibufWord32 s (o + 4),
      (List.range ((s.ibufByte (o + 1)).toNat / 2)).map (fun i => ibufAddr s (o + 8 + 16 * i)),
      s.ibufBytes (o + 8 + 16 * ((s.ibufByte (o + 1)).toNat / 2))
        (8 * ((s.ibufByte (o + 1)).toNat % 2))⟩, (s.ibufByte (o + 1)).toNat * 8 + 8) := by
  have haddrs : addrsOf (s.ibufBytes o n) ((s.ibufByte (o + 1)).toNat / 2) =
      (List.range ((s.ibufByte (o + 1)).toNat / 2)).map (fun i => ibufAddr s (o + 8 + 16 * i)) := by
    refine List.map_congr_left fun i hi => ?_
    have := List.mem_range.1 hi
    rw [addrAt_ibuf _ _ _ _ (by omega), Nat.add_assoc]
  have hresid : (s.ibufByte (o + 1)).toNat * 8 + 8 - (8 + 16 * ((s.ibufByte (o + 1)).toNat / 2)) =
      8 * ((s.ibufByte (o + 1)).toNat % 2) := by omega
  rw [decRt_ok_iff, ibufBytes_length]
  simp (disch := omega) only [byteAt_ibuf, rd32_ibuf, slice_ibuf, haddrs, hresid, ← Nat.add_assoc o,
    true_and]
  exact ⟨hn, rfl⟩

theorem decFrag_ibuf {n : Nat} (o p : Nat) (hn : 8 ≤ n) :
    decFrag (s.ibufBytes o n) p =
      .ok (⟨true, s.ibufByte o, s.ibufByte (o + 1), ibufWord16 s (o + 2), ibufWord32 s (o + 4)⟩, 8) := by
  rw [decFrag_ok_iff, ibufBytes_length]
  simp (disch := omega) only [byteAt_ibuf, rd16_ibuf, rd32_ibuf, true_and]
  exact ⟨hn, rfl⟩

theorem decAh_ibuf {n : Nat} (o p : Nat) (hp : s.ibufByte (o + 1) ≠ 0)
    (hn : ((s.ibufByte (o + 1)).toNat + 2) * 4 ≤ n) :
    decAh (s.ibufBytes o n) p = .ok (⟨true, s.ibufByte o, s.ibufByte (o + 1), ibufWord16 s (o + 2),
      ibufWord32 s (o + 4), ibufWord32 s (o + 8),
      s.ibufBytes (o + 12) (((s.ibufByte (o + 1)).toNat - 1) * 4)⟩,
      ((s.ibufByte (o + 1)).toNat + 2) * 4) := by
  have hpos : (s.ibufByte (o + 1)).toNat ≠ 0 := fun e => hp (BitVec.eq_of_toNat_eq e)
  have hauth : ((s.ibufByte (o + 1)).toNat + 2) * 4 - 12 = ((s.ibufByte (o + 1)).toNat - 1) * 4 := by
    omega
  rw [decAh_ok_iff, ibufBytes_length]
  simp (disch := omega) only [byteAt_ibuf, rd16_ibuf, rd32_ibuf, slice_ibuf, hauth, true_and]
  exact ⟨hp, hn, rfl⟩

theorem decEsp_ibuf {n : Nat} (o p : Nat) (hn : 8 ≤ n) :
    decEsp (s.ibufBytes o n) p =
      .ok (⟨true, ibufWord32 s o, ibufWord32 s (o + 4), s.ibufBytes (o + 8) (n - 8)⟩, n) := by
  rw [decEsp_ok_iff, ibufBytes_length]
  simp (disch := omega) only [rd32_ibuf, slice_ibuf, true_and]
  exact ⟨hn, rfl⟩

end DecodeCommands

/-- Settles O29: both commands run the Options decoder on the region, each into its own slot. -/
theorem decOptionsResult : Obligations.DecOptionsResult := by
  refine ⟨rfl, rfl, ?_⟩
  intro s opts o hel l h hr _ hl hs
  have hd := fun k => decOpts_ibuf (k := k) o o hl hs
  rw [← byteRes_eq]
  exact ⟨decCommand_ok hr (by rw [decInto, hd]; rfl), decCommand_ok hr (by rw [decInto, hd]; rfl)⟩

/-- Settles O30: the Routing decoder's reads, each at its offset in the region. -/
theorem decRoutingResult : Obligations.DecRoutingResult := by
  refine ⟨rfl, ?_⟩
  intro s o hel m hr _ hl
  rw [← byteRes_eq]
  exact decCommand_ok hr (by rw [decInto, decRt_ibuf _ _ hl]; rfl)

/-- Settles O31: the Fragment decoder's reads, each at its offset in the region. -/
theorem decFragmentResult : Obligations.DecFragmentResult := by
  refine ⟨rfl, ?_⟩
  intro s o hr hl
  rw [← byteRes_eq]
  exact decCommand_ok hr (by rw [decInto, decFrag_ibuf _ _ hl]; rfl)

/-- Settles O32: the Authentication decoder's reads, each at its offset in the region. -/
theorem decAuthResult : Obligations.DecAuthResult := by
  refine ⟨rfl, ?_⟩
  intro s o plen hr _ hp hl
  rw [← byteRes_eq]
  exact decCommand_ok hr (by rw [decInto, decAh_ibuf _ _ hp hl]; rfl)

/-- Settles O33: the ESP decoder takes the whole region, so RES0 is ARG1 itself, and it names no next
header. -/
theorem decEspResult : Obligations.DecEspResult := by
  refine ⟨rfl, ?_⟩
  intro s o hr hl
  have hres : natRes s.arg1.toNat = s.arg1 := by simp [natRes]
  exact (decCommand_ok hr (by rw [decInto, decEsp_ibuf _ _ hl]; rfl)).trans (by rw [hres]; rfl)

/-! ### The encode commands (R226 to R231) -/

/-- An encode command appends what the slot emits, or overflows with nothing written. -/
theorem encCommand_result (k : Kind) (s : State) :
    (s.olen.toNat + (encSlot k s.slots).length ≤ s.params.obufSize →
      encCommand k s = .next (completed s { appended s (encSlot k s.slots) with
        res0 := natRes (encSlot k s.slots).length
        res1 := natRes (blenSlot k s.slots) } 0)) ∧
    (s.params.obufSize < s.olen.toNat + (encSlot k s.slots).length →
      encCommand k s = .next (faulted s 0 4 0)) := by
  simp only [encCommand, commitOut_eq]
  refine ⟨fun hfit => ?_, fun hfull => ?_⟩
  · rw [if_pos hfit]; exact complete_ok s _ {} rfl
  · rw [if_neg (by omega)]; exact complete_error s .obufOverflow

/-- Settles O35: the bytes a slot emits are its encoder's, each field's bytes written as numbers. -/
theorem encodeCommandsResult : Obligations.EncodeCommandsResult := by
  refine ⟨rfl, rfl, rfl, rfl, rfl, rfl, fun s => ?_⟩
  simp only [← be16_eq, ← be32_eq]
  exact ⟨encCommand_result .hop s, encCommand_result .rt s, encCommand_result .frag s,
    encCommand_result .ah s, encCommand_result .esp s, encCommand_result .dst s⟩

/-! ### Consistent slots (R214) -/

section Consistent
variable {b : Bytes} {o l : Nat}

theorem decOpts_consistent {k : Kind} {h : OptSlot} (hd : decOpts k b o = .ok (h, l)) :
    consistentOpts h := by
  have c := decOpts_consumed hd
  obtain ⟨rfl, hb, hs, hh⟩ := decOpts_ok_iff.1 hd
  refine ⟨c.length.trans c.blen.symm, ?_, ?_⟩
  · rw [hh]; exact slice_length hb
  · rw [hh]; exact hs

theorem decRt_consistent {h : RtSlot} (hd : decRt b o = .ok (h, l)) : consistentRt h := by
  have c := decRt_consumed hd
  obtain ⟨rfl, hb, rfl⟩ := decRt_ok_iff.1 hd
  refine ⟨c.length.trans c.blen.symm, ?_, ?_⟩
  · simp [addrsOf]
  · refine (slice_length hb).trans ?_
    dsimp only; omega

theorem decAh_consistent {h : AhSlot} (hd : decAh b o = .ok (h, l)) : consistentAh h := by
  have c := decAh_consumed hd
  obtain ⟨hp, rfl, hb, rfl⟩ := decAh_ok_iff.1 hd
  refine ⟨c.length.trans c.blen.symm, byteAt_toNat_pos hp, ?_⟩
  refine (slice_length hb).trans ?_
  dsimp only; omega

end Consistent

/-- The encoding of a consistent slot decodes back to it, whatever bytes follow. -/
theorem decOpts_encOpts (k : Kind) {h : OptSlot} (o : Nat) (r : Bytes) (hc : consistentOpts h) :
    decOpts k (encOpts h ++ r) o = .ok ({ h with valid := true }, blenOpts h) := by
  obtain ⟨hlen, hdata, hscan⟩ := hc
  have hslice : slice (encOpts h ++ r) 2 (blenOpts h) = h.optdata :=
    slice_middle [h.nxt, h.hel] h.optdata r rfl (by rw [← hlen]; simp [encOpts]; omega)
  rw [decOpts_ok_iff, hslice]
  exact ⟨rfl, by simp [hlen], hscan, rfl⟩

theorem decRt_encRt {h : RtSlot} (o : Nat) (r : Bytes) (hc : consistentRt h) :
    decRt (encRt h ++ r) o = .ok ({ h with valid := true }, blenRt h) := by
  obtain ⟨hlen, haddrs, -⟩ := hc
  have hw : rd32 (encRt h ++ r) 4 = h.rtw := by
    simpa [encRt] using rd32_be32 h.rtw [h.nxt, h.hel, h.rtype, h.segleft]
      ((h.addrs.map Subtype.val).flatten ++ h.resid ++ r) 4 rfl
  have ha : addrsOf (encRt h ++ r) (h.hel.toNat / 2) = h.addrs := by
    rw [← haddrs]
    simpa [encRt] using addrsOf_append h.addrs (x := [h.nxt, h.hel, h.rtype, h.segleft] ++ be32 h.rtw)
      (h.resid ++ r) rfl
  have hr : slice (encRt h ++ r) (8 + 16 * (h.hel.toNat / 2)) (blenRt h) = h.resid := by
    refine slice_middle ([h.nxt, h.hel, h.rtype, h.segleft] ++ be32 h.rtw ++
      (h.addrs.map Subtype.val).flatten) h.resid r ?_ ?_
    · rw [← haddrs, List.length_append, addrs_flatten_length]; rfl
    · rw [← hlen, encRt, List.length_append (bs := h.resid)]
  rw [decRt_ok_iff, hw]
  refine ⟨rfl, by simp [hlen], ?_⟩
  show _ = RtSlot.mk true h.nxt h.hel h.rtype h.segleft h.rtw (addrsOf (encRt h ++ r) (h.hel.toNat / 2))
    (slice (encRt h ++ r) (8 + 16 * (h.hel.toNat / 2)) (blenRt h))
  rw [ha, hr]

theorem decFrag_encFrag (h : FragSlot) (o : Nat) (r : Bytes) :
    decFrag (encFrag h ++ r) o = .ok ({ h with valid := true }, blenFrag h) := by
  have hf : rd16 (encFrag h ++ r) 2 = h.fragw := by
    simpa [encFrag] using rd16_be16 h.fragw [h.nxt, h.rsvd] (be32 h.ident ++ r) 2 rfl
  have hi : rd32 (encFrag h ++ r) 4 = h.ident := rd32_be32 h.ident ([h.nxt, h.rsvd] ++ be16 h.fragw) r 4 rfl
  rw [decFrag_ok_iff, hf, hi]
  exact ⟨rfl, Nat.le_add_left .., rfl⟩

theorem decAh_encAh {h : AhSlot} (o : Nat) (r : Bytes) (hc : consistentAh h) :
    decAh (encAh h ++ r) o = .ok ({ h with valid := true }, blenAh h) := by
  obtain ⟨hlen, hp, -⟩ := hc
  have hv : rd16 (encAh h ++ r) 2 = h.rsvd := by
    simpa [encAh] using rd16_be16 h.rsvd [h.nxt, h.plen]
      (be32 h.spi ++ be32 h.seq ++ h.auth ++ r) 2 rfl
  have hspi : rd32 (encAh h ++ r) 4 = h.spi := by
    simpa [encAh] using rd32_be32 h.spi ([h.nxt, h.plen] ++ be16 h.rsvd)
      (be32 h.seq ++ h.auth ++ r) 4 rfl
  have hseq : rd32 (encAh h ++ r) 8 = h.seq := by
    simpa [encAh] using rd32_be32 h.seq ([h.nxt, h.plen] ++ be16 h.rsvd ++ be32 h.spi)
      (h.auth ++ r) 8 rfl
  have ha : slice (encAh h ++ r) 12 (blenAh h) = h.auth :=
    slice_middle ([h.nxt, h.plen] ++ be16 h.rsvd ++ be32 h.spi ++ be32 h.seq) h.auth r rfl
      (by rw [← hlen, encAh, List.length_append (bs := h.auth)])
  rw [decAh_ok_iff, hv, hspi, hseq, ha]
  refine ⟨fun e => ?_, rfl, by simp [hlen], rfl⟩
  have e : h.plen = 0 := e
  rw [e] at hp
  exact absurd hp (by decide)

theorem decEsp_encEsp (h : EspSlot) (o : Nat) :
    decEsp (encEsp h) o = .ok ({ h with valid := true }, blenEsp h) := by
  have hlen : (encEsp h).length = blenEsp h := by
    rw [encEsp, List.length_append]; rfl
  have hspi : rd32 (encEsp h) 0 = h.spi := by
    simpa [encEsp] using rd32_be32 h.spi [] (be32 h.seq ++ h.data) 0 rfl
  have hseq : rd32 (encEsp h) 4 = h.seq := rd32_be32 h.seq (be32 h.spi) h.data 4 rfl
  have hd : slice (encEsp h) 8 (blenEsp h) = h.data :=
    slice_right (be32 h.spi ++ be32 h.seq) h.data 8 _ rfl hlen
  rw [decEsp_ok_iff, hspi, hseq, hd]
  exact ⟨hlen.symm, Nat.le_add_right .., rfl⟩

/-! ### Encode commands do not check consistency -/

theorem completed_cause (s t : State) : statusCause (completed s t 0).status = 0 := by
  have e : completed s s 0 = s.done {} := (done_eq_completed s s {} rfl).symm
  show statusCause (completed s s 0).status = 0
  rw [e, done_cause]

theorem exec_encInstr (k : Kind) (s : State) : exec (encInstr k) s = encCommand k s := by cases k <;> rfl

/-- An encode command whose output fits emits the slot as it stands. -/
theorem exec_encInstr_fits {k : Kind} {s : State} (hsz : s.params.obufSize < 2 ^ 32)
    (hfit : s.olen.toNat + (encSlot k s.slots).length ≤ s.params.obufSize) :
    ∃ t, exec (encInstr k) s = .next t ∧ statusCause t.status = 0 ∧
      t.obufBytes s.olen.toNat (encSlot k s.slots).length = encSlot k s.slots ∧
      t.res0.toNat = (encSlot k s.slots).length ∧ t.res1 = BitVec.ofNat 32 (blenSlot k s.slots) := by
  refine ⟨_, (exec_encInstr k s).trans ((encCommand_result k s).1 hfit), completed_cause _ _,
    appended_obufBytes s _, ?_, rfl⟩
  exact (BitVec.toNat_ofNat ..).trans (Nat.mod_eq_of_lt (by omega))

/-- A HOP slot whose `hel` says 8 bytes and whose encoding has 2: no decoder returns it. -/
def shortHop : OptSlot := ⟨true, 6, 0, [], []⟩

theorem shortHop_inconsistent : ¬ consistentOpts shortHop := fun h => absurd h.1 (by decide)

/-- Settles O37: a decoded slot carries the lengths its decoder cut by, the decoders read back what the
encoders join, and the encode commands do not look at consistency (`shortHop`). -/
theorem consistentSlotsRoundTrip : Obligations.ConsistentSlotsRoundTrip := by
  refine ⟨fun _ _ _ _ _ hd => decOpts_consistent hd, fun _ _ _ _ hd => decRt_consistent hd,
    fun _ _ _ _ hd => decAh_consistent hd,
    fun k h o hc => ?_, fun h o hc => ?_, fun h o => ?_, fun h o hc => ?_,
    fun h o => decEsp_encEsp h o, fun k s hsz hfit => exec_encInstr_fits hsz hfit, ?_⟩
  · simpa using decOpts_encOpts k o [] hc
  · simpa using decRt_encRt o [] hc
  · simpa using decFrag_encFrag h o []
  · simpa using decAh_encAh o [] hc
  · let s := withHop State.reset shortHop
    obtain ⟨hmin, hmax⟩ : 40 ≤ s.params.obufSize ∧ s.params.obufSize < 2 ^ 32 := invAtReset.obufSize
    obtain ⟨t, hx, hcause, -, h0, h1⟩ := exec_encInstr_fits (k := .hop) (s := s) hmax
      (le_trans (by decide) hmin)
    have h0 : t.res0.toNat = 2 := h0
    have h1 : t.res1 = 8 := h1
    refine ⟨s, t, rfl, shortHop_inconsistent, hx, hcause, h0, by rw [h1]; rfl, fun e => ?_⟩
    rw [e, h1] at h0
    exact absurd h0 (by decide)

end Sys2Proof.Machine
end

section
/-! PROOFS. The family 43_tlv_scanner.md: the scan by what stands at its front (R250, R253), what it emits
(R251, R254), and the command TLV_SCAN (R256). -/

namespace Sys2Proof.Machine

/-! ### The front of the region (R250, R253) -/

section Front
variable {t l : Byte} {v : Bytes} (r : Bytes)

theorem byteAt_cons_zero : byteAt (t :: r) 0 = t := rfl

theorem byteAt_cons_one : byteAt (t :: l :: r) 1 = l := rfl

/-- A Pad1 is skipped. -/
theorem tlvScan_pad1 : tlvScan (0 :: r) = (tlvScan r).mapError (· + 1) := by
  have hfront : tlvScan (0 :: r) = tlvLoop ([0] ++ r) (r.length + 1) [(0 : Byte)].length [] := by
    rw [tlvScan, tlvLoop_succ, if_neg (by simp), byteAt_cons_zero, if_pos rfl]; rfl
  rw [hfront, tlvScan_shift _ _ _ _ (Nat.lt_succ_self _)]
  cases tlvScan r <;> rfl

/-- A type byte with no length byte is a partial option. -/
theorem tlvScan_noLength (ht : t ≠ 0) : tlvScan [t] = .error 0 := by
  rw [tlvScan, tlvLoop_succ, if_neg (by simp), byteAt_cons_zero, if_neg ht, if_pos (by simp)]

/-- The loop's first turn on a type and a length byte. -/
theorem tlvScan_typeLength (ht : t ≠ 0) : tlvScan (t :: l :: r) =
    if r.length < l.toNat then .error 0
    else tlvLoop (t :: l :: r) (r.length + 2) (2 + l.toNat)
      (if t = 1 then [] else [⟨t, l, r.take l.toNat⟩]) := by
  have hvalue : slice (t :: l :: r) (0 + 2) (0 + 2 + l.toNat) = r.take l.toNat := by simp [slice]
  have hpast : 0 + 2 + l.toNat > (t :: l :: r).length ↔ r.length < l.toNat := by
    simp only [List.length_cons]; omega
  rw [tlvScan, tlvLoop_succ, if_neg (by simp), byteAt_cons_zero, byteAt_cons_one, if_neg ht,
    if_neg (by simp), hvalue, if_congr hpast rfl rfl, Nat.zero_add]
  rfl

variable {r}

/-- An option whose value runs past the region is a partial option. -/
theorem tlvScan_pastRegion (ht : t ≠ 0) (hl : r.length < l.toNat) : tlvScan (t :: l :: r) = .error 0 := by
  rw [tlvScan_typeLength r ht, if_pos hl]

/-- An option inside the region that is no Pad1: a PadN emits nothing, any other one record, and the scan
goes on behind its value. -/
theorem tlvScan_option (ht : t ≠ 0) (hv : v.length = l.toNat) :
    tlvScan (t :: l :: (v ++ r)) =
      ((tlvScan r).map ((if t = 1 then [] else [⟨t, l, v⟩]) ++ ·)).mapError (· + (2 + l.toNat)) := by
  have hlen : (t :: l :: v).length = 2 + l.toNat := by rw [List.length_cons, List.length_cons]; omega
  rw [tlvScan_typeLength _ ht, List.length_append, if_neg (by omega), List.take_left' hv, ← hlen]
  exact tlvScan_shift (t :: l :: v) r _ _ (by omega)

theorem tlvScan_padN (hv : v.length = l.toNat) :
    tlvScan (1 :: l :: (v ++ r)) = (tlvScan r).mapError (· + (2 + l.toNat)) := by
  rw [tlvScan_option (by decide) hv]
  cases tlvScan r <;> rfl

theorem tlvScan_record (ht0 : t ≠ 0) (ht1 : t ≠ 1) (hv : v.length = l.toNat) :
    tlvScan (t :: l :: (v ++ r)) =
      ((tlvScan r).map (⟨t, l, v⟩ :: ·)).mapError (· + (2 + l.toNat)) := by
  rw [tlvScan_option ht0 hv, if_neg ht1]; rfl

end Front

/-- Settles O38: one turn of the loop for each front, and the rest scanned as a region of its own. -/
theorem tlvScanByCases : Obligations.TlvScanByCases :=
  ⟨rfl, tlvScan_pad1, fun _ => tlvScan_noLength, fun _ _ _ => tlvScan_pastRegion,
    fun _ _ _ => tlvScan_padN, fun _ _ _ _ => tlvScan_record⟩

/-! ### What the scan emits (R251, R254) -/

/-- Each record takes at least the two bytes of its type and its length, so twice the records found stay
behind the position. -/
theorem tlvLoop_count {r : Bytes} {f pos : Nat} {out res : List OptRec}
    (h : tlvLoop r f pos out = .ok res) (hpos : pos ≤ r.length) :
    2 * res.length + pos ≤ 2 * out.length + r.length := by
  induction f generalizing pos out with
  | zero => cases h; omega
  | succ f ih =>
    rw [tlvLoop_succ] at h
    split_ifs at h with hend hpad hlen hval hpadN
    · cases h; omega
    · have := ih h (by omega); omega
    · have := ih h (by omega); omega
    · have := ih h (by omega)
      rw [List.length_append, List.length_singleton] at this
      omega

theorem tlvScan_count {r : Bytes} {out : List OptRec} (h : tlvScan r = .ok out) :
    out.length ≤ r.length / 2 := by
  have := tlvLoop_count h (Nat.zero_le _)
  rw [List.length_nil] at this
  omega

/-- Settles O39: the count by the loop's position, the form of a record by `tlvScan_legal`. -/
theorem tlvScanRecords : Obligations.TlvScanRecords :=
  fun _ _ h => ⟨tlvScan_count h, fun x hx => (tlvScan_legal h x hx).symm⟩

/-! ### TLV_SCAN (R256) -/

section Command
variable {s : State}

theorem execTlvScan_badRegion (h : s.params.ibufSize < s.arg0.toNat + s.arg1.toNat) :
    execTlvScan s = .next (faulted s 0 3 0) := by
  rw [execTlvScan, region_bad h]
  exact complete_error s .badRegion

theorem execTlvScan_inRegion (h : s.arg0.toNat + s.arg1.toNat ≤ s.params.ibufSize) :
    execTlvScan s = complete s (do
      let out ← tlvScanAt (s.ibufBytes s.arg0.toNat s.arg1.toNat) s.arg0.toNat
      return ({ s with scan := out, res0 := natRes out.length, res1 := s.arg1 }, {})) := by
  rw [execTlvScan, region_ok h]; rfl

theorem tlvScanAt_ok {r : Bytes} {out : List OptRec} (o : Nat) (h : tlvScan r = .ok out) :
    tlvScanAt r o = .ok out := by
  rw [tlvScanAt, h]

theorem tlvScanAt_error {r : Bytes} {pos : Nat} (o : Nat) (h : tlvScan r = .error pos) :
    tlvScanAt r o = .error (.malformed .tlv (o + pos)) := by
  rw [tlvScanAt, h]

theorem execTlvScan_ok {out : List OptRec} (hr : s.arg0.toNat + s.arg1.toNat ≤ s.params.ibufSize)
    (hs : tlvScan (s.ibufBytes s.arg0.toNat s.arg1.toNat) = .ok out) :
    execTlvScan s = .next (completed s { s with
      scan := out, res0 := natRes out.length, res1 := s.arg1 } 0) := by
  rw [execTlvScan_inRegion hr, tlvScanAt_ok _ hs]
  exact complete_ok s _ {} rfl

theorem execTlvScan_error {pos : Nat} (hr : s.arg0.toNat + s.arg1.toNat ≤ s.params.ibufSize)
    (hs : tlvScan (s.ibufBytes s.arg0.toNat s.arg1.toNat) = .error pos) :
    execTlvScan s = .next (faulted s 8 1 (s.arg0.toNat + pos)) := by
  rw [execTlvScan_inRegion hr, tlvScanAt_error _ hs]
  exact complete_error s (.malformed .tlv (s.arg0.toNat + pos))

end Command

/-- Settles O40: the region is checked first, then the scan decides. -/
theorem tlvScanCommandResult : Obligations.TlvScanCommandResult :=
  ⟨rfl, fun _ => execTlvScan_badRegion,
    fun _ hr => ⟨fun _ => execTlvScan_ok hr, fun _ => execTlvScan_error hr⟩⟩

end Sys2Proof.Machine
end

section
/-! PROOFS. The family 44_chain_walker.md: where a walk stands after each dispatch (R274 to R276), a walk that
starts at a terminal id (R277), the command CHAIN_WALK (R278), and the walk as steps of the block (R271). -/

namespace Sys2Proof.Machine

/-! ### Where a walk stands -/

/-- A walk over region `b` at IBUF offset `o`, between two dispatches: it stays inside the region, each header
recorded took at least 8 bytes (R276), and with no id left it ended at an ESP that took all the rest (R274). -/
structure Walker.Inside (b : Bytes) (o : Nat) (w : Walker) : Prop where
  buf : w.buf = b
  off : w.off = o
  pos : w.pos ≤ b.length
  chain : 8 * w.chain.length ≤ w.pos
  esp : w.cur = none → w.pos = b.length ∧ w.chain.getLast? = some 50

section Walk
variable {first : Byte} {b : Bytes} {o : Nat} {k : Kind} {w v : Walker} {t : Trap}

theorem inside_start (first : Byte) (b : Bytes) (o : Nat) : (Walker.start first b o).Inside b o :=
  ⟨rfl, rfl, Nat.zero_le _, le_refl 0, nofun⟩

theorem Walker.Inside.dispatch (hw : w.Inside b o) (h : w.dispatch k = .ok v) : v.Inside b o := by
  obtain ⟨hbuf, hoff, hpos, hchain, -⟩ := hw
  obtain ⟨ss, nx, l, hd, rfl⟩ := dispatch_ok h
  obtain ⟨h8, hfits, hnone, hrest, -⟩ := decInto_ok hd
  rw [hbuf, List.length_drop] at hfits hrest
  refine ⟨hbuf, hoff, ?_, ?_, fun hcur => ?_⟩
  · show w.pos + l ≤ b.length
    omega
  · show 8 * (w.chain ++ [idOf k]).length ≤ w.pos + l
    rw [List.length_append, List.length_singleton]
    omega
  · obtain rfl := hnone.1 hcur
    have hl := hrest rfl
    refine ⟨?_, List.getLast?_concat⟩
    show w.pos + l = b.length
    omega

/-- The id the walk dispatches on next is that of the kind (R120). -/
theorem cur_of_next? (h : w.next? = some k) : w.cur = some (idOf k) := by
  obtain ⟨p, hp, hk⟩ := Option.bind_eq_some_iff.1 h
  rw [hp, idOf_of_kindOf p k hk]

theorem kindOf_of_next?_none (h : w.next? = none) {p : Byte} (hp : w.cur = some p) : kindOf p = none := by
  rwa [Walker.next?, hp] at h

theorem walk_inside (h : walk first b o = .ok w) : w.Inside b o :=
  walkLoop_ind (fun _ _ _ hv _ hd => hv.dispatch hd) _ _ _ h (inside_start first b o)

/-- A walk's iteration bound is never what ends it (R276). -/
theorem walk_next?_none (h : walk first b o = .ok w) : w.next? = none :=
  walkLoop_done _ _ _ h (Nat.zero_le _) (Nat.lt_succ_self b.length)

end Walk

/-- Settles O43: `Walker.Inside` holds wherever a walk stands, so both where it ends and where it fails. -/
theorem walkEndsInsideRegion : Obligations.WalkEndsInsideRegion := by
  refine fun first b o => ⟨fun w hw => ?_, fun t ht => ?_⟩
  · have hin := walk_inside hw
    have hcount : w.chain.length ≤ b.length / 8 := by
      have := hin.chain
      have := hin.pos
      omega
    exact ⟨hcount, hin.pos, walk_chain_ext hw, hin.esp,
      fun p hp => (kindOf_none p).1 (kindOf_of_next?_none (walk_next?_none hw) hp)⟩
  · obtain ⟨v, k, hin, -, hd⟩ :=
      walkLoop_fails (fun _ _ _ hv _ hd => hv.dispatch hd) _ _ _ ht (inside_start first b o)
    exact ⟨k, v.pos, hin.pos, by rw [dispatch_error hd, hin.off]⟩

/-- Settles O44: the loop finds no header to dispatch on at its first turn. -/
theorem terminalFirstIdEndsWalk : Obligations.TerminalFirstIdEndsWalk := by
  intro first b o hfirst
  have hnext : (Walker.start first b o).next? = none := (kindOf_none first).2 hfirst
  rw [walk, walkLoop_succ, hnext]
  rfl

/-! ### CHAIN_WALK (R278) -/

section Command
variable {s : State}

theorem execChainWalk_badRegion (h : s.params.ibufSize < s.arg0.toNat + s.arg1.toNat) :
    execChainWalk s = .next (faulted s 0 3 0) := by
  rw [execChainWalk, region_bad h]
  exact complete_error s .badRegion

/-- What CHAIN_WALK writes when the walk ends at `w`. -/
def chainWalked (s : State) (w : Walker) : State :=
  { s with
    slots := w.slots
    chain := w.chain
    res0 := idRes w.terminal
    res1 := natRes (s.arg0.toNat + w.pos)
    res2 := natRes (s.arg1.toNat - w.pos)
    res3 := natRes w.chain.length }

theorem execChainWalk_inRegion (h : s.arg0.toNat + s.arg1.toNat ≤ s.params.ibufSize) :
    execChainWalk s = complete s (do
      let w ← walk (BitVec.ofNat 8 s.arg2.toNat) (s.ibufBytes s.arg0.toNat s.arg1.toNat) s.arg0.toNat
      return (chainWalked s w, {})) := by
  rw [execChainWalk, region_ok h, lowByte_eq]
  rfl

theorem execChainWalk_ok {w : Walker} (hr : s.arg0.toNat + s.arg1.toNat ≤ s.params.ibufSize)
    (hw : walk (BitVec.ofNat 8 s.arg2.toNat) (s.ibufBytes s.arg0.toNat s.arg1.toNat) s.arg0.toNat = .ok w) :
    execChainWalk s = .next (completed s (chainWalked s w) 0) := by
  rw [execChainWalk_inRegion hr, hw]
  exact complete_ok s (chainWalked s w) {} rfl

theorem execChainWalk_error {k : Kind} {off : Nat}
    (hr : s.arg0.toNat + s.arg1.toNat ≤ s.params.ibufSize)
    (hw : walk (BitVec.ofNat 8 s.arg2.toNat) (s.ibufBytes s.arg0.toNat s.arg1.toNat) s.arg0.toNat =
      .error (.malformed (.ext k) off)) :
    execChainWalk s = .next (faulted s (kindIndex k + 2) 1 off) := by
  rw [execChainWalk_inRegion hr, hw, ← raise_badHeader]
  rfl

end Command

/-- Settles O45: the region is checked first, then the walk decides. -/
theorem chainWalkResult : Obligations.ChainWalkResult := by
  refine ⟨rfl, fun _ => execChainWalk_badRegion, fun s hr =>
    ⟨fun w hw => (execChainWalk_ok hr hw).trans ?_, fun _ _ => execChainWalk_error hr⟩⟩
  rw [chainWalked, idRes_match]
  rfl

/-! ### A walk as steps of the block (R271) -/

/-- A step after a run lengthens it by one. -/
theorem run_snoc {M : Host.Core} {n : Nat} {s t u : M.State} (hrun : M.run n s = .next t)
    (hstep : M.step t = .next u) : M.run (n + 1) s = .next u := by
  induction n generalizing s with
  | zero =>
    cases hrun
    rw [run_succ M 0 _ u hstep]
    rfl
  | succ n ih =>
    obtain ⟨r, hr, hrun⟩ := run_cases M n s t hrun
    rw [run_succ M (n + 1) s r hr]
    exact ih hrun

/-- With no command pending, a step is the walk's next dispatch. -/
theorem step_nhDispatch {s : State} {k : Kind} (hc : s.cmd = none) (hk : s.walker.next? = some k) :
    step s = nhDispatch k s := by
  have hdec : decode (.nh (idOf k)) = .ok (nhInstr k) := by
    rw [← encode_nhInstr]
    exact decode_encode _
  rw [step_of_decode_ok (fetch_nh hc (cur_of_next? hk) (nhOk_of_decode hdec)) hdec,
    afterFetch_of_cmd_none hc, exec_nh]

/-- From `s` with the walk just started, as many steps as `v` has recorded headers lead to `v`, with nothing
else changed. -/
def StepsTo (s : State) (first : Byte) (b : Bytes) (o : Nat) (v : Walker) : Prop :=
  core.run v.chain.length { s with walker := Walker.start first b o } = .next { s with walker := v }

section Steps
variable {s : State} {first : Byte} {b : Bytes} {o : Nat} {k : Kind} {w v : Walker} {t : Trap}

theorem StepsTo.dispatch (hc : s.cmd = none) (hw : StepsTo s first b o w) (hk : w.next? = some k)
    (hd : w.dispatch k = .ok v) : StepsTo s first b o v := by
  have hstep : step { s with walker := w } = .next { s with walker := v } :=
    (step_nhDispatch (s := { s with walker := w }) hc hk).trans
      (nhDispatch_ok (s := { s with walker := w }) hd)
  have hlen : v.chain.length = w.chain.length + 1 := by
    obtain ⟨ss, nx, l, -, rfl⟩ := dispatch_ok hd
    exact List.length_append
  rw [StepsTo, hlen]
  exact run_snoc (M := core) hw hstep

theorem walk_stepsTo (hc : s.cmd = none) (h : walk first b o = .ok w) : StepsTo s first b o w :=
  walkLoop_ind (fun _ _ _ hv hk hd => hv.dispatch hc hk hd) _ _ _ h rfl

/-- A walk that fails has come, dispatch by dispatch, to a header that does not decode (R275). -/
theorem walk_error_stepsTo (hc : s.cmd = none) (h : walk first b o = .error t) :
    ∃ v k, (v.Inside b o ∧ StepsTo s first b o v) ∧ v.next? = some k ∧ v.dispatch k = .error t :=
  walkLoop_fails (fun _ _ _ hv hk hd => ⟨hv.1.dispatch hd, hv.2.dispatch hc hk hd⟩) _ _ _ h
    ⟨inside_start first b o, rfl⟩

/-- The step at a header that does not decode records its MalformedHeader and leaves the walker idle (log 4). -/
theorem step_dispatch_error (hc : s.cmd = none) (hk : v.next? = some k) (hd : v.dispatch k = .error t) :
    step { s with walker := v } =
      .next (faulted { s with walker := Walker.idle } (kindIndex k + 2) 1 (v.off + v.pos)) := by
  rw [step_nhDispatch (s := { s with walker := v }) hc hk,
    nhDispatch_error (s := { s with walker := v }) hd, dispatch_error hd, ← raise_badHeader]
  rfl

/-- A dispatch fails only where its decoder does. -/
theorem decInto_of_dispatch_error (h : v.dispatch k = .error t) :
    decInto k v.slots (v.buf.drop v.pos) (v.off + v.pos) = .error t := by
  rcases except_error_bind h with hd | ⟨_, -, hd⟩
  · exact hd
  · cases hd

end Steps

/-- Settles O46: every dispatch of the loop is one step (`StepsTo.dispatch`), up to the walk's end or the first
header that does not decode. -/
theorem walkIsRepeatedDispatch : Obligations.WalkIsRepeatedDispatch := by
  refine ⟨fun s first b o w hc hw => ⟨walk_stepsTo hc hw, ?_⟩, fun s first b o t hc ht => ?_⟩
  · exact fetch_none _ hc fun p hp => kindOf_of_next?_none (walk_next?_none hw) hp
  · obtain ⟨v, k, ⟨hin, hrun⟩, hk, hd⟩ := walk_error_stepsTo hc ht
    obtain ⟨rfl, rfl, hpos, -, -⟩ := hin
    exact ⟨k, v, rfl, rfl, hpos, hrun, cur_of_next? hk, dispatch_error hd, decInto_of_dispatch_error hd,
      step_dispatch_error hc hk hd⟩

end Sys2Proof.Machine
end

section
/-! PROOFS. The family 45_packet_codec.md: the fixed header and its two commands (R290 to R295), what PKT_DEC
decodes (R296 to R299), what PKT_ENC emits (R300 to R303), and the round trip of both (R304). -/

namespace Sys2Proof.Machine

/-! ### The fixed header (R290, R294) -/

theorem pair_slice {b : Bytes} {i : Nat} (h : i + 2 ≤ b.length) :
    [byteAt b i, byteAt b (i + 1)] = slice b i (i + 2) :=
  (be16_rd16 b i).symm.trans (be16_rd16_slice h)

/-- Encoding the fields read from the first 40 bytes gives those bytes back. -/
theorem encFixed_readFixed {b : Bytes} (h : 40 ≤ b.length) : encFixed (readFixed b) = b.take 40 := by
  rw [encFixed, readFixed, be32_rd32_slice (by omega), be16_rd16_slice (by omega), pair_slice (by omega),
    addrAt_val (by omega), addrAt_val (by omega), slice_append (by omega) (by omega),
    slice_append (by omega) (by omega), slice_append (by omega) (by omega),
    slice_append (by omega) (by omega), slice_zero]

theorem encFixed_length (f : FixedHdr) : (encFixed f).length = 40 := by
  simp [encFixed, be32, be16, f.src.property, f.dst.property]

theorem decFixed_ok_iff {b : Bytes} {o : Nat} {f : FixedHdr} : decFixed b o = .ok f ↔
    40 ≤ b.length ∧ (f.plen ≠ 0 → 40 + f.plen.toNat ≤ b.length) ∧ f = readFixed b := by
  rw [decFixed_eq]
  constructor
  · intro hd
    split_ifs at hd with hc
    cases hd
    exact ⟨hc.1, hc.2, rfl⟩
  · rintro ⟨h40, hplen, rfl⟩
    rw [if_pos ⟨h40, hplen⟩]

theorem ibufBytes_drop (s : State) (o n p : Nat) :
    (s.ibufBytes o n).drop p = s.ibufBytes (o + p) (n - p) := by
  rw [← slice_ibuf s o n p n (le_refl n), slice, List.take_of_length_le]
  rw [List.length_drop, ibufBytes_length]

/-! ### FIX_DEC and FIX_ENC (R293, R295) -/

/-- The region the ARG registers name lies in IBUF and starts with a fixed header whose payload length does not
overrun it (R290). -/
structure State.HoldsFixed (s : State) : Prop where
  region : s.arg0.toNat + s.arg1.toNat ≤ s.params.ibufSize
  header : 40 ≤ s.arg1.toNat
  payload : (ibufFixed s s.arg0.toNat).plen ≠ 0 → 40 + (ibufFixed s s.arg0.toNat).plen.toNat ≤ s.arg1.toNat

section FixedCommands
variable {s : State}

theorem State.HoldsFixed.decFixed_eq (h : s.HoldsFixed) (p : Nat) :
    decFixed (s.ibufBytes s.arg0.toNat s.arg1.toNat) p = .ok (ibufFixed s s.arg0.toNat) :=
  decFixed_ibuf_ok s _ _ p h.header h.payload

theorem State.HoldsFixed.workRegion_eq (h : s.HoldsFixed) :
    workRegion (s.ibufBytes s.arg0.toNat s.arg1.toNat) (ibufFixed s s.arg0.toNat) =
      s.ibufBytes (s.arg0.toNat + 40) (workLen (ibufFixed s s.arg0.toNat) s.arg1.toNat) :=
  workRegion_ibuf s _ _ _ h.header h.payload

/-- What FIX_DEC writes when the region holds the fixed header `f` and a working region of `n` bytes. -/
def fixDecoded (s : State) (f : FixedHdr) (n : Nat) : State :=
  { s with fix := f, res0 := natRes (s.arg0.toNat + 40), res1 := natRes n }

theorem execFixDec_badRegion (h : s.params.ibufSize < s.arg0.toNat + s.arg1.toNat) :
    execFixDec s = .next (faulted s 0 3 0) := by
  rw [execFixDec, region_bad h]
  exact complete_error s .badRegion

theorem execFixDec_inRegion (h : s.arg0.toNat + s.arg1.toNat ≤ s.params.ibufSize) :
    execFixDec s = complete s (do
      let f ← decFixed (s.ibufBytes s.arg0.toNat s.arg1.toNat) s.arg0.toNat
      return (fixDecoded s f (workRegion (s.ibufBytes s.arg0.toNat s.arg1.toNat) f).length, {})) := by
  rw [execFixDec, region_ok h]
  rfl

theorem execFixDec_malformed (hr : s.arg0.toNat + s.arg1.toNat ≤ s.params.ibufSize)
    (h : s.arg1.toNat < 40 ∨ ((ibufFixed s s.arg0.toNat).plen ≠ 0 ∧
      s.arg1.toNat < 40 + (ibufFixed s s.arg0.toNat).plen.toNat)) :
    execFixDec s = .next (faulted s 1 1 s.arg0.toNat) := by
  rw [execFixDec_inRegion hr, decFixed_ibuf_bad _ _ _ _ h]
  exact complete_error s (.malformed .fixed s.arg0.toNat)

theorem execFixDec_ok (h : s.HoldsFixed) : execFixDec s = .next (completed s
    (fixDecoded s (ibufFixed s s.arg0.toNat) (workLen (ibufFixed s s.arg0.toNat) s.arg1.toNat)) 0) := by
  rw [execFixDec_inRegion h.region, h.decFixed_eq]
  show complete s (.ok (fixDecoded s _ (workRegion _ _).length, {})) = _
  rw [h.workRegion_eq, ibufBytes_length]
  exact complete_ok s _ {} rfl

theorem execFixEnc_fits (h : s.olen.toNat + 40 ≤ s.params.obufSize) :
    execFixEnc s = .next (completed s { appended s (encFixed s.fix) with res0 := 40 } 0) := by
  rw [execFixEnc, commitOut_eq, encFixed_length, if_pos h]
  exact complete_ok s _ {} rfl

theorem execFixEnc_full (h : s.params.obufSize < s.olen.toNat + 40) :
    execFixEnc s = .next (faulted s 0 4 0) := by
  rw [execFixEnc, commitOut_eq, encFixed_length, if_neg (by omega)]
  exact complete_error s .obufOverflow

end FixedCommands

/-- Settles O47: the region is checked first, then the header; the encoder's 40 bytes fit or not. -/
theorem fixedHeaderCommandsResult : Obligations.FixedHeaderCommandsResult :=
  ⟨rfl, rfl, fun _ => ⟨execFixDec_badRegion, execFixDec_malformed,
    fun hr h40 hplen => execFixDec_ok ⟨hr, h40, hplen⟩, execFixEnc_fits, execFixEnc_full⟩⟩

/-! ### The packet decoder (R296, R297) -/

/-- What the packet decoder (R296) gives for the fixed header `f` and a walk that ends at `w`. -/
def pktResult (u : Ulc) (b : Bytes) (o : Nat) (f : FixedHdr) (w : Walker) : PktResult :=
  let rem := (workRegion b f).drop w.pos
  ⟨f, w.slots, w.chain, w.cur, (upper u w.cur rem).1, (upper u w.cur rem).2, o + 40 + w.pos, rem.length⟩

section PacketDecoder
variable {u : Ulc} {b : Bytes} {o : Nat} {f : FixedHdr}

theorem pktDecode_eq (hf : decFixed b o = .ok f) : pktDecode u b o =
    walk f.nxt (workRegion b f) (o + 40) >>= fun w => .ok (pktResult u b o f w) := by
  rw [pktDecode, hf]
  rfl

/-- A packet decodes where its fixed header does and its walk ends. -/
theorem pktDecode_ok {r : PktResult} (h : pktDecode u b o = .ok r) : ∃ f w, decFixed b o = .ok f ∧
    walk f.nxt (workRegion b f) (o + 40) = .ok w ∧ r = pktResult u b o f w := by
  obtain ⟨f, hf, -⟩ := except_ok_bind h
  rw [pktDecode_eq hf] at h
  obtain ⟨w, hw, h⟩ := except_ok_bind h
  cases h
  exact ⟨f, w, hf, hw, rfl⟩

/-- The four outcomes of the upper-layer resolution. -/
theorem upper_eq {cur : Option Byte} {rem : Bytes} {pl : Payload} {why : Nat}
    (h : (cur = none ∧ pl = .raw rem ∧ why = 3) ∨
      (∃ p, cur = some p ∧ u.lookup p = false ∧ pl = .raw rem ∧ why = 1) ∨
      (∃ p, cur = some p ∧ u.lookup p = true ∧ u.decode p rem = none ∧ pl = .raw rem ∧ why = 2) ∨
      (∃ p h, cur = some p ∧ u.lookup p = true ∧ u.decode p rem = some h ∧ pl = .obj h ∧ why = 0)) :
    upper u cur rem = (pl, BitVec.ofNat 2 why) ∧ why < 4 := by
  rcases h with ⟨rfl, rfl, rfl⟩ | ⟨p, rfl, hl, rfl, rfl⟩ | ⟨p, rfl, hl, hd, rfl, rfl⟩ |
    ⟨p, h, rfl, hl, hd, rfl, rfl⟩
  · exact ⟨rfl, by decide⟩
  · simp [upper, hl]
  · simp [upper, hl, hd]
  · simp [upper, hl, hd]

end PacketDecoder

/-! ### PKT_DEC (R299) -/

/-- What PKT_DEC writes when the packet decodes to `r`. -/
def pktDecoded (s : State) (r : PktResult) : State :=
  { s with
    fix := r.fix
    slots := r.slots
    chain := r.chain
    ulp := r.term
    payload := r.payload
    res0 := idRes r.term
    res1 := natRes r.remOff
    res2 := natRes r.remLen
    res3 := natRes r.chain.length }

/-- The STATUS flags of a payload left raw for the reason `why`, 0 when it is not raw. -/
def rawFlags (why : BitVec 2) : DoneFlags := { ulpRaw := why != 0, rawWhy := why }

theorem flagsNat_rawFlags : ∀ why < 4,
    flagsNat (rawFlags (BitVec.ofNat 2 why)) = if why = 0 then 0 else 2 ^ 8 + 2 ^ 9 * why := by
  decide

section PacketDecode
variable {s t : State}

theorem execPktDec_inRegion (h : s.arg0.toNat + s.arg1.toNat ≤ s.params.ibufSize) :
    execPktDec s = complete s (do
      let r ← pktDecode s.codec (s.ibufBytes s.arg0.toNat s.arg1.toNat) s.arg0.toNat
      return (pktDecoded s r, rawFlags r.why)) := by
  rw [execPktDec, region_ok h]
  rfl

theorem execPktDec_ok {w : Walker} (h : s.HoldsFixed)
    (hw : walk (ibufFixed s s.arg0.toNat).nxt (s.ibufBytes (s.arg0.toNat + 40)
      (workLen (ibufFixed s s.arg0.toNat) s.arg1.toNat)) (s.arg0.toNat + 40) = .ok w) :
    let r := pktResult s.codec (s.ibufBytes s.arg0.toNat s.arg1.toNat) s.arg0.toNat
      (ibufFixed s s.arg0.toNat) w
    execPktDec s = .next (completed s (pktDecoded s r) (flagsNat (rawFlags r.why))) := by
  rw [execPktDec_inRegion h.region, pktDecode_eq (h.decFixed_eq _), h.workRegion_eq, hw]
  exact complete_ok s _ _ rfl

theorem execPktDec_error {k : Kind} {off : Nat} (h : s.HoldsFixed)
    (hw : walk (ibufFixed s s.arg0.toNat).nxt (s.ibufBytes (s.arg0.toNat + 40)
      (workLen (ibufFixed s s.arg0.toNat) s.arg1.toNat)) (s.arg0.toNat + 40) =
        .error (.malformed (.ext k) off)) :
    execPktDec s = .next (faulted s (kindIndex k + 2) 1 off) := by
  rw [execPktDec_inRegion h.region, pktDecode_eq (h.decFixed_eq _), h.workRegion_eq, hw, ← raise_badHeader]
  rfl

/-- The remaining bytes, and so the payload, read from IBUF. -/
theorem State.HoldsFixed.pktResult_eq (h : s.HoldsFixed) (w : Walker) :
    let o := s.arg0.toNat
    let n := s.arg1.toNat
    let f := ibufFixed s o
    let rem := s.ibufBytes (o + 40 + w.pos) (workLen f n - w.pos)
    pktResult s.codec (s.ibufBytes o n) o f w = ⟨f, w.slots, w.chain, w.cur, (upper s.codec w.cur rem).1,
      (upper s.codec w.cur rem).2, o + 40 + w.pos, workLen f n - w.pos⟩ := by
  dsimp only
  rw [pktResult, h.workRegion_eq, ibufBytes_drop, ibufBytes_length]

/-- PKT_DEC with no cause has decoded the packet its region holds. -/
theorem execPktDec_succeeds (h : execPktDec s = .next t) (hc : statusCause t.status = 0) :
    ∃ r, s.arg0.toNat + s.arg1.toNat ≤ s.params.ibufSize ∧
      pktDecode s.codec (s.ibufBytes s.arg0.toNat s.arg1.toNat) s.arg0.toNat = .ok r ∧
      t = (pktDecoded s r).done (rawFlags r.why) := by
  rcases complete_next h with ⟨k, -, rfl⟩ | ⟨v, fl, hv, rfl⟩
  · rw [raise_cause] at hc
    cases k <;> cases hc
  · obtain ⟨b, hb, hv⟩ := except_ok_bind hv
    obtain ⟨r, hr, hv⟩ := except_ok_bind hv
    cases hv
    have hin : s.arg0.toNat + s.arg1.toNat ≤ s.params.ibufSize := by
      by_contra hout
      rw [region_bad (by omega)] at hb
      cases hb
    rw [region_ok hin] at hb
    cases hb
    exact ⟨r, hin, hr, rfl⟩

end PacketDecode

/-- Settles O48: the walk's end decides the packet context, and the resolution its payload and flags. -/
theorem packetDecodeResult : Obligations.PacketDecodeResult := by
  refine ⟨rfl, ?_⟩
  intro s w pl why
  dsimp only
  intro hr h40 hplen hw hupper
  obtain ⟨hup, hwhy⟩ := upper_eq hupper
  have hfix : s.HoldsFixed := ⟨hr, h40, hplen⟩
  refine (execPktDec_ok hfix hw).trans ?_
  rw [hfix.pktResult_eq, hup, flagsNat_rawFlags why hwhy, pktDecoded, idRes_match]
  rfl

/-- Settles O49: the walk's fault is the command's, and a fault writes STATUS and FAULT_OFF alone. -/
theorem packetDecodeFaultKeepsPacket : Obligations.PacketDecodeFaultKeepsPacket :=
  fun _ _ _ hr h40 hplen hw => execPktDec_error ⟨hr, h40, hplen⟩ hw

/-! ### PKT_ENC (R300 to R303) -/

/-- What PKT_ENC writes when the fix-up gives `r` and the output fits. -/
def pktEncoded (s : State) (r : FixupResult) : State :=
  { appended s (pktBytes s r.payload) with
    payload := r.payload
    res0 := natRes (pktBytes s r.payload).length
    res1 := csumRes r.csum }

theorem execPktEnc_fits {s : State} {r : FixupResult} (hfix : stateFixup s = .ok r)
    (hfit : s.olen.toNat + (pktBytes s r.payload).length ≤ s.params.obufSize) :
    execPktEnc s = .next (completed s (pktEncoded s r) (flagsNat (fixupFlags r))) := by
  rw [execPktEnc, hfix]
  show complete s (commitOut (pktBytes s r.payload) s >>= _) = _
  rw [commitOut_eq, if_pos hfit]
  exact complete_ok s (pktEncoded s r) (fixupFlags r) rfl

/-- The packet PKT_ENC emits stands in OBUF at the old OLEN, and RES0 is its length. -/
theorem execPktEnc_reads_back {s : State} {r : FixupResult} {b : Bytes} (hfix : stateFixup s = .ok r)
    (hb : pktBytes s r.payload = b) (hfit : s.olen.toNat + b.length ≤ s.params.obufSize) :
    ∃ u, execPktEnc s = .next u ∧ u.obufBytes s.olen.toNat b.length = b ∧ u.res0 = natRes b.length := by
  refine ⟨_, execPktEnc_fits hfix (by rw [hb]; exact hfit), ?_, ?_⟩
  · rw [pktEncoded, hb]
    exact appended_obufBytes s b
  · rw [pktEncoded, hb]
    rfl

/-- The packet's bytes, slot by slot. -/
theorem pktBytes_eq (s : State) (pl : Payload) : pktBytes s pl =
    encFixed s.fix ++ ifValid s.slots.hop.valid (encOpts s.slots.hop)
      ++ ifValid s.slots.rt.valid (encRt s.slots.rt) ++ ifValid s.slots.frag.valid (encFrag s.slots.frag)
      ++ ifValid s.slots.ah.valid (encAh s.slots.ah) ++ ifValid s.slots.esp.valid (encEsp s.slots.esp)
      ++ ifValid s.slots.dst.valid (encOpts s.slots.dst) ++ payloadBytes s.codec pl := by
  simp only [pktBytes, encSlots, encSlot, ifValid, List.append_assoc]

theorem flagsNat_fixupFlags (r : FixupResult) : flagsNat (fixupFlags r) =
    (if r.written then 2 ^ 11 else 0) + (if r.skipped then 2 ^ 12 else 0) := by
  cases hw : r.written <;> cases hs : r.skipped <;> simp [flagsNat, fixupFlags, hw, hs]

theorem payloadBytes_match (u : Ulc) (pl : Payload) : payloadBytes u pl =
    (match pl with | .raw b => b | .obj h => u.serialize h) := by
  cases pl <;> rfl

/-- Settles O50: the fix-up comes first, then its payload is appended behind the header and the slots. -/
theorem packetEncodeResult : Obligations.PacketEncodeResult := by
  refine ⟨rfl, ?_⟩
  intro s r ss e hfix hfit
  have he : pktBytes s r.payload = e :=
    (pktBytes_eq s r.payload).trans (congrArg (_ ++ ·) (payloadBytes_match s.codec r.payload))
  refine (execPktEnc_fits hfix (by rw [he]; exact hfit)).trans ?_
  rw [pktEncoded, he, csumRes_match, flagsNat_fixupFlags]
  rfl

/-! ### The slots of a chain in canonical order

A walk that meets its headers in canonical order, no kind twice, fills slots that emit, in that order, the bytes
the walk has consumed. -/

/-- The kinds of a chain come in canonical order, none of them twice. -/
def Rising (chain : List Byte) : Prop := ((chain.filterMap kindOf).map kindIndex).Pairwise (· < ·)

theorem rising_concat (chain : List Byte) (k : Kind) : Rising (chain ++ [idOf k]) ↔
    Rising chain ∧ ∀ j ∈ chain.filterMap kindOf, kindIndex j < kindIndex k := by
  have hk : [idOf k].filterMap kindOf = [k] := by rw [List.filterMap_cons, kindOf_idOf]; rfl
  simp only [Rising, List.filterMap_append, hk, List.map_append, List.pairwise_append, List.map_cons,
    List.map_nil, List.pairwise_singleton, true_and, List.mem_singleton, forall_eq, List.forall_mem_map]

section Slots
variable {k : Kind} {ss ss' : Slots} {b : Bytes} {o l : Nat} {nx : Option Byte}

theorem encSlot_reset (k : Kind) : encSlot k Slots.reset = [] := by cases k <;> rfl

theorem encSlots_reset : encSlots Slots.reset = [] := rfl

/-- Decoding a header leaves what the other slots emit. -/
theorem decInto_encSlot_of_ne (hd : decInto k ss b o = .ok (ss', nx, l)) {j : Kind} (hj : j ≠ k) :
    encSlot j ss' = encSlot j ss := by
  obtain ⟨-, -, -, -, hhop, hrt, hfrag, hah, hesp, hdst⟩ := decInto_ok hd
  cases j with
  | hop => rw [encSlot, encSlot, hhop hj.symm]
  | rt => rw [encSlot, encSlot, hrt hj.symm]
  | frag => rw [encSlot, encSlot, hfrag hj.symm]
  | ah => rw [encSlot, encSlot, hah hj.symm]
  | esp => rw [encSlot, encSlot, hesp hj.symm]
  | dst => rw [encSlot, encSlot, hdst hj.symm]

/-- Decoding a header into the first of the slots that emit nothing appends the consumed bytes. -/
theorem decInto_encSlots (hd : decInto k ss b o = .ok (ss', nx, l))
    (hempty : ∀ j, kindIndex k ≤ kindIndex j → encSlot j ss = []) :
    encSlots ss' = encSlots ss ++ b.take l := by
  have hk := (decInto_consumed hd).1
  have hne := fun j => decInto_encSlot_of_ne hd (j := j)
  cases k <;> simp (disch := decide) [encSlots, hk, hne, hempty]

end Slots

/-- The slots a walk has filled emit the bytes it has consumed, and those after the kinds it has met nothing. -/
structure Walker.InOrder (w : Walker) : Prop where
  emitted : encSlots w.slots = w.buf.take w.pos
  empty : ∀ k, (∀ j ∈ w.chain.filterMap kindOf, kindIndex j < kindIndex k) → encSlot k w.slots = []

theorem inOrder_start (first : Byte) (b : Bytes) (o : Nat) : (Walker.start first b o).InOrder :=
  ⟨encSlots_reset, fun k _ => encSlot_reset k⟩

theorem Walker.InOrder.dispatch {w v : Walker} {k : Kind} (hw : w.InOrder)
    (hlast : ∀ j ∈ w.chain.filterMap kindOf, kindIndex j < kindIndex k) (hd : w.dispatch k = .ok v) :
    v.InOrder := by
  obtain ⟨ss, nx, l, hdec, rfl⟩ := dispatch_ok hd
  have hempty : ∀ j, kindIndex k ≤ kindIndex j → encSlot j w.slots = [] :=
    fun j hj => hw.empty j fun i hi => (hlast i hi).trans_le hj
  refine ⟨?_, fun j hj => ?_⟩
  · show encSlots ss = w.buf.take (w.pos + l)
    rw [decInto_encSlots hdec hempty, hw.emitted, List.take_add]
  · have hkj : kindIndex k < kindIndex j := hj k (by simp [kindOf_idOf])
    have hne : j ≠ k := by rintro rfl; omega
    exact (decInto_encSlot_of_ne hdec hne).trans (hempty j hkj.le)

/-- A walk whose chain is in canonical order was so after every dispatch. -/
theorem walk_inOrder {first : Byte} {b : Bytes} {o : Nat} {w : Walker} (h : walk first b o = .ok w)
    (hrise : Rising w.chain) : w.InOrder := by
  refine walkLoop_ind (P := fun v => Rising v.chain → v.InOrder) (fun w k v hw _ hd hv => ?_) _ _ _ h
    (fun _ => inOrder_start first b o) hrise
  have hchain : v.chain = w.chain ++ [idOf k] := by
    obtain ⟨ss, nx, l, -, rfl⟩ := dispatch_ok hd
    rfl
  obtain ⟨hrise, hlast⟩ := (rising_concat _ _).1 (hchain ▸ hv)
  exact (hw hrise).dispatch hlast hd

/-! ### The round trip (R304) -/

/-- With no bytes behind the packet, the working region is all the rest. -/
theorem workRegion_eq_drop {b : Bytes} {f : FixedHdr} (h : f.plen = 0 ∨ b.length = 40 + f.plen.toNat) :
    workRegion b f = b.drop 40 := by
  rw [workRegion]
  split_ifs with hp
  · rw [← h.resolve_left hp, slice, List.take_of_length_le]
    rw [List.length_drop]
  · rfl

/-- The fixed header and the slots a packet decodes to emit the packet's bytes up to the remaining ones, when
none stand behind the packet and its headers come in canonical order. -/
theorem pktDecode_emits {u : Ulc} {b : Bytes} {o : Nat} {r : PktResult} (hd : pktDecode u b o = .ok r)
    (hall : r.fix.plen = 0 ∨ b.length = 40 + r.fix.plen.toNat) (hrise : Rising r.chain) :
    ∃ p ≤ b.length, encFixed r.fix ++ encSlots r.slots = b.take p ∧
      r.remOff = o + p ∧ r.remLen = b.length - p := by
  obtain ⟨f, w, hf, hw, rfl⟩ := pktDecode_ok hd
  obtain ⟨h40, -, hread⟩ := decFixed_ok_iff.1 hf
  have hwork : workRegion b f = b.drop 40 := workRegion_eq_drop hall
  obtain ⟨hbuf, -, hpos, -, -⟩ := walk_inside hw
  have hslots : encSlots w.slots = (b.drop 40).take w.pos := by
    rw [(walk_inOrder hw hrise).emitted, hbuf, hwork]
  rw [hwork, List.length_drop] at hpos
  refine ⟨40 + w.pos, by omega, ?_, Nat.add_assoc .., ?_⟩
  · show encFixed f ++ encSlots w.slots = _
    rw [hread, encFixed_readFixed h40, hslots, ← List.take_add]
  · show ((workRegion b f).drop w.pos).length = _
    rw [hwork, List.drop_drop, List.length_drop]

theorem natRes_toNat {n : Nat} (h : n < 2 ^ 32) : (natRes n).toNat = n :=
  (BitVec.toNat_ofNat ..).trans (Nat.mod_eq_of_lt h)

/-- The bytes RES1 and RES2 of PKT_DEC name are the region's from the remaining ones on. -/
theorem ibufBytes_rem {s : State} {d : PktResult} {p : Nat} (hp : p ≤ s.arg1.toNat)
    (hr : s.arg0.toNat + s.arg1.toNat ≤ s.params.ibufSize) (hsize : s.params.ibufSize < 2 ^ 32)
    (hoff : d.remOff = s.arg0.toNat + p) (hlen : d.remLen = s.arg1.toNat - p) :
    s.ibufBytes (natRes d.remOff).toNat (natRes d.remLen).toNat =
      (s.ibufBytes s.arg0.toNat s.arg1.toNat).drop p := by
  rw [natRes_toNat (by omega), natRes_toNat (by omega), hoff, hlen, ibufBytes_drop]

/-- Settles O51: the header and the slots emit the packet up to the remaining bytes (`pktDecode_emits`), and the
payload after the fix-up emits those. What the payload serializes to before the fix-up is then not needed. -/
theorem packetRoundTrip : Obligations.PacketRoundTrip := by
  intro s t r hdec hcause
  dsimp only
  intro hsize hall hrise _ hfix hpay hfit
  obtain ⟨d, hr, hd, rfl⟩ := execPktDec_succeeds hdec hcause
  have hlen := ibufBytes_length s s.arg0.toNat s.arg1.toNat
  obtain ⟨p, hp, hemit, hoff, hrest⟩ := pktDecode_emits hd (hlen.symm ▸ hall) hrise
  rw [hlen] at hp hrest
  have hbytes : encFixed d.fix ++ encSlots d.slots ++ payloadBytes s.codec r.payload =
      s.ibufBytes s.arg0.toNat s.arg1.toNat := by
    have hrem : payloadBytes s.codec r.payload = (s.ibufBytes s.arg0.toNat s.arg1.toNat).drop p :=
      hpay.trans (ibufBytes_rem hp hr hsize hoff hrest)
    rw [hemit, hrem, List.take_append_drop]
  obtain ⟨u, hu, hout, hres⟩ := execPktEnc_reads_back
    (s := { (pktDecoded s d).done (rawFlags d.why) with olen := 0 }) hfix hbytes
    (by rw [hlen]; exact (Nat.zero_add _).trans_le hfit)
  rw [hlen] at hout hres
  exact ⟨u, hu, hout, hres.trans (BitVec.ofNat_toNat ..)⟩

end Sys2Proof.Machine
end

section
/-! PROOFS. The family 46_checksum.md: the folded sum by numbers (R330, R331, R338), the pseudo-header
(R332, R337), the fix-up (R334, R335, R339) and the checksum commands (R340 to R342). -/

namespace Sys2Proof.Machine

/-! ### The folded sum (R330) -/

/-- Enough rounds give the one 16-bit value that is congruent modulo 0xFFFF and zero only for zero: one
round takes 0xFFFF away per carry, and never reaches zero. -/
theorem foldLoop_spec {f s : Nat} (h : s ≤ f) :
    foldLoop f s ≤ 0xFFFF ∧ foldLoop f s % 0xFFFF = s % 0xFFFF ∧ (foldLoop f s = 0 ↔ s = 0) := by
  induction f generalizing s with
  | zero =>
    obtain rfl : s = 0 := by omega
    exact ⟨Nat.zero_le _, rfl, Iff.rfl⟩
  | succ f ih =>
    rw [foldLoop]
    split_ifs with hs
    · obtain ⟨hle, hmod, hzero⟩ := ih (s := s % 2 ^ 16 + s / 2 ^ 16) (by omega)
      refine ⟨hle, hmod.trans ?_, hzero.trans ?_⟩ <;> omega
    · exact ⟨by omega, rfl, Iff.rfl⟩

theorem fold_le (s : Nat) : fold s ≤ 0xFFFF := (foldLoop_spec le_rfl).1

theorem fold_mod (s : Nat) : fold s % 0xFFFF = s % 0xFFFF := (foldLoop_spec le_rfl).2.1

theorem fold_eq_zero (s : Nat) : fold s = 0 ↔ s = 0 := (foldLoop_spec le_rfl).2.2

/-- What the fold of a sum depends on. -/
theorem fold_congr {s t : Nat} (hmod : s % 0xFFFF = t % 0xFFFF) (hzero : s = 0 ↔ t = 0) :
    fold s = fold t := by
  have := fold_le s
  have := fold_le t
  have := fold_mod s
  have := fold_mod t
  have := fold_eq_zero s
  have := fold_eq_zero t
  omega

theorem fold_add (s t : Nat) : fold (s + t) = fold (fold s + fold t) := by
  have hs := fold_mod s
  have ht := fold_mod t
  have hs0 := fold_eq_zero s
  have ht0 := fold_eq_zero t
  exact fold_congr (by omega) (by omega)

/-- A sum and the complement of its fold give all ones. -/
theorem fold_add_complement (s : Nat) : fold (s + (0xFFFF - fold s)) = 0xFFFF := by
  have := fold_le s
  have := fold_mod s
  have := fold_eq_zero s
  exact (fold_congr (t := 0xFFFF) (by omega) (by omega)).trans rfl

theorem ocsum_le (x : Bytes) : ocsum x ≤ 0xFFFF := fold_le _

theorem cksum_toNat (x : Bytes) : (cksum x).toNat = 0xFFFF - ocsum x := by
  have := ocsum_le x
  rw [cksum, BitVec.toNat_not, BitVec.toNat_ofNat]
  omega

/-- The checksum as a result register holds it. -/
theorem cksum_setWidth (x : Bytes) : (cksum x).setWidth 32 = BitVec.ofNat 32 (0xFFFF - ocsum x) := by
  rw [← BitVec.toNat_inj, BitVec.toNat_setWidth, BitVec.toNat_ofNat, cksum_toNat]

/-- Settles O55: the fold keeps the sum modulo 0xFFFF and its being zero (`foldLoop_spec`). -/
theorem foldedSumIsOnesComplement : Obligations.FoldedSumIsOnesComplement :=
  fun x => ⟨ocsum_le x, fold_mod _, fold_eq_zero _, cksum_toNat x⟩

/-! ### The combining law (R338) -/

theorem ocsum_append {x : Bytes} (y : Bytes) (h : x.length % 2 = 0) :
    ocsum (x ++ y) = fold (ocsum x + ocsum y) := by
  rw [ocsum, sumWords_append x y h, fold_add]
  rfl

theorem pseudo_length_even (src dst : Bytes16) (p : Byte) (n : Nat) :
    (pseudo src dst p n).length % 2 = 0 := by
  rw [pseudo_length]

/-- Settles O56: the words of a sum split at an even offset, and a sum may be folded part by part. -/
theorem checksumCombiningLaw : Obligations.ChecksumCombiningLaw :=
  ⟨fun _ y h => ocsum_append y h, fun src dst p n q => by
    rw [cksum_toNat, ocsum_append q (pseudo_length_even src dst p n)]⟩

/-! ### The pseudo-header (R332, R337) -/

@[simp] theorem be16_length (v : Half) : (be16 v).length = 2 := rfl

@[simp] theorem be32_length (v : Word) : (be32 v).length = 4 := rfl

@[simp] theorem sumWords_be16 (v : Half) : sumWords (be16 v) = v.toNat := by
  have := v.isLt
  simp only [be16, sumWords, ext_toNat]
  omega

@[simp] theorem sumWords_be32 (v : Word) :
    sumWords (be32 v) = v.toNat / 2 ^ 16 + v.toNat % 2 ^ 16 := by
  have := v.isLt
  simp only [be32, sumWords, ext_toNat]
  omega

theorem sumWords_addr_append (a : Bytes16) (x : Bytes) :
    sumWords (a.val ++ x) = sumWords a.val + sumWords x :=
  sumWords_append _ _ (by rw [a.property])

/-- The length and the protocol id sum the same in both pseudo-headers, whose other words are zero. -/
theorem sumWords_pseudo_tail (p : Byte) {n : Nat} (h : n ≤ 0xFFFF) :
    sumWords ([0x00, p] ++ be16 (BitVec.ofNat 16 n)) =
      sumWords (be32 (BitVec.ofNat 32 n) ++ [0, 0, 0, p]) := by
  rw [sumWords_append [0x00, p] _ (by simp), sumWords_append (be32 _) _ (by simp), sumWords_be16,
    sumWords_be32]
  simp only [sumWords, BitVec.ofNat_eq_ofNat, BitVec.toNat_ofNat]
  omega

/-- Settles O57: the two pseudo-headers have even length and the same sum of words. -/
theorem pseudoHeaderEquivalence : Obligations.PseudoHeaderEquivalence := by
  intro src dst p n q hn
  have hsum : sumWords (pseudo src dst p n) =
      sumWords (src.val ++ dst.val ++ be32 (BitVec.ofNat 32 n) ++ [0, 0, 0, p]) := by
    simp only [pseudo, List.append_assoc, sumWords_addr_append]
    rw [sumWords_pseudo_tail p hn]
  have heven : (src.val ++ dst.val ++ be32 (BitVec.ofNat 32 n) ++ [0, 0, 0, p]).length % 2 = 0 := by
    simp [src.property, dst.property]
  rw [ocsum, ocsum, sumWords_append _ _ (pseudo_length_even ..), sumWords_append _ _ heven, hsum]

/-- The pseudo-header, its length field by numbers. -/
theorem pseudo_eq (src dst : Bytes16) (p : Byte) (n : Nat) : pseudo src dst p n =
    src.val ++ dst.val ++ [0, p] ++ [BitVec.ofNat 8 (n / 2 ^ 8), BitVec.ofNat 8 n] := by
  have hhigh : BitVec.ofNat 8 ((BitVec.ofNat 16 n).toNat / 2 ^ 8) = BitVec.ofNat 8 (n / 2 ^ 8) := by
    simp only [← BitVec.toNat_inj, BitVec.toNat_ofNat]
    omega
  have hlow : BitVec.ofNat 8 (BitVec.ofNat 16 n).toNat = BitVec.ofNat 8 n := by
    simp only [← BitVec.toNat_inj, BitVec.toNat_ofNat]
    omega
  rw [pseudo, be16_eq, beHalf, hhigh, hlow]

/-! ### A word put at an even offset -/

theorem putBe16_length {b : Bytes} {i : Nat} (c : Half) (h : i + 2 ≤ b.length) :
    (putBe16 b i c).length = b.length := by
  simp only [putBe16, be16_length, List.length_append, List.length_take, List.length_drop]
  omega

theorem putBe16_rd16 {b : Bytes} {i : Nat} (h : i + 2 ≤ b.length) : putBe16 b i (rd16 b i) = b := by
  rw [putBe16, be16_rd16_slice h, ← slice_zero, slice_append (Nat.zero_le i) (Nat.le_add_right i 2),
    slice_zero, List.take_append_drop]

theorem sumWords_putBe16 {b : Bytes} {j : Nat} (c : Half) (h : 2 * j ≤ b.length) :
    sumWords (putBe16 b (2 * j) c) =
      sumWords (b.take (2 * j)) + c.toNat + sumWords (b.drop (2 * j + 2)) := by
  have heven : (b.take (2 * j)).length % 2 = 0 := by rw [List.length_take]; omega
  rw [putBe16, List.append_assoc, sumWords_append _ _ heven, sumWords_append (be16 c) _ (by simp),
    sumWords_be16, Nat.add_assoc]

/-- Replacing a zero word adds the new word to the sum. -/
theorem sumWords_putBe16_of_zero {b : Bytes} {j : Nat} (c : Half) (h : 2 * j + 2 ≤ b.length)
    (hzero : rd16 b (2 * j) = 0) : sumWords (putBe16 b (2 * j) c) = sumWords b + c.toNat := by
  have hb : putBe16 b (2 * j) 0 = b := by rw [← hzero, putBe16_rd16 h]
  have hold := sumWords_putBe16 (b := b) (j := j) 0 (by omega)
  rw [hb, BitVec.ofNat_eq_ofNat, BitVec.toNat_zero, Nat.add_zero] at hold
  rw [sumWords_putBe16 c (by omega), hold, Nat.add_right_comm]

/-- Settles O58: the new payload's sum is the old one's plus the complement of the old folded sum. -/
theorem fixupVerifies : Obligations.FixupVerifies := by
  intro u p h src dst r c j _ hfix hcsum hj hzero hset
  obtain ⟨-, hc⟩ := fixup_cases hfix hcsum
  rw [hset, putBe16_length c hj]
  generalize u.serialize h = q at hj hzero hc
  have heven := pseudo_length_even src dst p q.length
  have hsum : sumWords (pseudo src dst p q.length ++ putBe16 q (2 * j) c) =
      sumWords (pseudo src dst p q.length ++ q) + c.toNat := by
    rw [sumWords_append _ _ heven, sumWords_append _ _ heven, sumWords_putBe16_of_zero c hj hzero,
      Nat.add_assoc]
  rw [ocsum, hsum, hc, cksum_toNat]
  exact fold_add_complement _

/-! ### The fix-up (R333, R334), case by case -/

section Fixup
variable {u : Ulc} {p : Byte} {h : Obj} {pl : Payload} {src dst : Bytes16}

theorem needLen_ok {n : Nat} (hn : n ≤ 0xFFFF) : needLen n = .ok () := if_neg (by omega)

theorem needLen_bad {n : Nat} (hn : 0xFFFF < n) : needLen n = .error .csumLengthRange := if_pos hn

theorem fixup_otherId {ulp : Option Byte} (hulp : ∀ p, ulp = some p → p ≠ 6 ∧ p ≠ 17 ∧ p ≠ 58) :
    fixup u ulp pl src dst = .ok ⟨pl, none, false, false⟩ := by
  cases ulp with
  | none => rfl
  | some p =>
    obtain ⟨h6, h17, h58⟩ := hulp p rfl
    exact if_neg fun hid => ((csumId_iff p).1 hid).elim h6 (Or.elim · h17 h58)

theorem fixup_noField (hp : p = 6 ∨ p = 17 ∨ p = 58)
    (hpl : (∃ b, pl = .raw b) ∨ (∃ h, pl = .obj h ∧ u.hasCsum h = false)) :
    fixup u (some p) pl src dst = .ok ⟨pl, none, false, true⟩ := by
  obtain ⟨b, rfl⟩ | ⟨h, rfl, hfield⟩ := hpl
  · simp [fixup, (csumId_iff p).2 hp]
  · simp [fixup, (csumId_iff p).2 hp, hfield]

theorem fixup_fieldSet (hp : p = 6 ∨ p = 17 ∨ p = 58) (hfield : u.hasCsum h = true)
    (hset : u.getCsum h ≠ 0) :
    fixup u (some p) (.obj h) src dst = .ok ⟨.obj h, none, false, false⟩ := by
  simp only [fixup, (csumId_iff p).2 hp, hfield, if_true, if_pos hset]

theorem fixup_fieldZero (hp : p = 6 ∨ p = 17 ∨ p = 58) (hfield : u.hasCsum h = true)
    (hzero : u.getCsum h = 0) :
    fixup u (some p) (.obj h) src dst = fixupWrite u p h src dst := by
  simp only [fixup, (csumId_iff p).2 hp, hfield, if_true, if_neg (not_not.2 hzero)]

theorem fixupWrite_ok (hlen : (u.serialize h).length ≤ 0xFFFF) :
    let c := cksum (pseudo src dst p (u.serialize h).length ++ u.serialize h)
    fixupWrite u p h src dst = .ok ⟨.obj (u.setCsum h c), some c, true, false⟩ := by
  rw [fixupWrite, needLen_ok hlen]
  rfl

theorem fixupWrite_long (hlen : 0xFFFF < (u.serialize h).length) :
    fixupWrite u p h src dst = .error .csumLengthRange := by
  rw [fixupWrite, needLen_bad hlen]
  rfl

end Fixup

/-! ### CSUM_FIXUP (R340), and PKT_ENC where the fix-up fails -/

section FixupCommands
variable {s : State}

theorem execCsumFixup_ok {r : FixupResult} (hfix : stateFixup s = .ok r) :
    execCsumFixup s = .next (completed s { s with payload := r.payload, res0 := csumRes r.csum }
      (flagsNat (fixupFlags r))) := by
  rw [execCsumFixup, hfix]
  exact complete_ok s _ _ rfl

/-- A fix-up that writes no checksum leaves the payload as it was. -/
theorem execCsumFixup_unwritten {skipped : Bool}
    (hfix : stateFixup s = .ok ⟨s.payload, none, false, skipped⟩) :
    execCsumFixup s = .next (completed s { s with res0 := 0 } (if skipped then 2 ^ 12 else 0)) := by
  rw [execCsumFixup_ok hfix, flagsNat_fixupFlags]
  simp only [Bool.false_eq_true, if_false, Nat.zero_add]
  rfl

theorem execCsumFixup_error {t : Trap} (hfix : stateFixup s = .error t) :
    execCsumFixup s = complete s (.error t) := by
  rw [execCsumFixup, hfix]
  rfl

/-- The fix-up comes before the output, so its fault does not depend on OLEN (R409). -/
theorem execPktEnc_error {t : Trap} (hfix : stateFixup s = .error t) :
    execPktEnc s = complete s (.error t) := by
  rw [execPktEnc, hfix]
  rfl

theorem complete_csumLengthRange (s : State) :
    complete s (.error .csumLengthRange) = .next (faulted s 0 5 0) :=
  complete_error s .csumLengthRange

variable {p : Byte} {h : Obj}

/-- A payload with a zero checksum field reaches the fix-up's last step. -/
theorem stateFixup_fieldZero (hulp : s.ulp = some p) (hp : p = 6 ∨ p = 17 ∨ p = 58)
    (hpl : s.payload = .obj h) (hfield : s.codec.hasCsum h = true) (hzero : s.codec.getCsum h = 0) :
    stateFixup s = fixupWrite s.codec p h s.fix.src s.fix.dst := by
  rw [stateFixup, hulp, hpl, fixup_fieldZero hp hfield hzero]

end FixupCommands

/-- Settles O54: the length is checked in the fix-up, with which both commands begin. -/
theorem checksumLengthRangeFaults : Obligations.ChecksumLengthRangeFaults := by
  intro s p h hulp hp hpl hfield hzero hlen
  have hfix : stateFixup s = .error .csumLengthRange :=
    (stateFixup_fieldZero hulp hp hpl hfield hzero).trans (fixupWrite_long hlen)
  exact ⟨(execCsumFixup_error hfix).trans (complete_csumLengthRange s),
    (execPktEnc_error hfix).trans (complete_csumLengthRange s)⟩

/-- Settles O53: the command completes what the fix-up gives in each of its cases. -/
theorem checksumFixupResult : Obligations.ChecksumFixupResult := by
  refine ⟨rfl, fun s => ⟨fun hulp => execCsumFixup_unwritten (fixup_otherId hulp),
    fun p hulp hp => ⟨fun hpl => ?noField, fun h hpl hfield hset => ?fieldSet,
      fun h hpl hfield hzero hlen => ?long, fun h hpl hfield hzero hlen => ?written⟩⟩⟩
  case noField =>
    refine execCsumFixup_unwritten (skipped := true) ?_
    rw [stateFixup, hulp, fixup_noField hp hpl]
  case fieldSet =>
    refine execCsumFixup_unwritten (skipped := false) ?_
    rw [stateFixup, hulp, hpl, fixup_fieldSet hp hfield hset]
  case long => exact (checksumLengthRangeFaults s p h hulp hp hpl hfield hzero hlen).1
  case written =>
    have hfix := (stateFixup_fieldZero hulp hp hpl hfield hzero).trans (fixupWrite_ok hlen)
    refine (execCsumFixup_ok hfix).trans ?_
    rw [flagsNat_fixupFlags, csumRes_match]
    rfl

/-! ### CSUM_PSEUDO and CSUM_COMPUTE (R342, R341) -/

section SumCommands
variable {s : State}

theorem execCsumPseudo_ok (h : s.arg1.toNat ≤ 0xFFFF) :
    execCsumPseudo s = .next (completed s { s with
      res0 := natRes (ocsum (pseudo s.fix.src s.fix.dst (lowByte s.arg0) s.arg1.toNat)) } 0) := by
  rw [execCsumPseudo, needLen_ok h]
  exact complete_ok s _ {} rfl

theorem execCsumPseudo_long (h : 0xFFFF < s.arg1.toNat) :
    execCsumPseudo s = .next (faulted s 0 5 0) := by
  rw [execCsumPseudo, needLen_bad h]
  exact complete_csumLengthRange s

theorem execCsumCompute_ok (hr : s.arg1.toNat + s.arg2.toNat ≤ s.params.ibufSize)
    (h : s.arg2.toNat ≤ 0xFFFF) :
    execCsumCompute s = .next (completed s { s with
      res0 := (cksum (pseudo s.fix.src s.fix.dst (lowByte s.arg0) s.arg2.toNat ++
        s.ibufBytes s.arg1.toNat s.arg2.toNat)).setWidth 32 } 0) := by
  rw [execCsumCompute, region_ok hr, needLen_ok h]
  exact complete_ok s _ {} rfl

theorem execCsumCompute_long (hr : s.arg1.toNat + s.arg2.toNat ≤ s.params.ibufSize)
    (h : 0xFFFF < s.arg2.toNat) : execCsumCompute s = .next (faulted s 0 5 0) := by
  rw [execCsumCompute, region_ok hr, needLen_bad h]
  exact complete_csumLengthRange s

theorem execCsumCompute_badRegion (h : s.params.ibufSize < s.arg1.toNat + s.arg2.toNat) :
    execCsumCompute s = .next (faulted s 0 3 0) := by
  rw [execCsumCompute, region_bad h]
  exact complete_error s .badRegion

end SumCommands

/-- Settles O52: the region is checked first, then the length; the pseudo-header is read by numbers. -/
theorem checksumCommandsResult : Obligations.ChecksumCommandsResult := by
  refine ⟨rfl, rfl, fun s => ?_⟩
  dsimp only
  simp only [← pseudo_eq, ← cksum_setWidth]
  simp only [← lowByte_eq]
  exact ⟨execCsumPseudo_ok, execCsumPseudo_long, execCsumCompute_ok, execCsumCompute_long,
    execCsumCompute_badRegion⟩

end Sys2Proof.Machine
end

section
/-! PROOFS. The family 47_system.md: the next states of NOP (R360) and CLEAR (R361). -/

namespace Sys2Proof.Machine

theorem execNop_eq (s : State) : execNop s = .next (completed s s 0) :=
  complete_ok s s {} rfl

theorem execClear_eq (s : State) : execClear s = .next (completed s (clearContext s) 0) :=
  complete_ok s (clearContext s) {} (clearContext_status s)

/-- Settles O22: both complete without flags, and the state CLEAR completes with is `clearContext`, whose
reset values (R58) are the ones written out in the claim. -/
theorem nopAndClearResult : Obligations.NopAndClearResult :=
  ⟨rfl, rfl, fun s => ⟨execNop_eq s, execClear_eq s⟩⟩

end Sys2Proof.Machine
end

section
/-! PROOFS. The family 60_exceptions.md: a command completes in the step that runs it (R420), a fault writes STATUS
and FAULT_OFF alone (R404, R412), and STICKY_FAULT stays set until reset (R421). -/

namespace Sys2Proof.Machine

/-! ### Completion in one step (R420) -/

theorem exec_answers (i : Instr) (s : State) : ∃ t, exec i s = .next t := by
  rcases exec_cases i s with ⟨-, k, e⟩ | ⟨-, u, fl, e, -⟩ | ⟨-, w, e⟩ | ⟨-, k, off, e⟩ <;>
    exact ⟨_, e⟩

theorem exec_answers_cmd (i : Instr) (s : State) : ∃ t, exec i s = .next t ∧ t.cmd = s.cmd := by
  obtain ⟨t, ht⟩ := exec_answers i s
  obtain ⟨-, -, -, -, -, -, hcmd, -⟩ := operandsAndInputsKept i s t ht
  exact ⟨t, ht, hcmd⟩

/-- Settles O7: a pending command is taken out of CMD, then it is run or refused, and neither writes CMD. -/
theorem everyCommandCompletesAtOnce : Obligations.EveryCommandCompletesAtOnce := by
  refine ⟨exec_answers_cmd, fun s w hc => ?_⟩
  rcases step_cases s with ⟨i, e⟩ | e | ⟨hf, -⟩
  · rw [e]
    exact exec_answers_cmd i (afterFetch s)
  · exact ⟨_, e, rfl⟩
  · rw [fetch_cmd hc] at hf
    cases hf

/-! ### What a fault writes (R404, R412) -/

/-- Every fault in the words of the claims, with the codes it may record (R35, R36). -/
theorem raise_faulted (s : State) (k : Trap) : ∃ fkind cause off : Nat, 1 ≤ cause ∧ cause ≤ 5 ∧ fkind ≤ 8 ∧
    (cause = 1 ↔ fkind ≠ 0) ∧ (cause ≠ 1 → off = 0) ∧ s.raise k = faulted s fkind cause off := by
  obtain ⟨hpos, hcause, hfkind, hiff, hoff⟩ := trap_codes k
  exact ⟨_, _, _, hpos, hcause, hfkind, hiff, hoff, raise_eq_faulted s k⟩

/-- A pending command whose step ends with a cause has raised a fault. -/
theorem step_command_fault {s t : State} {w : Word} (hc : s.cmd = some w) (hs : step s = .next t)
    (hf : statusCause t.status ≠ 0) : ∃ k, t = (afterFetch s).raise k := by
  rcases step_command_cases hc hs with hk | ⟨i, u, fl, -, -, rfl⟩
  · exact hk
  · exact absurd (done_cause u fl) hf

/-- Settles O16: with a cause the command has raised, and `State.raise` writes STATUS and FAULT_OFF alone. -/
theorem faultWritesOnlyStatus : Obligations.FaultWritesOnlyStatus := by
  refine ⟨fun i s t hc h hf => ?_, fun s t w hc hs hf => ?_⟩
  · obtain ⟨k, rfl⟩ := command_fault hc h hf
    exact raise_faulted s k
  · obtain ⟨k, rfl⟩ := step_command_fault hc hs hf
    exact raise_faulted (afterFetch s) k

/-! ### STICKY_FAULT over a step (R421) -/

theorem exec_sticky {i : Instr} {s t : State} (h : exec i s = .next t)
    (hs : statusSticky s.status = true) : statusSticky t.status = true := by
  rcases exec_cases i s with ⟨-, k, e⟩ | ⟨-, u, fl, e, f⟩ | ⟨-, w, e⟩ | ⟨-, k, off, e⟩ <;>
    rw [e] at h <;> cases h
  · exact sticky_raise s k
  · rw [sticky_done, f.status, hs]
  · exact hs
  · exact sticky_raise _ _

/-- No host action writes STATUS but the reset event (R54). -/
theorem hostAct_status {s t : State} {a : HostAct} (h : hostAct s a = .next t) (ha : a ≠ .reset) :
    t.status = s.status := by
  cases a with
  | write a v =>
    cases h
    obtain ⟨hst, -⟩ := hostWrite_frame s a v
    exact hst
  | read l => rw [hostLook_next h]
  | ibuf off b =>
    simp only [hostAct, hostIbuf] at h
    split_ifs at h
    cases h; rfl
  | reset => exact absurd rfl ha
  | _ => cases h; rfl

theorem hostTurn_sticky {s t : State} (h : hostTurn s = .next t) (hr : ∀ rest, s.host ≠ .reset :: rest)
    (hs : statusSticky s.status = true) : statusSticky t.status = true := by
  rcases hostTurn_cases h with rfl | ⟨a, rest, hh, ha⟩
  · exact hs
  · have hne : a ≠ .reset := fun e => hr rest (e ▸ hh)
    rw [hostAct_status ha hne]
    exact hs

/-- A step that is not the reset event keeps a set STICKY_FAULT. -/
theorem step_sticky {s t : State} (h : step s = .next t) (hs : statusSticky s.status = true)
    (hr : ∀ rest, fetch s = none → s.host ≠ .reset :: rest) : statusSticky t.status = true := by
  rcases step_cases s with ⟨i, e⟩ | e | ⟨hf, e⟩ <;> rw [e] at h
  · exact exec_sticky h hs
  · cases h
    exact sticky_raise (afterFetch s) .illegalCommand
  · exact hostTurn_sticky h (fun rest => hr rest hf) hs

/-! ### STICKY_FAULT over a run (R421) -/

/-- A step takes at most the first of the host's actions. -/
theorem step_host_suffix {s t : State} (h : step s = .next t) : t.host <:+ s.host := by
  rcases step_cases s with ⟨i, e⟩ | e | ⟨-, e⟩ <;> rw [e] at h
  · obtain ⟨-, -, -, -, -, hhost, -⟩ := operandsAndInputsKept i _ t h
    rw [hhost]
    exact List.suffix_refl s.host
  · cases h
    exact List.suffix_refl s.host
  · rcases hostTurn_cases h with rfl | ⟨a, rest, hh, ha⟩
    · exact List.suffix_refl _
    · rw [hostAct_host ha, hh]
      exact List.suffix_cons a rest

/-- With no reset to come, STICKY_FAULT at 0 after a step was 0 before it. -/
theorem step_sticky_false {s t : State} (hr : HostAct.reset ∉ s.host) (h : step s = .next t)
    (ht : statusSticky t.status = false) : statusSticky s.status = false := by
  by_contra hs
  have hset := step_sticky h (Bool.eq_true_of_not_eq_false hs) fun rest _ hh =>
    hr (hh ▸ List.mem_cons_self)
  rw [ht] at hset
  cases hset

/-- With no reset to come, a run that ends with STICKY_FAULT 0 has it 0 after every one of its steps. -/
theorem run_sticky_false {n : Nat} {s t : State} (hr : HostAct.reset ∉ s.host)
    (h : core.run n s = .next t) (ht : statusSticky t.status = false) :
    ∀ k, k ≤ n → ∃ u : State, core.run k s = .next u ∧ statusSticky u.status = false := by
  induction n generalizing s with
  | zero =>
    intro k hk
    obtain rfl := Nat.le_zero.1 hk
    exact ⟨t, h, ht⟩
  | succ n ih =>
    obtain ⟨v, hstep, hrun⟩ := run_cases core n s t h
    have hrest := ih (fun hm => hr ((step_host_suffix hstep).mem hm)) hrun
    intro k hk
    cases k with
    | zero =>
      obtain ⟨u, hu, hclear⟩ := hrest 0 (Nat.zero_le n)
      cases hu
      exact ⟨s, rfl, step_sticky_false hr hstep hclear⟩
    | succ k =>
      rw [run_succ core k s v hstep]
      exact hrest k (Nat.le_of_succ_le_succ hk)

/-- Settles O10: a fault sets the bit, every step but the reset event keeps it, and so a run backwards from a
clear bit has it clear. -/
theorem stickyFaultRecordsEveryFault : Obligations.StickyFaultRecordsEveryFault := by
  refine ⟨fun s t w hc hs hf => ?_, fun s t => step_sticky, fun n s t => run_sticky_false⟩
  obtain ⟨k, rfl⟩ := step_command_fault hc hs hf
  exact sticky_raise (afterFetch s) k

end Sys2Proof.Machine
end

section
/-! PROOFS. The family 60_exceptions.md: when a command faults, with BadRegion (R406), with ObufOverflow (R407) and
with MalformedHeader (R401). -/

namespace Sys2Proof.Machine

/-! ### BadRegion (R406) -/

/-- An instruction that names a region reads it before anything else. -/
theorem exec_region_first {i : Instr} {s : State} {o n : Word} (h : regionOf i s = some (o, n)) :
    ∃ f, exec i s = complete s (region s o n >>= f) := by
  cases i <;> cases h <;> exact ⟨_, rfl⟩

/-- Settles O20: the region is read first, and reading it fails. -/
theorem badRegionFaults : Obligations.BadRegionFaults := by
  intro i s o n hreg hout
  obtain ⟨f, hf⟩ := exec_region_first hreg
  rw [hf, region_bad hout]
  exact complete_error s .badRegion

/-! ### ObufOverflow (R407) -/

/-- A packet that does not fit is not committed, and its fix-up is not kept. -/
theorem execPktEnc_full {s : State} {r : FixupResult} (hfix : stateFixup s = .ok r)
    (hfull : s.params.obufSize < s.olen.toNat + (pktBytes s r.payload).length) :
    execPktEnc s = .next (faulted s 0 4 0) := by
  rw [execPktEnc, hfix]
  show complete s (commitOut (pktBytes s r.payload) s >>= _) = _
  rw [commitOut_eq, if_neg (by omega)]
  exact complete_error s .obufOverflow

/-- Settles O21: each encode command commits its output before it writes anything else. -/
theorem obufOverflowFaults : Obligations.ObufOverflowFaults := by
  refine fun s => ⟨fun k hfull => ?_, execFixEnc_full, fun r => execPktEnc_full⟩
  exact (exec_encInstr k s).trans ((encCommand_result k s).2 hfull)

/-! ### MalformedHeader (R401) -/

section Malformed
variable {s : State} {o n : Nat} (p : Nat)

theorem decOpts_ibuf_bad (k : Kind) (h : n < 2 ∨ n < ((s.ibufByte (o + 1)).toNat + 1) * 8 ∨
      ∃ pos, tlvScan (s.ibufBytes (o + 2) (((s.ibufByte (o + 1)).toNat + 1) * 8 - 2)) = .error pos) :
    decOpts k (s.ibufBytes o n) p = .error (badHeader k p) := by
  cases hd : decOpts k (s.ibufBytes o n) p with
  | error t => rw [decOpts_error hd]
  | ok r =>
    obtain ⟨slot, l⟩ := r
    obtain ⟨rfl, hlen, hscan, -⟩ := decOpts_ok_iff.1 hd
    rw [ibufBytes_length] at hlen
    rw [byteAt_ibuf _ _ _ _ (by omega)] at hlen hscan
    rw [slice_ibuf _ _ _ _ _ hlen] at hscan
    obtain ⟨pos, hpos⟩ := (h.resolve_left (by omega)).resolve_left (by omega)
    rw [hpos] at hscan
    cases hscan

theorem decRt_ibuf_bad (h : n < 8 ∨ n < (s.ibufByte (o + 1)).toNat * 8 + 8) :
    decRt (s.ibufBytes o n) p = .error (badHeader .rt p) := by
  rw [decRt_eq, ibufBytes_length, if_neg]
  rintro ⟨hmin, hlen⟩
  rw [byteAt_ibuf _ _ _ _ (by omega)] at hlen
  omega

theorem decFrag_ibuf_bad (h : n < 8) :
    decFrag (s.ibufBytes o n) p = .error (badHeader .frag p) := by
  rw [decFrag_eq, ibufBytes_length, if_neg (by omega)]

theorem decAh_ibuf_bad (h : n < 2 ∨ (s.ibufByte (o + 1)).toNat = 0 ∨
      n < ((s.ibufByte (o + 1)).toNat + 2) * 4) :
    decAh (s.ibufBytes o n) p = .error (badHeader .ah p) := by
  rw [decAh_eq, ibufBytes_length, if_neg]
  rintro ⟨hmin, hplen, hlen⟩
  rw [byteAt_ibuf _ _ _ _ (by omega)] at hplen hlen
  have hpos : (s.ibufByte (o + 1)).toNat ≠ 0 := fun e => hplen (BitVec.eq_of_toNat_eq e)
  omega

theorem decEsp_ibuf_bad (h : n < 8) :
    decEsp (s.ibufBytes o n) p = .error (badHeader .esp p) := by
  rw [decEsp_eq, ibufBytes_length, if_neg (by omega)]

end Malformed

theorem execPktDec_malformed {s : State} (hr : s.arg0.toNat + s.arg1.toNat ≤ s.params.ibufSize)
    (h : s.arg1.toNat < 40 ∨ ((ibufFixed s s.arg0.toNat).plen ≠ 0 ∧
      s.arg1.toNat < 40 + (ibufFixed s s.arg0.toNat).plen.toNat)) :
    execPktDec s = .next (faulted s 1 1 s.arg0.toNat) := by
  rw [execPktDec_inRegion hr, pktDecode, decFixed_ibuf_bad _ _ _ _ h]
  exact complete_error s (.malformed .fixed s.arg0.toNat)

/-- Settles O34: each malformed case is its decoder's error, which the command records with the region's start. -/
theorem malformedHeaderFaults : Obligations.MalformedHeaderFaults := by
  intro s o n b1 partialOption hr
  refine ⟨fun h => ⟨execFixDec_malformed hr h, execPktDec_malformed hr h⟩, fun h => ⟨?hop, ?dst⟩, fun h => ?rt,
    fun h => ?frag, fun h => ?ah, fun h => ?esp, fun pos => execTlvScan_error hr⟩
  case hop => exact decCommand_error (k := .hop) hr (by rw [decInto, decOpts_ibuf_bad o .hop h]; rfl)
  case dst => exact decCommand_error (k := .dst) hr (by rw [decInto, decOpts_ibuf_bad o .dst h]; rfl)
  case rt => exact decCommand_error (k := .rt) hr (by rw [decInto, decRt_ibuf_bad o h]; rfl)
  case frag => exact decCommand_error (k := .frag) hr (by rw [decInto, decFrag_ibuf_bad o h]; rfl)
  case ah => exact decCommand_error (k := .ah) hr (by rw [decInto, decAh_ibuf_bad o h]; rfl)
  case esp => exact decCommand_error (k := .esp) hr (by rw [decInto, decEsp_ibuf_bad o h]; rfl)

end Sys2Proof.Machine
end

section
/-! PROOFS. The family 70_reset_and_hazards.md: the parameters, which no step changes (R453, R458), and
the reset event (R450 to R452). -/

namespace Sys2Proof.Machine

/-! ### The parameters -/

/-- The codec is read off the parameters alone (10_state.md R52). -/
theorem codec_congr {s t : State} (h : t.params = s.params) : t.codec = s.codec := by
  rw [State.codec, State.codec, h]

/-- Settles O13: no instruction and no host action writes the parameters, and the codec is one of them. -/
theorem parametersNeverChange : Obligations.ParametersNeverChange := by
  intro s t h
  have hp : t.params = s.params := step_params h
  exact ⟨hp, codec_congr hp⟩

/-! ### The reset event -/

/-- A reset as the host's next action is taken with the later actions already in place. -/
theorem hostTurn_reset {s : State} {rest : List HostAct} (h : s.host = .reset :: rest) :
    hostTurn s = .next (resetEvent { s with host := rest }) := by
  rw [hostTurn, h]
  rfl

/-- After a reset event no IBUF byte is written, so each is the new reset's free value (R452). -/
theorem resetEvent_ibufByte (s : State) (a : Nat) :
    (resetEvent s).ibufByte a = Config.ibufInit s.params.unit (s.resets + 1) a := rfl

/-- After a reset event no OBUF byte is written, so each is the new reset's free value (R452). -/
theorem resetEvent_obufByte (s : State) (a : Nat) :
    (resetEvent s).obufByte a = Config.obufInit s.params.unit (s.resets + 1) a := rfl

/-- A reset event clears STICKY_FAULT (60_exceptions.md R421). -/
theorem resetEvent_sticky (s : State) : statusSticky (resetEvent s).status = false := by
  rw [resetEvent_status]
  decide

/-- Settles O9: with nothing to fetch the step is the host's turn, which takes the reset event. -/
theorem resetEventRestoresReset : Obligations.ResetEventRestoresReset := by
  intro s rest hc hw hh
  refine ⟨resetEvent { s with host := rest }, ?_, rfl, resetEvent_sticky _,
    fun a => ⟨resetEvent_ibufByte _ a, resetEvent_obufByte _ a⟩⟩
  rw [step_hostTurn (fetch_none s hc hw), hostTurn_reset hh]

end Sys2Proof.Machine
end
